-- ==== Sys2Proof/Word.lean ====
section
/-! DEFINITION. The words of `xorshift_prng_128` (00_scope.md R7): u32, the 64-bit operand, result and
floating-point words, the four-word generator state, and an unpacked binary64 datum. -/

namespace Sys2Proof

/-- `u32`: an unsigned 32-bit word (R7, R65). -/
abbrev U32 := BitVec 32

/-- A 64-bit word: an operand word, a response datum, or the interchange pattern of an f64 (R7, R32, R70). -/
abbrev W64 := BitVec 64

/-- The generator state `S[0..3]` once it holds a value (10_state.md R11). -/
structure Words where
  s0 : U32
  s1 : U32
  s2 : U32
  s3 : U32
deriving DecidableEq, Repr

/-- The value of a binary64 datum (40_numerics.md R70), unpacked. `fin neg mant exp` is
`(-1)^neg * mant * 2^exp`; the data made by `Val.ofBits` and `Val.round` are in the format's own form:
`exp = -1074` and `mant < 2^52`, or `2^52 ≤ mant < 2^53` and `-1074 ≤ exp ≤ 971`. A NaN carries no sign
and no fraction here: R73 leaves them unspecified in every result. -/
inductive Val where
  | nan
  | inf (neg : Bool)
  | fin (neg : Bool) (mant : Nat) (exp : Int)
deriving DecidableEq, Repr

end Sys2Proof
end

