-- ==== Sys2Proof/Config.lean ====
section
/-! DEFINITION. What one implementation fixes and the spec leaves open (00_scope.md R6). Every constant
here is uninterpreted: nothing in Lean can evaluate it, so what is proved holds for every choice. -/

namespace Sys2Proof

/-- `NMAX - 1`. Twelve bits, so that `NMAX` is any integer with 1 ≤ NMAX ≤ 4096 and no other
(00_scope.md R6, 92_eei_decisions.md D10; notes/assumptions/2.md, DESIGN CHOICE). -/
opaque Config.nmaxCode : BitVec 12

/-- `fn_ln` on bit patterns, a function of its argument alone (40_numerics.md R79, LN-DET;
notes/assumptions/3.md, DESIGN CHOICE). -/
opaque Config.fnLn : W64 → W64

/-- `fn_log10` on bit patterns (40_numerics.md R80, LOG10-DET; notes/assumptions/3.md, DESIGN CHOICE). -/
opaque Config.fnLog10 : W64 → W64

/-- `fn_pow10` on bit patterns (40_numerics.md R81, POW10-DET; notes/assumptions/3.md, DESIGN CHOICE). -/
opaque Config.fnPow10 : W64 → W64

/-- The free draw of a NaN's sign (bit 52) and fraction (bits 51:0) for the n-th NaN that can be written
(40_numerics.md R73, 93_implementation_defined.md U3; notes/assumptions/4.md, DESIGN CHOICE). -/
opaque Config.nanBits : Nat → BitVec 53

end Sys2Proof
end

