-- ==== Sys2Proof/Machine/Float.lean ====
section
/-! DEFINITION. Binary64 arithmetic (40_numerics.md R69 to R78, R82, R83): exact integer computation, then
one rounding to nearest, ties to even. Where a rule says only 'IEEE 754', notes/assumptions/17.md lists
what was taken from the standard (PRESUMED). -/

namespace Sys2Proof

/-- The value of a binary64 interchange pattern (R70): sign bit 63, biased exponent 62:52, fraction 51:0. -/
def Val.ofBits (b : W64) : Val :=
  let neg := b.getLsbD 63
  let ex := (b.extractLsb' 52 11).toNat
  let fr := (b.extractLsb' 0 52).toNat
  if ex = 2047 then (if fr = 0 then .inf neg else .nan)
  else if ex = 0 then .fin neg fr (-1074)
  else .fin neg (2 ^ 52 + fr) ((ex : Int) - 1075)

/-- The interchange pattern with the given sign, biased exponent and fraction (R70). -/
def packFields (neg : Bool) (ex fr : Nat) : W64 :=
  BitVec.ofBool neg ++ BitVec.ofNat 11 ex ++ BitVec.ofNat 52 fr

/-- `bits(d)` (00_scope.md R7) of a datum in the format's own form. `free` is the pattern a NaN takes:
R73 leaves it open. -/
def Val.bits (free : W64) : Val → W64
  | .nan => free
  | .inf neg => packFields neg 2047 0
  | .fin neg m e =>
    if m < 2 ^ 52 then packFields neg 0 m else packFields neg (e + 1075).toNat (m - 2 ^ 52)

/-- The pattern of the n-th NaN the block can write: exponent field 0x7FF, any sign, any non-zero
fraction (R73, 93_implementation_defined.md U3; notes/assumptions/4.md). -/
def nanAt (n : Nat) : W64 :=
  let p := Config.nanBits n
  let fr := p.extractLsb' 0 52
  BitVec.ofBool (p.getLsbD 52) ++ (0x7FF : BitVec 11) ++ (if fr = 0 then 1 else fr)

/-- `m / 2^s` to the nearest integer, ties to even, for `s ≥ 1`; with `sticky` the exact value is a
little more than `m` (a non-zero remainder below its last bit). -/
def shiftRoundEven (m s : Nat) (sticky : Bool) : Nat :=
  let q := m >>> s
  let r := m % 2 ^ s
  let half := 2 ^ (s - 1)
  if half < r ∨ (r = half ∧ (sticky = true ∨ q % 2 = 1)) then q + 1 else q

/-- The binary64 value nearest to `(-1)^neg * m * 2^e`, ties to even; overflow gives an infinity and
underflow is gradual (R71). PRESUMED, unsafe: overflow begins half a unit above the largest finite number,
as IEEE 754 has it (notes/assumptions/17.md). With `sticky` the exact magnitude is a little above `m`,
which then has at least 55 bits. -/
def Val.round (neg : Bool) (m : Nat) (e : Int) (sticky : Bool) : Val :=
  if m = 0 then .fin neg 0 (-1074)
  else
    let drop : Int := max ((m.log2 : Int) - 52) (-1074 - e)
    let q := if drop ≤ 0 then m <<< (-drop).toNat else shiftRoundEven m drop.toNat sticky
    let m' := if q = 2 ^ 53 then 2 ^ 52 else q
    let e' := if q = 2 ^ 53 then e + drop + 1 else e + drop
    if 971 < e' then .inf neg else .fin neg m' e'

/-- The binary64 value nearest to `(-1)^neg * (m / n) * 2^e`, for `n ≠ 0`. -/
def Val.roundQuot (neg : Bool) (m n : Nat) (e : Int) : Val :=
  let k := n.log2 + 57 - m.log2
  let num := m <<< k
  .round neg (num / n) (e - k) (num % n != 0)

/-- `(-1)^neg * m * 2^k` as an integer. -/
def scaled (neg : Bool) (m k : Nat) : Int :=
  if neg then -((m <<< k : Nat) : Int) else ((m <<< k : Nat) : Int)

/-- Unary `-`: flips the sign (R71). -/
def Val.neg : Val → Val
  | .nan => .nan
  | .inf s => .inf (!s)
  | .fin s m e => .fin (!s) m e

/-- `+` (R71, R73). An exact zero sum is `+0.0` unless both operands are negative zeros. -/
def Val.add : Val → Val → Val
  | .nan, _ => .nan
  | .inf _, .nan => .nan
  | .inf s, .inf t => if s = t then .inf s else .nan
  | .inf s, .fin _ _ _ => .inf s
  | .fin _ _ _, .nan => .nan
  | .fin _ _ _, .inf t => .inf t
  | .fin s m e, .fin t n f =>
    let k := min e f
    let i := scaled s m (e - k).toNat + scaled t n (f - k).toNat
    .round (if i = 0 then s && t else decide (i < 0)) i.natAbs k false

/-- `a - b` is `a + (-b)`, exactly. -/
def Val.sub (a b : Val) : Val := a.add b.neg

/-- `*` (R71, R73). -/
def Val.mul : Val → Val → Val
  | .nan, _ => .nan
  | .inf _, .nan => .nan
  | .inf s, .inf t => .inf (s != t)
  | .inf s, .fin t n _ => if n = 0 then .nan else .inf (s != t)
  | .fin _ _ _, .nan => .nan
  | .fin s m _, .inf t => if m = 0 then .nan else .inf (s != t)
  | .fin s m e, .fin t n f => .round (s != t) (m * n) (e + f) false

/-- `/` (R71, R73). -/
def Val.div : Val → Val → Val
  | .nan, _ => .nan
  | .inf _, .nan => .nan
  | .inf _, .inf _ => .nan
  | .inf s, .fin t _ _ => .inf (s != t)
  | .fin _ _ _, .nan => .nan
  | .fin s _ _, .inf t => .fin (s != t) 0 (-1074)
  | .fin s m e, .fin t n f =>
    if n = 0 then (if m = 0 then .nan else .inf (s != t))
    else if m = 0 then .fin (s != t) 0 (-1074)
    else .roundQuot (s != t) m n (e - f)

/-- The integer square root of `n` among the numbers `r + i` with `i < 2^k`, by halving. -/
def isqrtFrom (n : Nat) : Nat → Nat → Nat
  | 0, r => r
  | k + 1, r => isqrtFrom n k (if (r + 2 ^ k) * (r + 2 ^ k) ≤ n then r + 2 ^ k else r)

/-- `sqrt` (R71, R73, R78). The operand is widened to `n * 2^(e-k)` with `e - k` even and `n` of 109 to
112 bits, so that the root has 55 or 56 bits and a remainder. -/
def Val.sqrt : Val → Val
  | .nan => .nan
  | .inf s => if s then .nan else .inf false
  | .fin s m e =>
    if m = 0 then .fin s 0 (-1074)
    else if s then .nan
    else
      let k0 := 110 - m.log2
      let k := if (e - k0) % 2 = 0 then k0 else k0 - 1
      let n := m <<< k
      let r := isqrtFrom n 56 0
      .round false r ((e - k) / 2) (n != r * r)

/-- `is_finite` (R75). -/
def Val.isFinite : Val → Bool
  | .fin _ _ _ => true
  | _ => false

/-- `<` (R75): by value; false on a NaN. -/
def Val.lt : Val → Val → Bool
  | .nan, _ => false
  | .inf _, .nan => false
  | .inf s, .inf t => s && !t
  | .inf s, .fin _ _ _ => s
  | .fin _ _ _, .nan => false
  | .fin _ _ _, .inf t => !t
  | .fin s m e, .fin t n f =>
    decide (scaled s m (e - min e f).toNat < scaled t n (f - min e f).toNat)

/-- `==` (R75): by value, so the two zeros are equal; false on a NaN. -/
def Val.eq : Val → Val → Bool
  | .inf s, .inf t => s == t
  | .fin s m e, .fin t n f =>
    decide (scaled s m (e - min e f).toNat = scaled t n (f - min e f).toNat)
  | _, _ => false

/-- `<=` (R75). -/
def Val.le (a b : Val) : Bool := a.lt b || a.eq b

/-- `floor_int` (R82): toward minus infinity, unbounded; `none` for an infinity or a NaN, to which it is
never applied. -/
def Val.floorInt : Val → Option Int
  | .fin s m e =>
    some (if 0 ≤ e then scaled s m e.toNat else Int.fdiv (scaled s m 0) ((2 ^ (-e).toNat : Nat) : Int))
  | _ => none

/-- `f64_of_u32` and `f64_of_int` of a natural number (R69, R83): exact below 2^53. -/
def Val.ofNat (n : Nat) : Val := .round false n 0 false

/-- The constants of R76 and R77. -/
def Val.zero : Val := .ofBits 0x0000000000000000
def Val.half : Val := .ofBits 0x3FE0000000000000
def Val.one : Val := .ofBits 0x3FF0000000000000
def Val.two : Val := .ofBits 0x4000000000000000
def Val.negTwo : Val := .ofBits 0xC000000000000000
def Val.scale : Val := .ofBits 0x3DF0000000000000
def Val.pi : Val := .ofBits 0x400921FB54442D18
def Val.twoPi : Val := Val.mul .two .pi

/-- The f64 a decimal literal `(-1)^neg * m * 10^e` of the assembler stands for (30_encoding.md R56):
the binary64 value nearest to it, ties to even. Converted outside the block (40_numerics.md R84). DESIGN
CHOICE, unsafe, where R56 says no more: a result of zero (the literal is zero, or nearest to zero) keeps
the minus sign, and a literal beyond the finite range is an infinity of its sign
(notes/assumptions/22.md). -/
def Val.literal (neg : Bool) (m : Nat) (e : Int) : Val :=
  if m = 0 then .fin neg 0 (-1074)
  else .roundQuot neg (m * 10 ^ e.toNat) (10 ^ (-e).toNat) 0

end Sys2Proof
end

