-- ==== Sys2Proof/Syntax.lean ====
section
/-! DEFINITION. The commands, as syntax: the 288-bit command of 30_encoding.md R47, the thirteen
instructions of spec/opcode_table.json, the registers RD can name, and the pseudo-commands of R57. -/

namespace Sys2Proof

/-- A command as the port carries it (30_encoding.md R45, R47): the command word and four operand words. -/
structure Command where
  cw : U32
  a : W64
  b : W64
  c : W64
  d : W64
deriving DecidableEq, Repr

/-- The thirteen commands (30_encoding.md R52), each with the operand words its format uses (R48), whole.
An integer operand keeps its must-be-zero part: a non-zero part is a fault the command itself raises
(60_exceptions.md R153), not a decoding error. Unused words are not carried (R49). -/
inductive Instr where
  | seed (x y z w : W64)
  | nextU32
  | nextUniform
  | fillUniform (n : W64)
  | nextNormal
  | fillNormal (n : W64)
  | step (x : W64)
  | numPoles (fmin fknee fsample : W64)
  | plan (slope fmin fknee fsample : W64)
  | plan1 (fmin fknee fsample : W64)
  | nextColored
  | fillColored (n : W64)
  | rd (idx : W64)
deriving DecidableEq, Repr

/-- The five fields of a stage (10_state.md R18). -/
inductive StageField where
  | c0 | c1 | d0 | x1 | y1
deriving DecidableEq, Repr

/-- What an RD index can name (the register map of 10_state.md R28). -/
inductive Reg where
  | s (i : Fin 4)
  | gstat
  | gval
  | nstage
  | err
  | nmax
  | stage (k : Nat) (f : StageField)
deriving DecidableEq, Repr

/-- Why a command word selects no command (30_encoding.md R53); both reasons end in `E_ILLEGAL_CMD`. -/
inductive DecodeReject where
  /-- `CW[31:8]` is not zero. -/
  | reservedBits
  /-- `CW[7:0]` is none of the thirteen opcodes. -/
  | unknownOpcode
deriving DecidableEq, Repr

/-- The pseudo-commands of 30_encoding.md R57. -/
inductive Pseudo where
  | seedDef
  | rdS (i : Fin 4)
  | rdGstat
  | rdGval
  | rdNstage
  | rdErr
  | rdNmax
  | rdSt (k : Nat) (f : StageField)
deriving DecidableEq, Repr

end Sys2Proof
end

