-- ==== Sys2Proof/WellFormed.lean ====
section
/-! DEFINITION. Operand formats (30_encoding.md R48): which operand words have must-be-zero bits. A term
that fails a check is still a command; executing it raises `E_BAD_OPERAND` (60_exceptions.md R153). -/

namespace Sys2Proof

/-- A u32 operand: bits 63:32 are zero (formats S and C). -/
def fitsU32 (v : W64) : Bool := v.extractLsb' 32 32 == 0

/-- A register index: bits 63:16 are zero (format R). -/
def fitsU16 (v : W64) : Bool := v.extractLsb' 16 48 == 0

/-- The operands have the format R48 gives the command. -/
def Instr.wellFormed : Instr → Bool
  | .seed x y z w => fitsU32 x && fitsU32 y && fitsU32 z && fitsU32 w
  | .nextU32 => true
  | .nextUniform => true
  | .fillUniform n => fitsU32 n
  | .nextNormal => true
  | .fillNormal n => fitsU32 n
  | .step _ => true
  | .numPoles _ _ _ => true
  | .plan _ _ _ _ => true
  | .plan1 _ _ _ => true
  | .nextColored => true
  | .fillColored n => fitsU32 n
  | .rd idx => fitsU16 idx

end Sys2Proof
end

