-- ==== Sys2Proof/Decode.lean ====
section
/-! DEFINITION. Decoding and encoding of commands (30_encoding.md R47, R48, R49, R52, R53), the layout of
the 288 bits, and the assembler's pseudo-commands (R57). -/

namespace Sys2Proof

/-- `CW` with a zero `RSV` field: the `match` value of 30_encoding.md R52 is the opcode itself. -/
def cwOf (opc : BitVec 8) : U32 := opc.setWidth 32

/-- The opcode of each command (30_encoding.md R52). -/
def Instr.opcode : Instr → BitVec 8
  | .seed _ _ _ _ => 0x10
  | .nextU32 => 0x11
  | .nextUniform => 0x12
  | .fillUniform _ => 0x13
  | .nextNormal => 0x20
  | .fillNormal _ => 0x21
  | .step _ => 0x30
  | .numPoles _ _ _ => 0x40
  | .plan _ _ _ _ => 0x41
  | .plan1 _ _ _ => 0x42
  | .nextColored => 0x50
  | .fillColored _ => 0x51
  | .rd _ => 0x60

/-- The command an opcode selects, with the operand words its format uses (30_encoding.md R48, R52);
operand words the format does not use are not looked at (R49). -/
def decodeOpcode (opc : Nat) (c : Command) : Option Instr :=
  match opc with
  | 0x10 => some (.seed c.a c.b c.c c.d)
  | 0x11 => some .nextU32
  | 0x12 => some .nextUniform
  | 0x13 => some (.fillUniform c.a)
  | 0x20 => some .nextNormal
  | 0x21 => some (.fillNormal c.a)
  | 0x30 => some (.step c.a)
  | 0x40 => some (.numPoles c.a c.b c.c)
  | 0x41 => some (.plan c.a c.b c.c c.d)
  | 0x42 => some (.plan1 c.a c.b c.c)
  | 0x50 => some .nextColored
  | 0x51 => some (.fillColored c.a)
  | 0x60 => some (.rd c.a)
  | _ => none

/-- The decoder, total on all commands (30_encoding.md R53): it reads `RSV` = CW[31:8] and `OPC` = CW[7:0]
and nothing else to know the command (R47). -/
def decode (c : Command) : Except DecodeReject Instr :=
  if c.cw.extractLsb' 8 24 = 0 then
    match decodeOpcode (c.cw.extractLsb' 0 8).toNat c with
    | some i => .ok i
    | none => .error .unknownOpcode
  else .error .reservedBits

/-- The encoder (30_encoding.md R48, R52, R56): unused operand words are 0. -/
def encode (i : Instr) : Command :=
  let cw := cwOf i.opcode
  match i with
  | .seed x y z w => ⟨cw, x, y, z, w⟩
  | .nextU32 => ⟨cw, 0, 0, 0, 0⟩
  | .nextUniform => ⟨cw, 0, 0, 0, 0⟩
  | .fillUniform n => ⟨cw, n, 0, 0, 0⟩
  | .nextNormal => ⟨cw, 0, 0, 0, 0⟩
  | .fillNormal n => ⟨cw, n, 0, 0, 0⟩
  | .step x => ⟨cw, x, 0, 0, 0⟩
  | .numPoles fmin fknee fsample => ⟨cw, fmin, fknee, fsample, 0⟩
  | .plan slope fmin fknee fsample => ⟨cw, slope, fmin, fknee, fsample⟩
  | .plan1 fmin fknee fsample => ⟨cw, fmin, fknee, fsample, 0⟩
  | .nextColored => ⟨cw, 0, 0, 0, 0⟩
  | .fillColored n => ⟨cw, n, 0, 0, 0⟩
  | .rd idx => ⟨cw, idx, 0, 0, 0⟩

/-- The command as one 288-bit number: CW in bits 31:0, then A, B, C, D (30_encoding.md R47 gives the
words and no order among them; notes/assumptions/15.md, DESIGN CHOICE). -/
def Command.toBits (c : Command) : BitVec 288 := c.d ++ c.c ++ c.b ++ c.a ++ c.cw

/-- The command whose low `nbits` bits are those of `w` and whose other bits are 0, in the layout of
`Command.toBits`. -/
def tableCommand (nbits w : Nat) : Command :=
  let v := w % 2 ^ nbits
  ⟨.ofNat 32 v, .ofNat 64 (v >>> 32), .ofNat 64 (v >>> 96), .ofNat 64 (v >>> 160),
    .ofNat 64 (v >>> 224)⟩

/-- The instruction the decoder reads from an opcode-table word. -/
def decodeTableWord (nbits w : Nat) : Option Instr :=
  match decode (tableCommand nbits w) with
  | .ok i => some i
  | .error _ => none

/-- The offset of a field inside its stage's group of eight indices (10_state.md R28). -/
def StageField.offset : StageField → Nat
  | .c0 => 0
  | .c1 => 1
  | .d0 => 2
  | .x1 => 3
  | .y1 => 4

/-- The RD index that names a register (10_state.md R28). -/
def Reg.index : Reg → Nat
  | .s i => i.val
  | .gstat => 0x0004
  | .gval => 0x0005
  | .nstage => 0x0006
  | .err => 0x0007
  | .nmax => 0x0008
  | .stage k f => 0x0100 + 8 * k + f.offset

/-- The one command a pseudo-command expands to (30_encoding.md R57). -/
def Pseudo.expand : Pseudo → Instr
  | .seedDef => .seed 0 0 0 0
  | .rdS i => .rd (.ofNat 64 (Reg.s i).index)
  | .rdGstat => .rd (.ofNat 64 Reg.gstat.index)
  | .rdGval => .rd (.ofNat 64 Reg.gval.index)
  | .rdNstage => .rd (.ofNat 64 Reg.nstage.index)
  | .rdErr => .rd (.ofNat 64 Reg.err.index)
  | .rdNmax => .rd (.ofNat 64 Reg.nmax.index)
  | .rdSt k f => .rd (.ofNat 64 (Reg.stage k f).index)

end Sys2Proof
end

