-- ==== Sys2Proof/Machine/State.lean ====
section
/-! DEFINITION. The state of one block instance (10_state.md R10), its two ports (30_encoding.md R45), and
the state after reset (10_state.md R170). -/

namespace Sys2Proof.Machine

/-- The status codes of a DONE beat (60_exceptions.md R150). Exactly eight: codes 8 to 15 are never
produced (93_implementation_defined.md U4). -/
inductive Status where
  | ok
  | illegalCmd
  | badOperand
  | notSeeded
  | noCascade
  | invalidConfig
  | npoles
  | noValue
deriving DecidableEq, Repr

/-- DATA or DONE (30_encoding.md R50). -/
inductive BeatKind where
  | data
  | done
deriving DecidableEq, Repr

/-- One transfer on the response port (30_encoding.md R50). -/
structure Beat where
  kind : BeatKind
  status : Status
  data : W64
deriving DecidableEq, Repr

/-- `S[0..3]` with `SEEDED` as its tag (10_state.md R11, R12, R22): while `SEEDED` = 0 the four words hold
no value and none is represented. -/
inductive Generator where
  | unseeded
  | seeded (w : Words)
deriving DecidableEq, Repr

/-- `GFULL` and `GVAL` as one tagged value (10_state.md R14, R15, R16). -/
inductive Cache where
  | empty
  | full (d : W64)
deriving DecidableEq, Repr

/-- One entry of the stage file (10_state.md R18): five f64 bit patterns. -/
structure Stage where
  c0 : W64
  c1 : W64
  d0 : W64
  x1 : W64
  y1 : W64
deriving DecidableEq, Repr

/-- Points of the instance's parameter functions that are known as data, argument first; the first entry
for an argument counts (notes/assumptions/3.md). The model's own, not the spec's. -/
structure Known where
  ln : List (W64 × W64)
  log10 : List (W64 × W64)
  pow10 : List (W64 × W64)
deriving DecidableEq, Repr

/-- What the host drives on `rst` and `rsp_ready` at one rising clock edge (30_encoding.md R45). -/
structure Pins where
  rst : Bool
  rspReady : Bool
deriving DecidableEq, Repr

/-- The state of one block instance. -/
structure State where
  /-- `S[0..3]` and `SEEDED` (R11, R12). -/
  gen : Generator
  /-- `GFULL` and `GVAL` (R14 to R16). -/
  cache : Cache
  /-- `ST[0] .. ST[NSTAGE-1]`; its length is `NSTAGE` (R17, R18). -/
  stages : List Stage
  /-- `ERR` (R21). -/
  err : BitVec 8
  /-- `NMAX - 1`, constant (00_scope.md R6). -/
  nmaxCode : BitVec 12
  /-- A command is in a rejection loop that never accepts (70_reset_and_hazards.md R181). -/
  hung : Bool
  /-- Beats of the command in progress that the host has not taken, in order (30_encoding.md R58). -/
  rsp : List Beat
  /-- The model's own: the commands the host presents, in order; the head is on the command port (R46). -/
  cmdq : List Command
  /-- The model's own: the host's pins at the coming clock edges; none listed reads as `rst` = 0 and
  `rsp_ready` = 1. -/
  pins : List Pins
  /-- The model's own: the beats the host has taken, oldest first (20_memory.md R44). -/
  sent : List Beat
  /-- The model's own: known points of the parameter functions (notes/assumptions/3.md). -/
  known : Known
  /-- The model's own: how many free NaN patterns have been drawn (notes/assumptions/4.md). -/
  draws : Nat
deriving DecidableEq, Repr

/-- The three pieces of state that draws and filters advance (70_reset_and_hazards.md R174), for a seeded
block, with the model's count of NaN draws. -/
structure Source where
  words : Words
  cache : Cache
  stages : List Stage
  draws : Nat
deriving DecidableEq, Repr

/-- Reasons for which the machine stops. There is none: every fault of the spec is an outcome the block
reports before it takes the next command (60_exceptions.md R151), so it is a next state. Safe. -/
inductive Fault where
deriving DecidableEq, Repr

/-- Reasons for which an instruction has no meaning in the model. -/
inductive Refusal where
  /-- Raised by an arm of `exec` for an instruction that is not modelled; no arm raises it. Safe. -/
  | notModelled (mnemonic : String)
deriving DecidableEq, Repr

/-- The state after reset (10_state.md R170): nothing seeded, cached or planned, `ERR` = 0, both ports
idle. `nmaxCode` is the uninterpreted parameter; the model's own fields are as notes/assumptions/2.md,
3.md, 4.md, 8.md and 10.md say. -/
def State.reset : State where
  gen := .unseeded
  cache := .empty
  stages := []
  err := 0
  nmaxCode := Config.nmaxCode
  hung := false
  rsp := []
  cmdq := []
  pins := []
  sent := []
  known := ⟨[], [], []⟩
  draws := 0

end Sys2Proof.Machine
end

