-- ==== Sys2Proof/Machine/Flags.lean ====
section
/-! DEFINITION. Status codes, the `ERR` bits and the flag word `GSTAT` (60_exceptions.md R150, 10_state.md
R12, R14, R21, R28). -/

namespace Sys2Proof.Machine

/-- The 4-bit code of a status (60_exceptions.md R150). -/
def Status.code : Status → BitVec 4
  | .ok => 0
  | .illegalCmd => 1
  | .badOperand => 2
  | .notSeeded => 3
  | .noCascade => 4
  | .invalidConfig => 5
  | .npoles => 6
  | .noValue => 7

/-- The `ERR` bit a command that ends with this status sets: bit `code`, and none for `OK`, so that bit 0
is never set (10_state.md R21). -/
def Status.errBit : Status → BitVec 8
  | .ok => 0
  | st => 1 <<< st.code.toNat

/-- `SEEDED` (10_state.md R12). -/
def State.seededBit (s : State) : BitVec 1 :=
  match s.gen with
  | .unseeded => 0
  | .seeded _ => 1

/-- `GFULL` (10_state.md R14). -/
def State.gfullBit (s : State) : BitVec 1 :=
  match s.cache with
  | .empty => 0
  | .full _ => 1

/-- `GSTAT` (10_state.md R28): bit 0 is `SEEDED`, bit 1 is `GFULL`, bits 63:2 are 0. -/
def State.gstat (s : State) : W64 := (s.gfullBit ++ s.seededBit).setWidth 64

/-- `NSTAGE` (10_state.md R17). -/
def State.nstage (s : State) : Nat := s.stages.length

/-- `NMAX` (00_scope.md R6), an integer from 1 to 4096. -/
def State.nmax (s : State) : Nat := s.nmaxCode.toNat + 1

/-- The wires of a beat (30_encoding.md R45, R50): `rsp_kind`, `rsp_status`, `rsp_data`. -/
def Beat.wires (b : Beat) : BitVec 1 × BitVec 4 × W64 :=
  (match b.kind with
    | .data => 0
    | .done => 1, b.status.code, b.data)

end Sys2Proof.Machine
end

