-- ==== Sys2Proof/Machine/Operands.lean ====
section
/-! DEFINITION. Operand forms (30_encoding.md R48, R54): the u32 fields of formats S and C, the register
index of format R and the register map it is looked up in (10_state.md R28). An f64 field is the whole
word and needs no check. -/

namespace Sys2Proof.Machine

/-- A u32 operand (formats S and C): the low 32 bits, if the high 32 are zero (R48). -/
def u32Operand (v : W64) : Option U32 :=
  if fitsU32 v then some (v.extractLsb' 0 32) else none

/-- A register index (format R): the low 16 bits, if the high 48 are zero (R48). -/
def indexOperand (v : W64) : Option (BitVec 16) :=
  if fitsU16 v then some (v.extractLsb' 0 16) else none

/-- The field at an offset of a stage's group of eight indices; 5, 6 and 7 are unmapped (R28). -/
def fieldAt : Nat → Option StageField
  | 0 => some .c0
  | 1 => some .c1
  | 2 => some .d0
  | 3 => some .x1
  | 4 => some .y1
  | _ => none

/-- The register map (10_state.md R28, 46_system.md R146): what an index names, and `none` where it is
unmapped, which depends on `NMAX` alone. -/
def regAt (nmax : Nat) (idx : BitVec 16) : Option Reg :=
  if h : idx.toNat < 4 then some (.s ⟨idx.toNat, h⟩)
  else if idx.toNat = 0x0004 then some .gstat
  else if idx.toNat = 0x0005 then some .gval
  else if idx.toNat = 0x0006 then some .nstage
  else if idx.toNat = 0x0007 then some .err
  else if idx.toNat = 0x0008 then some .nmax
  else if idx.toNat < 0x0100 then none
  else if (idx.toNat - 0x0100) / 8 < nmax then
    (fieldAt ((idx.toNat - 0x0100) % 8)).map (.stage ((idx.toNat - 0x0100) / 8))
  else none

end Sys2Proof.Machine
end

