-- ==== Sys2Proof/Machine/Ops.lean ====
section
/-! DEFINITION. The operations every command shares: answering on the response port (30_encoding.md R50,
R51), faulting (60_exceptions.md R151), the two state preconditions (R155, R156), reading a register
(10_state.md R28), the parameter functions (40_numerics.md R79 to R81) and reset (70_reset_and_hazards.md
R171). There is no return from a fault (60_exceptions.md R161). -/

namespace Sys2Proof.Machine

/-- A DATA beat (30_encoding.md R50). -/
def dataBeat (d : W64) : Beat := ⟨.data, .ok, d⟩

/-- The DONE beat of a command that completed (30_encoding.md R51). -/
def okBeat (d : W64) : Beat := ⟨.done, .ok, d⟩

/-- The DONE beat of a command that faulted: `data` = 0 (30_encoding.md R51). -/
def faultBeat (st : Status) : Beat := ⟨.done, st, 0⟩

/-- The command produces these beats, in this order (20_memory.md R44). -/
def State.emit (s : State) (bs : List Beat) : State := { s with rsp := s.rsp ++ bs }

/-- `done(d)` (00_scope.md R8). -/
def State.finish (s : State) (d : W64) : State := s.emit [okBeat d]

/-- Taking a fault (60_exceptions.md R151): only `ERR` changes, in which the code's bit is set, and one
DONE beat carries the code. -/
def State.raise (s : State) (st : Status) : State :=
  { s with err := s.err ||| st.errBit }.emit [faultBeat st]

/-- A command whose rejection loop never accepts (70_reset_and_hazards.md R181): the samples before the
loop leave as DATA beats, no DONE beat follows, and nothing the command wrote is seen (10_state.md R26).
DESIGN CHOICE, unsafe: `draws` stays too, so that after a reset NaN results take again the free patterns of
those beats (notes/assumptions/23.md). -/
def State.hang (s : State) (ys : List W64) : State :=
  { s with hung := true }.emit (ys.map dataBeat)

/-- The draw state of a seeded block. -/
def State.source (s : State) (w : Words) : Source := ⟨w, s.cache, s.stages, s.draws⟩

/-- The state after draws and filter steps. -/
def State.withSource (s : State) (c : Source) : State :=
  { s with gen := .seeded c.words, cache := c.cache, stages := c.stages, draws := c.draws }

/-- `E_NOT_SEEDED` while `SEEDED` = 0 (60_exceptions.md R155). -/
def State.ifSeeded (s : State) (k : Words → State) : State :=
  match s.gen with
  | .unseeded => s.raise .notSeeded
  | .seeded w => k w

/-- `E_NO_CASCADE` while `NSTAGE` = 0 (60_exceptions.md R156). -/
def State.ifPlanned (s : State) (k : State) : State :=
  if s.stages = [] then s.raise .noCascade else k

/-- A command that returns one sample (00_scope.md R8, `done`). -/
def State.answerOne (s : State) : Option (W64 × Source) → State
  | none => s.hang []
  | some (y, c) => (s.withSource c).finish y

/-- A FILL command that returns samples `ys` and a final draw state, none if the loop hung
(30_encoding.md R50, R51). -/
def State.answerFill (s : State) (n : U32) : List W64 × Option Source → State
  | (ys, none) => s.hang ys
  | (ys, some c) => (s.withSource c).emit (ys.map dataBeat ++ [okBeat (n.setWidth 64)])

/-- `n` calls of one sampler in a row, in generation order (41_uniform.md R92, 42_gaussian.md R103,
45_colored.md R137): the samples before a call that never returns, and the final draw state. -/
def fill (f : Source → Option (W64 × Source)) : Nat → Source → List W64 × Option Source
  | 0, c => ([], some c)
  | n + 1, c =>
    match f c with
    | none => ([], none)
    | some (y, c') =>
      let r := fill f n c'
      (y :: r.1, r.2)

/-- `S[i]` (10_state.md R11). -/
def wordAt (w : Words) (i : Fin 4) : U32 :=
  match i with
  | 0 => w.s0
  | 1 => w.s1
  | 2 => w.s2
  | 3 => w.s3

/-- A field of a stage (10_state.md R18). -/
def fieldOf (st : Stage) : StageField → W64
  | .c0 => st.c0
  | .c1 => st.c1
  | .d0 => st.d0
  | .x1 => st.x1
  | .y1 => st.y1

/-- The value RD returns for a register, `none` where the register holds no value (10_state.md R22,
R28). -/
def State.readReg (s : State) : Reg → Option W64
  | .s i =>
    match s.gen with
    | .unseeded => none
    | .seeded w => some ((wordAt w i).setWidth 64)
  | .gstat => some s.gstat
  | .gval =>
    match s.cache with
    | .empty => none
    | .full d => some d
  | .nstage => some (.ofNat 64 s.nstage)
  | .err => some (s.err.setWidth 64)
  | .nmax => some (.ofNat 64 s.nmax)
  | .stage k f => (s.stages[k]?).map (fieldOf · f)

/-- `fn_ln` of this instance (40_numerics.md R79). -/
def fnLn (k : Known) (x : W64) : W64 := (k.ln.lookup x).getD (Config.fnLn x)

/-- `fn_log10` of this instance (40_numerics.md R80). -/
def fnLog10 (k : Known) (x : W64) : W64 := (k.log10.lookup x).getD (Config.fnLog10 x)

/-- `fn_pow10` of this instance (40_numerics.md R81). -/
def fnPow10 (k : Known) (x : W64) : W64 := (k.pow10.lookup x).getD (Config.fnPow10 x)

/-- Reset (70_reset_and_hazards.md R171, R172): the registers take the state of 10_state.md R170 and a
command in progress is dropped with the beats the host has not taken. What belongs to the host or is
constant stays (notes/assumptions/12.md). -/
def State.resetBlock (s : State) : State :=
  { s with gen := .unseeded, cache := .empty, stages := [], err := 0, hung := false, rsp := [] }

end Sys2Proof.Machine
end

