-- ==== Sys2Proof/Machine/Uniform.lean ====
section
/-! DEFINITION. Unit 1, the uniform generator (41_uniform.md): SEED, NEXT_U32, NEXT_UNIFORM,
FILL_UNIFORM. -/

namespace Sys2Proof.Machine

/-- One seed component: zero is replaced by its default (R85). -/
def substZero (dflt v : U32) : U32 := if v = 0 then dflt else v

/-- `seed_subst` (R85). -/
def seedSubst (x y z w : U32) : Words :=
  ⟨substZero 123456789 x, substZero 362436069 y, substZero 521288629 z, substZero 88675123 w⟩

/-- One repetition of the scramble: `v ^= v<<13; v ^= v>>17; v ^= v<<5` (R86). -/
def twiddleRound (v : U32) : U32 :=
  let v1 := v ^^^ (v <<< 13)
  let v2 := v1 ^^^ (v1 >>> 17)
  v2 ^^^ (v2 <<< 5)

/-- `twiddle`: nine repetitions (R86). -/
def twiddle (v : U32) : U32 := twiddleRound^[9] v

/-- The core update `next_u32()` (R88); the value returned is the new `s3`. -/
def nextWords (w : Words) : Words :=
  let t := w.s0 ^^^ (w.s0 <<< 11)
  ⟨w.s1, w.s2, w.s3, (w.s3 ^^^ (w.s3 >>> 19)) ^^^ (t ^^^ (t >>> 8))⟩

/-- The u32 a draw from this state returns (R88). -/
def drawn (w : Words) : U32 := (nextWords w).s3

/-- `burn_in()`: sixteen updates (R87). -/
def burnIn (w : Words) : Words := nextWords^[16] w

/-- The generator state SEED leaves (R89). -/
def seedWords (x y z w : U32) : Words :=
  let v := seedSubst x y z w
  burnIn ⟨twiddle v.s0, twiddle v.s1, twiddle v.s2, twiddle v.s3⟩

/-- SEED's state writes (R89): the generator, `SEEDED`, and the cache made Empty. -/
def State.seeded (s : State) (w : Words) : State := { s with gen := .seeded w, cache := .empty }

/-- SEED (R89). -/
def execSeed (x y z w : W64) (s : State) : Host.Outcome State Fault Refusal :=
  .next (match u32Operand x, u32Operand y, u32Operand z, u32Operand w with
    | some x, some y, some z, some w => (s.seeded (seedWords x y z w)).finish 0
    | _, _, _, _ => s.raise .badOperand)

/-- The sampler of NEXT_U32: one draw, zero-extended (R90). -/
def sampleU32 (c : Source) : Option (W64 × Source) :=
  some ((drawn c.words).setWidth 64, { c with words := nextWords c.words })

/-- NEXT_U32 (R90). -/
def execNextU32 (s : State) : Host.Outcome State Fault Refusal :=
  .next (s.ifSeeded fun w => s.answerOne (sampleU32 (s.source w)))

/-- `f64_of_u32(r) * 2^-32` (R91). -/
def uniformOf (r : U32) : Val := (Val.ofNat r.toNat).mul .scale

/-- `next_uniform()` (R91). -/
def sampleUniform (c : Source) : Option (W64 × Source) :=
  some ((uniformOf (drawn c.words)).bits (nanAt c.draws), { c with words := nextWords c.words })

/-- NEXT_UNIFORM (R91). -/
def execNextUniform (s : State) : Host.Outcome State Fault Refusal :=
  .next (s.ifSeeded fun w => s.answerOne (sampleUniform (s.source w)))

/-- FILL_UNIFORM (R92). -/
def execFillUniform (n : W64) (s : State) : Host.Outcome State Fault Refusal :=
  .next (match u32Operand n with
    | none => s.raise .badOperand
    | some n => s.ifSeeded fun w => s.answerFill n (fill sampleUniform n.toNat (s.source w)))

end Sys2Proof.Machine
end

