-- ==== Sys2Proof/Machine/Gaussian.lean ====
section
/-! DEFINITION. Unit 2, the Box-Muller transform (42_gaussian.md): NEXT_NORMAL, FILL_NORMAL. -/

namespace Sys2Proof.Machine

/-- `(2.0 * u) - 1.0` for the uniform `u` of a draw (R101). -/
def symmetric (r : U32) : Val := (Val.two.mul (uniformOf r)).sub .one

/-- `v1` of the trial that starts from this state: the first draw (R101). -/
def trialV1 (w : Words) : Val := symmetric (drawn w)

/-- `v2` of the trial: the second draw (R101). -/
def trialV2 (w : Words) : Val := symmetric (drawn (nextWords w))

/-- `rsq` of the trial (R101). -/
def trialRsq (w : Words) : Val :=
  ((trialV1 w).mul (trialV1 w)).add ((trialV2 w).mul (trialV2 w))

/-- The rejection test, on the rounded `rsq` (R101): `(rsq >= 1.0) or (rsq == 0.0)`. -/
def rejected (w : Words) : Bool := Val.one.le (trialRsq w) || (trialRsq w).eq .zero

/-- The state after a trial: both draws are always made (R101). -/
def afterTrial (w : Words) : Words := nextWords (nextWords w)

/-- The state at which the first accepted trial starts, looking at `n` trials. -/
def firstAccepted : Nat → Words → Option Words
  | 0, _ => none
  | n + 1, w => if rejected w then firstAccepted n (afterTrial w) else some w

/-- How many trials `nextNormal` looks at: as many as there are generator states, so that if none of them
is accepted the states have come back to one already seen and no trial ever is (R105,
70_reset_and_hazards.md R181; notes/assumptions/6.md, DEDUCED). The block itself has no bound. -/
def trialBound : Nat := 2 ^ 128

/-- `fac` of an accepted trial (R101): `sqrt(((-2.0) * fn_ln(rsq)) / rsq)`. -/
def trialFac (k : Known) (n : Nat) (w : Words) : Val :=
  ((Val.negTwo.mul (Val.ofBits (fnLn k ((trialRsq w).bits (nanAt n))))).div (trialRsq w)).sqrt

/-- What an accepted trial writes and returns (R101): `v1 * fac` is cached, `v2 * fac` returned. -/
def acceptTrial (k : Known) (c : Source) (w : Words) : W64 × Source :=
  (((trialV2 w).mul (trialFac k c.draws w)).bits (nanAt (c.draws + 1)),
    { c with
      words := afterTrial w
      cache := .full (((trialV1 w).mul (trialFac k c.draws w)).bits (nanAt c.draws))
      draws := c.draws + 2 })

/-- `next_normal()` (R100, R101); `none` if no trial is ever accepted. -/
def sampleNormal (k : Known) (c : Source) : Option (W64 × Source) :=
  match c.cache with
  | .full d => some (d, { c with cache := .empty })
  | .empty => (firstAccepted trialBound c.words).map (acceptTrial k c)

/-- NEXT_NORMAL (R102). -/
def execNextNormal (s : State) : Host.Outcome State Fault Refusal :=
  .next (s.ifSeeded fun w => s.answerOne (sampleNormal s.known (s.source w)))

/-- FILL_NORMAL (R103). -/
def execFillNormal (n : W64) (s : State) : Host.Outcome State Fault Refusal :=
  .next (match u32Operand n with
    | none => s.raise .badOperand
    | some n =>
      s.ifSeeded fun w => s.answerFill n (fill (sampleNormal s.known) n.toNat (s.source w)))

end Sys2Proof.Machine
end

