-- ==== Sys2Proof/Machine/Pole.lean ====
section
/-! DEFINITION. Unit 3, the single-pole IIR section (43_single_pole.md): `init_pole`, `stage_step`,
`cascade_step`, STEP. -/

namespace Sys2Proof.Machine

/-- `w = (PI * f) / f_sample` (R110). -/
def poleW (f fsample : Val) : Val := (Val.pi.mul f).div fsample

/-- The coefficients of R110 as values: `c0 = (1+w1)/den`, `c1 = -((1-w1)/den)`, `d0 = (1-w0)/den`,
`den = 1+w0`. -/
def poleC0 (w0 w1 : Val) : Val := (Val.one.add w1).div (Val.one.add w0)
def poleC1 (w0 w1 : Val) : Val := ((Val.one.sub w1).div (Val.one.add w0)).neg
def poleD0 (w0 : Val) : Val := (Val.one.sub w0).div (Val.one.add w0)

/-- `init_pole(f_low, f_high, f_sample)` (R110), with NaN draws `n`, `n+1`, `n+2`. -/
def initPole (n : Nat) (flow fhigh fsample : Val) : Stage where
  c0 := (poleC0 (poleW flow fsample) (poleW fhigh fsample)).bits (nanAt n)
  c1 := (poleC1 (poleW flow fsample) (poleW fhigh fsample)).bits (nanAt (n + 1))
  d0 := (poleD0 (poleW flow fsample)).bits (nanAt (n + 2))
  x1 := 0
  y1 := 0

/-- `y = ((c0*x) + (c1*x1)) + (d0*y1)` (R112), each operator rounded once (40_numerics.md R72). -/
def stageOut (st : Stage) (x : W64) : Val :=
  (((Val.ofBits st.c0).mul (.ofBits x)).add ((Val.ofBits st.c1).mul (.ofBits st.x1))).add
    ((Val.ofBits st.d0).mul (.ofBits st.y1))

/-- `stage_step` (R112), with NaN draw `n`: the output and the stage afterwards. -/
def stageStep (n : Nat) (st : Stage) (x : W64) : W64 × Stage :=
  ((stageOut st x).bits (nanAt n), { st with x1 := x, y1 := (stageOut st x).bits (nanAt n) })

/-- `cascade_step` (R114) over the stages in index order, with NaN draws from `n` on. -/
def cascadeStep : Nat → W64 → List Stage → W64 × List Stage
  | _, v, [] => (v, [])
  | n, v, st :: rest =>
    let r := stageStep n st v
    let t := cascadeStep (n + 1) r.1 rest
    (t.1, r.2 :: t.2)

/-- The state after the cascade has stepped on a sample: delays (R114) and the count of NaN draws. -/
def State.stepped (s : State) (x : W64) : State :=
  { s with stages := (cascadeStep s.draws x s.stages).2, draws := s.draws + s.stages.length }

/-- STEP (R113). -/
def execStep (x : W64) (s : State) : Host.Outcome State Fault Refusal :=
  .next (s.ifPlanned ((s.stepped x).finish (cascadeStep s.draws x s.stages).1))

end Sys2Proof.Machine
end

