-- ==== Sys2Proof/Machine/Colored.lean ====
section
/-! DEFINITION. Unit 5, the colored-noise pipeline (45_colored.md): NEXT_COLORED, FILL_COLORED. -/

namespace Sys2Proof.Machine

/-- The cascade stepped on a sample, in the draw state (43_single_pole.md R114). -/
def filterSample (g : W64) (c : Source) : W64 × Source :=
  ((cascadeStep c.draws g c.stages).1,
    { c with stages := (cascadeStep c.draws g c.stages).2, draws := c.draws + c.stages.length })

/-- `next_colored()` (R135): the deviate is drawn completely, then filtered. -/
def sampleColored (k : Known) (c : Source) : Option (W64 × Source) :=
  (sampleNormal k c).map fun r => filterSample r.1 r.2

/-- NEXT_COLORED (R136). -/
def execNextColored (s : State) : Host.Outcome State Fault Refusal :=
  .next (s.ifSeeded fun w => s.ifPlanned (s.answerOne (sampleColored s.known (s.source w))))

/-- FILL_COLORED (R137). -/
def execFillColored (n : W64) (s : State) : Host.Outcome State Fault Refusal :=
  .next (match u32Operand n with
    | none => s.raise .badOperand
    | some n =>
      s.ifSeeded fun w =>
        s.ifPlanned (s.answerFill n (fill (sampleColored s.known) n.toNat (s.source w))))

end Sys2Proof.Machine
end

