-- ==== Sys2Proof/Machine/Planner.lean ====
section
/-! DEFINITION. Unit 4, the pole-cascade planner (44_planner.md): NUM_POLES, PLAN, PLAN1. -/

namespace Sys2Proof.Machine

/-- `cfg_valid` (R120). -/
def cfgValid (fmin fknee fsample : Val) : Bool :=
  fmin.isFinite && fknee.isFinite && fsample.isFinite
    && Val.zero.lt fmin
    && fmin.lt fknee
    && (Val.two.mul fknee).lt fsample
    && (Val.twoPi.mul fknee).isFinite

/-- `log10` of `(2.0*PI)*f` (R121); `n` would be the NaN draw of a NaN argument, which `cfg_valid`
rules out. -/
def logOmega (k : Known) (n : Nat) (f : Val) : Val :=
  .ofBits (fnLog10 k ((Val.twoPi.mul f).bits (nanAt n)))

/-- `v = ((wmax - wmin) * 2.0) + fn_log10(fsample)` (R121). -/
def poleSum (k : Known) (fmin fknee : Val) (n : Nat) (fsample : W64) : Val :=
  (((logOmega k n fknee).sub (logOmega k n fmin)).mul .two).add (.ofBits (fnLog10 k fsample))

/-- `nproc` of `num_poles` (R121), `none` where `v` is not finite (R121 raises `E_INVALID_CONFIG`). -/
def numPoles (k : Known) (n : Nat) (fmin fknee fsample : W64) : Option Int :=
  (poleSum k (.ofBits fmin) (.ofBits fknee) n fsample).floorInt

/-- A signed 32-bit integer (R122). -/
def fitsI32 (n : Int) : Bool := decide (-2 ^ 31 ≤ n) && decide (n ≤ 2 ^ 31 - 1)

/-- NUM_POLES (R122). -/
def execNumPoles (fmin fknee fsample : W64) (s : State) : Host.Outcome State Fault Refusal :=
  .next (if cfgValid (.ofBits fmin) (.ofBits fknee) (.ofBits fsample) then
      match numPoles s.known s.draws fmin fknee fsample with
      | none => s.raise .invalidConfig
      | some n => if fitsI32 n then s.finish (.ofInt 64 n) else s.raise .npoles
    else s.raise .invalidConfig)

/-- `fn_pow10(p) / (2.0*PI)` (R124), with NaN draw `n` for a NaN `p`. -/
def cornerAt (k : Known) (n : Nat) (p : Val) : Val :=
  (Val.ofBits (fnPow10 k (p.bits (nanAt n)))).div .twoPi

/-- The stage of exponents `p` and `z` (R124), with five NaN draws from `n` on. -/
def planStage (k : Known) (n : Nat) (p z fsample : Val) : Stage :=
  initPole (n + 2) (cornerAt k n p) (cornerAt k (n + 1) z) fsample

/-- The loop of `plan` (R124): `r` more stages from exponent `p`, which advances by `dp` in each pass;
`z = p + h`. -/
def planLoop (k : Known) (dp h fsample : Val) : Nat → Nat → Val → List Stage
  | _, 0, _ => []
  | n, r + 1, p =>
    planStage k n p (p.add h) fsample :: planLoop k dp h fsample (n + 5) r (p.add dp)

/-- `dp = (wmax - wmin) / f64_of_int(nproc)` (R124). -/
def planDp (wmin wmax : Val) (nproc : Nat) : Val := (wmax.sub wmin).div (.ofNat nproc)

/-- `h = (0.5 * a) * dp` (R124). -/
def planH (a dp : Val) : Val := (Val.half.mul a).mul dp

/-- The first `p = wmin + ((0.5 * (1.0 - (0.5 * a))) * dp)` (R124). -/
def planP0 (a dp wmin : Val) : Val :=
  wmin.add ((Val.half.mul (Val.one.sub (Val.half.mul a))).mul dp)

/-- `plan` (R124): the stages in creation order. -/
def planStages (k : Known) (n : Nat) (slope fsample wmin wmax : Val) (nproc : Nat) : List Stage :=
  let a := slope.neg
  let dp := planDp wmin wmax nproc
  planLoop k dp (planH a dp) fsample n nproc (planP0 a dp wmin)

/-- The cascade is replaced whole (R125, R130); `used` NaN draws were made. -/
def State.planned (s : State) (stages : List Stage) (used : Nat) : State :=
  { s with stages := stages, draws := s.draws + used }

/-- PLAN (R125). -/
def execPlan (slope fmin fknee fsample : W64) (s : State) : Host.Outcome State Fault Refusal :=
  .next (if (Val.ofBits slope).isFinite
        && cfgValid (.ofBits fmin) (.ofBits fknee) (.ofBits fsample) then
      match numPoles s.known s.draws fmin fknee fsample with
      | none => s.raise .invalidConfig
      | some n =>
        if 1 ≤ n ∧ n ≤ s.nmax then
          (s.planned
            (planStages s.known s.draws (.ofBits slope) (.ofBits fsample)
              (logOmega s.known s.draws (.ofBits fmin)) (logOmega s.known s.draws (.ofBits fknee))
              n.toNat)
            (5 * n.toNat)).finish (.ofInt 64 n)
        else s.raise .npoles
    else s.raise .invalidConfig)

/-- PLAN1 (R128): one stage, `init_pole` of the operands as given. -/
def execPlan1 (fmin fknee fsample : W64) (s : State) : Host.Outcome State Fault Refusal :=
  .next (if cfgValid (.ofBits fmin) (.ofBits fknee) (.ofBits fsample) then
      (s.planned [initPole s.draws (.ofBits fmin) (.ofBits fknee) (.ofBits fsample)] 3).finish 1
    else s.raise .invalidConfig)

end Sys2Proof.Machine
end

