-- ==== Sys2Proof/Machine/System.lean ====
section
/-! DEFINITION. The system command RD (46_system.md). -/

namespace Sys2Proof.Machine

/-- RD (R145, R146): an unmapped index is `E_BAD_OPERAND`, a mapped register that holds no value
`E_NO_VALUE`; reading changes nothing. -/
def execRd (idx : W64) (s : State) : Host.Outcome State Fault Refusal :=
  .next (match (indexOperand idx).bind (regAt s.nmax) with
    | none => s.raise .badOperand
    | some r =>
      match s.readReg r with
      | none => s.raise .noValue
      | some v => s.finish v)

end Sys2Proof.Machine
end

