-- ==== Sys2Proof/Machine/Dispatch.lean ====
section
/-! DEFINITION. One arm per command: the meaning it calls. -/

namespace Sys2Proof.Machine

def exec (i : Instr) (s : State) : Host.Outcome State Fault Refusal :=
  match i with
  | .seed x y z w => Sys2Proof.Machine.execSeed x y z w s
  | .nextU32 => Sys2Proof.Machine.execNextU32 s
  | .nextUniform => Sys2Proof.Machine.execNextUniform s
  | .fillUniform n => Sys2Proof.Machine.execFillUniform n s
  | .nextNormal => Sys2Proof.Machine.execNextNormal s
  | .fillNormal n => Sys2Proof.Machine.execFillNormal n s
  | .step x => Sys2Proof.Machine.execStep x s
  | .numPoles fmin fknee fsample => Sys2Proof.Machine.execNumPoles fmin fknee fsample s
  | .plan slope fmin fknee fsample => Sys2Proof.Machine.execPlan slope fmin fknee fsample s
  | .plan1 fmin fknee fsample => Sys2Proof.Machine.execPlan1 fmin fknee fsample s
  | .nextColored => Sys2Proof.Machine.execNextColored s
  | .fillColored n => Sys2Proof.Machine.execFillColored n s
  | .rd idx => Sys2Proof.Machine.execRd idx s

end Sys2Proof.Machine
end

