-- ==== Sys2Proof/Machine/Port.lean ====
section
/-! DEFINITION. One rising clock edge (30_encoding.md R45, R46, R58; 70_reset_and_hazards.md R171, R172):
reset, the response handshake, and the acceptance of a command. -/

namespace Sys2Proof.Machine

/-- The pins at the coming edge; `rst` = 0 and `rsp_ready` = 1 where the host says nothing more
(notes/assumptions/8.md). -/
def State.pinsNow (s : State) : Pins := s.pins.headD ⟨false, true⟩

/-- `rsp_valid` (R58): a beat waits, and `rst` is 0 (70_reset_and_hazards.md R171). -/
def State.rspValid (s : State) : Bool := !s.pinsNow.rst && !s.rsp.isEmpty

/-- `cmd_ready` (R46): no command is in the block, and `rst` is 0 (70_reset_and_hazards.md R171). -/
def State.cmdReady (s : State) : Bool := !s.pinsNow.rst && s.rsp.isEmpty && !s.hung

/-- The accepted command is decoded first (60_exceptions.md R158); an illegal one faults with
`E_ILLEGAL_CMD` whatever its operand words (R152). -/
def accept (c : Command) (s : State) : Host.Outcome State Fault Refusal :=
  match decode c with
  | .ok i => exec i s
  | .error _ => .next (s.raise .illegalCmd)

/-- The edge is over for the pins: the next edge has the next pins. -/
def State.tick (s : State) : State := { s with pins := s.pins.tail }

/-- The host takes the oldest beat (R58). -/
def State.take (s : State) : State :=
  match s.rsp with
  | [] => s
  | b :: rest => { s with rsp := rest, sent := s.sent ++ [b] }

/-- The command on the port, if the block takes it at this edge, and idling otherwise: nothing happens
except in response to a command (R46, 60_exceptions.md R160). -/
def acceptNext (s : State) : Host.Outcome State Fault Refusal :=
  match s.cmdq with
  | [] => .next s
  | c :: rest => accept c { s with cmdq := rest }

/-- One rising edge of `clk`. -/
def clockEdge (s : State) : Host.Outcome State Fault Refusal :=
  if s.pinsNow.rst then .next s.tick.resetBlock
  else if s.rspValid then .next (if s.pinsNow.rspReady then s.tick.take else s.tick)
  else if s.cmdReady then acceptNext s.tick
  else .next s.tick

/-- A command put first on the command port of an idle block, so that the next edge accepts it. -/
def State.present (s : State) (c : Command) : State :=
  { s with cmdq := c :: s.cmdq, pins := [], rsp := [], hung := false }

end Sys2Proof.Machine
end

