-- ==== Sys2Proof/Machine/Step.lean ====
section
/-! DEFINITION. One step of the machine: one rising edge of `clk` (notes/assumptions/7.md). -/

namespace Sys2Proof.Machine

/-- One step: `clockEdge`. -/
def step (s : State) : Host.Outcome State Fault Refusal := clockEdge s

/-- The block takes its commands from the command port and holds no program (10_state.md R13): the command
of the table word is put first on the port and the ports are idle otherwise (notes/assumptions/9.md). -/
def State.withFetchWord (s : State) (nbits w : Nat) : State := s.present (tableCommand nbits w)

end Sys2Proof.Machine
end

