-- ==== Sys2Proof/Safety.lean ====
section
/-! DEFINITION. What claims about the block are said in: the invariant of its states, the shape of a
response, the operand words a command uses, and the exact values of binary64 data. -/

namespace Sys2Proof

/-- How many operand words, counted from A, the command's format uses (30_encoding.md R48). -/
def Instr.usedWords : Instr → Nat
  | .seed _ _ _ _ => 4
  | .nextU32 => 0
  | .nextUniform => 0
  | .fillUniform _ => 1
  | .nextNormal => 0
  | .fillNormal _ => 1
  | .step _ => 1
  | .numPoles _ _ _ => 3
  | .plan _ _ _ _ => 4
  | .plan1 _ _ _ => 3
  | .nextColored => 0
  | .fillColored _ => 1
  | .rd _ => 1

/-- The command with every operand word after the first `n` made zero. -/
def Command.firstWords (n : Nat) (c : Command) : Command :=
  ⟨c.cw, if 0 < n then c.a else 0, if 1 < n then c.b else 0, if 2 < n then c.c else 0,
    if 3 < n then c.d else 0⟩

/-- The thirteen `match` values of 30_encoding.md R52. -/
def matchValues : List U32 :=
  [0x10, 0x11, 0x12, 0x13, 0x20, 0x21, 0x30, 0x40, 0x41, 0x42, 0x50, 0x51, 0x60]

/-- The exact value of a finite datum; 0 for an infinity or a NaN, which claims exclude. -/
def Val.toRat : Val → ℚ
  | .fin neg m e => (if neg then -(m : ℚ) else (m : ℚ)) * (2 : ℚ) ^ e
  | _ => 0

/-- A finite datum that binary64 can represent (40_numerics.md R70). -/
def Val.inFormat : Val → Prop
  | .fin _ m e => m < 2 ^ 53 ∧ -1074 ≤ e ∧ e ≤ 971
  | _ => False

/-- `r` is `x` rounded to binary64, ties to even, for an `x` that does not overflow (40_numerics.md R71):
no datum of the format is nearer, and a datum as near that is not equal means that the significand of `r`
is even. -/
def Val.nearest (x : ℝ) (r : Val) : Prop :=
  r.inFormat ∧ ∀ d : Val, d.inFormat →
    |(r.toRat : ℝ) - x| ≤ |(d.toRat : ℝ) - x| ∧
      (|(r.toRat : ℝ) - x| = |(d.toRat : ℝ) - x| → d.toRat ≠ r.toRat →
        ∃ s m e, r = .fin s m e ∧ m % 2 = 0)

/-- Where overflow begins: the largest finite datum, `(2^53 - 1) * 2^971`, plus half a unit in its last
place, `2^970`. At exactly this value the tie goes to the even neighbour, which is out of the format.
PRESUMED, unsafe: 40_numerics.md R71 does not say where overflow begins, IEEE 754 does
(notes/assumptions/17.md). -/
def Val.overflowBound : ℝ := (2 ^ 53 - 1) * 2 ^ 971 + 2 ^ 970

/-- `r` is the exact result `x` rounded once to binary64, ties to even; overflow gives an infinity of the
right sign (40_numerics.md R71). Where overflow begins is PRESUMED (`Val.overflowBound`). -/
def Val.rounds (x : ℝ) (r : Val) : Prop :=
  (|x| < Val.overflowBound → Val.nearest x r) ∧
    (Val.overflowBound ≤ |x| → ∃ neg : Bool, r = .inf neg ∧ (neg = true ↔ x < 0))

/-- LN-NEG (40_numerics.md R79): for every finite r with 0 < r < 1 the result is finite and at most 0. -/
def LnNeg (f : W64 → W64) : Prop :=
  ∀ r : W64, Val.zero.lt (.ofBits r) = true → (Val.ofBits r).lt .one = true →
    (Val.ofBits (f r)).isFinite = true ∧ (Val.ofBits (f r)).le .zero = true

/-- LOG10-FIN (40_numerics.md R80): for every finite x > 0 the result is finite. -/
def Log10Fin (f : W64 → W64) : Prop :=
  ∀ x : W64, (Val.ofBits x).isFinite = true → Val.zero.lt (.ofBits x) = true →
    (Val.ofBits (f x)).isFinite = true

/-- What LOG10-MONO (40_numerics.md R80) says of two arguments: for finite 0 < x ≤ y the results are in the
same order. -/
def Log10MonoAt (f : W64 → W64) (x y : W64) : Prop :=
  Val.zero.lt (.ofBits x) = true → (Val.ofBits x).le (.ofBits y) = true →
    (Val.ofBits y).isFinite = true → (Val.ofBits (f x)).le (.ofBits (f y)) = true

/-- LOG10-MONO (40_numerics.md R80). -/
def Log10Mono (f : W64 → W64) : Prop := ∀ x y : W64, Log10MonoAt f x y

/-- POW10-POS (40_numerics.md R81): for every finite p the result is no NaN and at least 0. -/
def Pow10Pos (f : W64 → W64) : Prop :=
  ∀ p : W64, (Val.ofBits p).isFinite = true → Val.zero.le (.ofBits (f p)) = true

namespace Machine

/-- The next `n` of one command in a row, each run on the state the one before left; none if one of them
stops the machine. -/
def repeatExec (i : Instr) : Nat → State → Option State
  | 0, s => some s
  | n + 1, s =>
    match exec i s with
    | .next t => repeatExec i n t
    | _ => none

/-- `n` steps of the machine; none if one of them stops it. -/
def runSteps : Nat → State → Option State
  | 0, s => some s
  | n + 1, s =>
    match step s with
    | .next t => runSteps n t
    | _ => none

/-- How many times a command that completes calls `next_normal` (42_gaussian.md R107). -/
def normalCalls : Instr → Nat
  | .nextNormal => 1
  | .nextColored => 1
  | .fillNormal n => n.toNat
  | .fillColored n => n.toNat
  | _ => 0

/-- How many DATA beats a command that completes sends (30_encoding.md R50). -/
def dataBeats : Instr → Nat
  | .fillUniform n => n.toNat
  | .fillNormal n => n.toNat
  | .fillColored n => n.toNat
  | _ => 0

/-- The cache is Full. -/
def Cache.isFull : Cache → Bool
  | .empty => false
  | .full _ => true

/-- The three coefficients of a stage. -/
def Stage.coeffs (st : Stage) : W64 × W64 × W64 := (st.c0, st.c1, st.d0)

/-- The delay values of neighbouring stages agree: the output of one is the input of the next
(43_single_pole.md R114). -/
def chained : List Stage → Prop
  | a :: b :: rest => a.y1 = b.x1 ∧ chained (b :: rest)
  | _ => True

/-- What waits on the response port is the end of one command's response (30_encoding.md R50, R51): DATA
beats with status `OK`, then one DONE beat, whose datum is 0 if its status is not `OK`. -/
def responseTail (bs : List Beat) : Prop :=
  ∃ (ys : List W64) (st : Status) (d : W64),
    bs = ys.map dataBeat ++ [⟨.done, st, d⟩] ∧ (st = .ok ∨ d = 0)

/-- What every state of the block satisfies. -/
structure State.Inv (s : State) : Prop where
  /-- 10_state.md R23: while `SEEDED` = 1 the four words are not all zero. -/
  words_nonzero : ∀ w, s.gen = .seeded w → w ≠ ⟨0, 0, 0, 0⟩
  /-- 42_gaussian.md R102: while `SEEDED` = 0 the cache is Empty. -/
  unseeded_empty : s.gen = .unseeded → s.cache = .empty
  /-- 10_state.md R17: `NSTAGE` is at most `NMAX`. -/
  capacity : s.stages.length ≤ s.nmax
  /-- 10_state.md R21: bit 0 of `ERR` is always 0. -/
  err_bit0 : s.err.getLsbD 0 = false
  /-- 43_single_pole.md R114: each stage's output is the next stage's input. -/
  delays_chained : chained s.stages
  /-- 30_encoding.md R50: the port is idle or holds the end of one response. -/
  response : s.hung = false → s.rsp = [] ∨ responseTail s.rsp
  /-- 70_reset_and_hazards.md R181: a command that never completes sends no DONE beat. -/
  hung_no_done : s.hung = true → ∃ ys : List W64, s.rsp = ys.map dataBeat

end Machine

end Sys2Proof
end

