-- ==== Sys2Proof/Certificates/Slice0/Obligations.lean ====
section
/-! DEFINITION. The statements for the provers. A record update `{ s with … }` on the right of an equation
says the frame: every field it does not name is unchanged. -/

open Sys2Proof Sys2Proof.Machine

/-! ### Encoding -/

/-- 30_encoding.md R52: the thirteen `match` words, with zero operand words, decode to their commands, and
three of the illegal words of 60_exceptions.md R152 to none. -/
def Obligations.TableWordsDecode : Prop :=
  decodeTableWord 32 0x00000010 = some (.seed 0 0 0 0) ∧
  decodeTableWord 32 0x00000011 = some .nextU32 ∧
  decodeTableWord 32 0x00000012 = some .nextUniform ∧
  decodeTableWord 32 0x00000013 = some (.fillUniform 0) ∧
  decodeTableWord 32 0x00000020 = some .nextNormal ∧
  decodeTableWord 32 0x00000021 = some (.fillNormal 0) ∧
  decodeTableWord 32 0x00000030 = some (.step 0) ∧
  decodeTableWord 32 0x00000040 = some (.numPoles 0 0 0) ∧
  decodeTableWord 32 0x00000041 = some (.plan 0 0 0 0) ∧
  decodeTableWord 32 0x00000042 = some (.plan1 0 0 0) ∧
  decodeTableWord 32 0x00000050 = some .nextColored ∧
  decodeTableWord 32 0x00000051 = some (.fillColored 0) ∧
  decodeTableWord 32 0x00000060 = some (.rd 0) ∧
  decodeTableWord 32 0x00000000 = none ∧
  decodeTableWord 32 0x00000110 = none ∧
  decodeTableWord 32 0x80000010 = none

/-- Decoding the 288 bits of an encoded command gives the command back, every operand word at every value.
The order of the words in the 288 bits is the model's (notes/assumptions/15.md). -/
def Obligations.DecodeOfEncodedBits : Prop :=
  ∀ i : Instr, decodeTableWord 288 (encode i).toBits.toNat = some i

/-- 30_encoding.md R47, R48, R49, R52: a command decodes to an instruction exactly when its command word
and the operand words the format uses are those of the instruction's encoding. -/
def Obligations.DecodeReadsExactlyTheUsedWords : Prop :=
  ∀ (c : Command) (i : Instr), decode c = .ok i ↔ c.firstWords i.usedWords = encode i

/-- 60_exceptions.md R152: a command word other than the thirteen faults with `E_ILLEGAL_CMD`, whatever
the operand words and whatever the state. -/
def Obligations.IllegalWordsFault : Prop :=
  ∀ c : Command, ((∃ r, decode c = .error r) ↔ c.cw ∉ matchValues) ∧
    (c.cw ∉ matchValues → ∀ s : State,
      accept c s = .next { s with err := s.err ||| 0x02, rsp := s.rsp ++ [⟨.done, .illegalCmd, 0⟩] })

/-- 30_encoding.md R49: operand words the format does not use have no effect on the outcome. -/
def Obligations.UnusedWordsAreIgnored : Prop :=
  ∀ (c c' : Command) (i : Instr) (s : State), decode c = .ok i →
    c'.firstWords i.usedWords = c.firstWords i.usedWords → accept c' s = accept c s

/-! ### Ports and reset -/

/-- 20_memory.md R38, 30_encoding.md R46: when the block can accept a command and the host presents one
that decodes to `i`, the step is `exec i` on the state without that command. One step is one clock edge
and the host's commands are a list: the model's choice (notes/assumptions/7.md, 8.md). -/
def Obligations.StepRunsTheDecodedCommand : Prop :=
  ∀ (s : State) (c : Command) (rest : List Command) (i : Instr), s.cmdReady = true →
    s.cmdq = c :: rest → decode c = .ok i →
    step s = exec i { s with cmdq := rest, pins := s.pins.tail }

/-- 70_reset_and_hazards.md R172: at an edge with `rst` = 1 the block goes, from every state (a command in
progress and a hung command included), to the reset state of its registers; the beats not taken are never
sent. That the host's own lists and the constants stay is the model's (notes/assumptions/12.md). -/
def Obligations.ResetFromEveryState : Prop :=
  ∀ s : State, s.pinsNow.rst = true →
    s.cmdReady = false ∧ s.rspValid = false ∧
    step s = .next { s with
      pins := s.pins.tail, gen := .unseeded, cache := .empty, stages := [], err := 0, hung := false,
      rsp := [] } ∧
    ∀ t, step s = .next t → t.pinsNow.rst = false → t.cmdReady = true

/-- 10_state.md R170: what reset leaves. -/
def Obligations.ResetStateValues : Prop :=
  State.reset.seededBit = 0 ∧ (∀ i, State.reset.readReg (.s i) = none) ∧
  State.reset.gfullBit = 0 ∧ State.reset.readReg .gval = none ∧
  State.reset.nstage = 0 ∧ (∀ k f, State.reset.readReg (.stage k f) = none) ∧
  State.reset.err = 0x00

/-- 30_encoding.md R58: a waiting beat goes to the host at an edge with `rsp_ready` = 1 and stays as it is
at an edge with `rsp_ready` = 0. `sent` is the model's record (notes/assumptions/10.md). -/
def Obligations.BeatIsTakenOrHeld : Prop :=
  ∀ (s : State) (b : Beat) (bs : List Beat), s.pinsNow.rst = false → s.rsp = b :: bs →
    s.rspValid = true ∧
    (s.pinsNow.rspReady = true →
      step s = .next { s with rsp := bs, sent := s.sent ++ [b], pins := s.pins.tail }) ∧
    (s.pinsNow.rspReady = false → step s = .next { s with pins := s.pins.tail })

/-- 30_encoding.md R46: a presented command waits while the block cannot accept one, and is not lost; an
accepting edge takes exactly one. The presented commands are the model's list `cmdq`
(notes/assumptions/8.md). -/
def Obligations.PresentedCommandWaits : Prop :=
  ∀ s t : State, step s = .next t →
    (s.cmdReady = false → t.cmdq = s.cmdq) ∧
    (s.cmdReady = true → s.rsp = [] ∧ s.hung = false ∧ t.cmdq = s.cmdq.tail)

/-- 20_memory.md R44: without a reset, what has left and what waits only grows at the end, and only when a
command is accepted; over any number of steps the beats taken stay as they were, in order. `sent` is the
model's record (notes/assumptions/10.md). -/
def Obligations.BeatsLeaveInOrder : Prop :=
  (∀ s t : State, s.pinsNow.rst = false → step s = .next t →
    ∃ bs, t.sent ++ t.rsp = (s.sent ++ s.rsp) ++ bs ∧
      (bs ≠ [] → s.cmdReady = true ∧ s.cmdq ≠ [])) ∧
  ∀ (n : Nat) (s t : State), runSteps n s = some t → s.sent <+: t.sent

/-- No step of the model ends in a fault or a refusal, however many are taken: a fault of the spec
(60_exceptions.md R151, notes/assumptions/14.md) and a command that never completes
(70_reset_and_hazards.md R181, notes/assumptions/6.md) are next states. It does not say that every command
completes. -/
def Obligations.NoStepFaultsOrRefuses : Prop :=
  ∀ (n : Nat) (s : State), ∃ t, runSteps n s = some t

/-! ### Faults -/

/-- 60_exceptions.md R151: a command that ends with a status other than `OK` changes `ERR`, in which the
code's bit is set, and sends one DONE beat with data 0; nothing else. -/
def Obligations.FaultChangesOnlyErr : Prop :=
  ∀ (i : Instr) (s t : State) (bs : List Beat) (st : Status) (d : W64), exec i s = .next t →
    t.rsp = s.rsp ++ bs ++ [⟨.done, st, d⟩] → st ≠ .ok →
    t = { s with err := s.err ||| (1 <<< st.code.toNat), rsp := s.rsp ++ [⟨.done, st, 0⟩] }

/-- 30_encoding.md R50: a command that completes or faults ends with exactly one DONE beat; a FILL that
does not fault sends exactly `n` DATA beats before it, with status `OK`; a command that faults, and a
command that is no FILL, sends none. The other case is the hang of 70_reset_and_hazards.md R181, without a
DONE beat and with at most the DATA beats of the command, and only the four commands that call
`next_normal` can meet it. -/
def Obligations.ResponseShape : Prop :=
  ∀ (i : Instr) (s t : State), s.hung = false → exec i s = .next t →
    (t.hung = true ∧
      (i = .nextNormal ∨ i = .nextColored ∨ (∃ n, i = .fillNormal n) ∨ ∃ n, i = .fillColored n) ∧
      ∃ ys : List W64, t.rsp = s.rsp ++ ys.map (⟨.data, .ok, ·⟩) ∧ ys.length ≤ dataBeats i) ∨
    (t.hung = false ∧ ∃ (ys : List W64) (st : Status) (d : W64),
      t.rsp = s.rsp ++ ys.map (⟨.data, .ok, ·⟩) ++ [⟨.done, st, d⟩] ∧
      ys.length = if st = .ok then dataBeats i else 0)

/-- 10_state.md R21: `ERR` is sticky. A command that ends with status code k ≠ 0 sets bit k, no step but
reset clears a bit, bit 0 stays 0, and RD reads it. -/
def Obligations.ErrIsSticky : Prop :=
  (∀ (c : Command) (s t : State) (bs : List Beat) (st : Status) (d : W64), accept c s = .next t →
    t.rsp = s.rsp ++ bs ++ [⟨.done, st, d⟩] → st ≠ .ok →
    t.err.getLsbD st.code.toNat = true) ∧
  (∀ s t : State, step s = .next t → s.pinsNow.rst = false →
    ∀ k, s.err.getLsbD k = true → t.err.getLsbD k = true) ∧
  (∀ s t : State, step s = .next t → s.pinsNow.rst = true → t.err = 0) ∧
  (∀ s t : State, step s = .next t → s.err.getLsbD 0 = false → t.err.getLsbD 0 = false) ∧
  ∀ s : State, exec (.rd 0x0007) s =
    .next { s with rsp := s.rsp ++ [⟨.done, .ok, s.err.setWidth 64⟩] }

/-- 60_exceptions.md R155: a command that draws from the generator faults with `E_NOT_SEEDED` while
`SEEDED` = 0; FILL commands also when n = 0. -/
def Obligations.DrawsNeedASeed : Prop :=
  ∀ s : State, s.gen = .unseeded →
    let t : State := { s with err := s.err ||| 0x08, rsp := s.rsp ++ [⟨.done, .notSeeded, 0⟩] }
    exec .nextU32 s = .next t ∧ exec .nextUniform s = .next t ∧ exec .nextNormal s = .next t ∧
    exec .nextColored s = .next t ∧
    ∀ n : W64, n.toNat < 2 ^ 32 →
      exec (.fillUniform n) s = .next t ∧ exec (.fillNormal n) s = .next t ∧
      exec (.fillColored n) s = .next t

/-- 60_exceptions.md R156: STEP, and for a seeded block NEXT_COLORED and FILL_COLORED, fault with
`E_NO_CASCADE` while `NSTAGE` = 0; FILL_COLORED also when n = 0. -/
def Obligations.FiltersNeedACascade : Prop :=
  ∀ s : State, s.stages = [] →
    let t : State := { s with err := s.err ||| 0x10, rsp := s.rsp ++ [⟨.done, .noCascade, 0⟩] }
    (∀ x : W64, exec (.step x) s = .next t) ∧
    ∀ w : Words, s.gen = .seeded w →
      exec .nextColored s = .next t ∧
      ∀ n : W64, n.toNat < 2 ^ 32 → exec (.fillColored n) s = .next t

/-- 60_exceptions.md R153: `E_BAD_OPERAND` for non-zero must-be-zero bits and for an unmapped RD index,
and for nothing else: f64 operands and unused words never cause it. -/
def Obligations.BadOperandFaults : Prop :=
  (∀ (i : Instr) (s : State), i.wellFormed = false →
    exec i s = .next { s with
      err := s.err ||| 0x04, rsp := s.rsp ++ [⟨.done, .badOperand, 0⟩] }) ∧
  (∀ (idx : W64) (s : State), idx.toNat < 2 ^ 16 →
    (9 ≤ idx.toNat ∧ idx.toNat < 0x100 ∨
      0x100 ≤ idx.toNat ∧ (5 ≤ (idx.toNat - 0x100) % 8 ∨ s.nmax ≤ (idx.toNat - 0x100) / 8)) →
    exec (.rd idx) s = .next { s with
      err := s.err ||| 0x04, rsp := s.rsp ++ [⟨.done, .badOperand, 0⟩] }) ∧
  ∀ (i : Instr) (s t : State), i.wellFormed = true →
    (∀ idx, i = .rd idx → idx.toNat < 9 ∨
      0x100 ≤ idx.toNat ∧ (idx.toNat - 0x100) % 8 < 5 ∧ (idx.toNat - 0x100) / 8 < s.nmax) →
    exec i s = .next t → t.rsp ≠ s.rsp ++ [⟨.done, .badOperand, 0⟩]

/-- 60_exceptions.md R157: the causes of `E_INVALID_CONFIG` and of `E_NPOLES`. -/
def Obligations.PlannerFaults : Prop :=
  ∀ (s : State) (slope fmin fknee fsample : W64),
    let bad : State := { s with err := s.err ||| 0x20, rsp := s.rsp ++ [⟨.done, .invalidConfig, 0⟩] }
    let many : State := { s with err := s.err ||| 0x40, rsp := s.rsp ++ [⟨.done, .npoles, 0⟩] }
    let valid := cfgValid (.ofBits fmin) (.ofBits fknee) (.ofBits fsample)
    let count := numPoles s.known s.draws fmin fknee fsample
    (valid = false → exec (.numPoles fmin fknee fsample) s = .next bad ∧
      exec (.plan slope fmin fknee fsample) s = .next bad ∧
      exec (.plan1 fmin fknee fsample) s = .next bad) ∧
    ((Val.ofBits slope).isFinite = false → exec (.plan slope fmin fknee fsample) s = .next bad) ∧
    (valid = true → count = none → exec (.numPoles fmin fknee fsample) s = .next bad ∧
      exec (.plan slope fmin fknee fsample) s = .next bad) ∧
    ∀ n : Int, valid = true → count = some n →
      ((Val.ofBits slope).isFinite = true → n < 1 ∨ (s.nmax : Int) < n →
        exec (.plan slope fmin fknee fsample) s = .next many) ∧
      (n < -2 ^ 31 ∨ 2 ^ 31 - 1 < n → exec (.numPoles fmin fknee fsample) s = .next many)

/-- 44_planner.md R120: `cfg_valid` is true exactly when the three frequencies are finite, `0 < fmin`,
`fmin < fknee` and `2 * fknee < fsample` as numbers, and `(2.0*PI) * fknee` is finite. -/
def Obligations.CfgValidOrdersTheFrequencies : Prop :=
  ∀ fmin fknee fsample : W64,
    cfgValid (.ofBits fmin) (.ofBits fknee) (.ofBits fsample) = true ↔
    (Val.ofBits fmin).isFinite = true ∧ (Val.ofBits fknee).isFinite = true ∧
    (Val.ofBits fsample).isFinite = true ∧
    0 < (Val.ofBits fmin).toRat ∧ (Val.ofBits fmin).toRat < (Val.ofBits fknee).toRat ∧
    2 * (Val.ofBits fknee).toRat < (Val.ofBits fsample).toRat ∧
    ((Val.ofBits 0x401921FB54442D18).mul (.ofBits fknee)).isFinite = true

/-! ### Unit 1 -/

/-- 41_uniform.md R85: each zero seed component is replaced by its own default, a non-zero one is kept. -/
def Obligations.SeedSubstitution : Prop :=
  ∀ x y z w : U32,
    seedSubst x y z w = ⟨if x = 0 then 123456789 else x, if y = 0 then 362436069 else y,
      if z = 0 then 521288629 else z, if w = 0 then 88675123 else w⟩ ∧
    (seedSubst x y z w).s0 ≠ 0 ∧ (seedSubst x y z w).s1 ≠ 0 ∧ (seedSubst x y z w).s2 ≠ 0 ∧
    (seedSubst x y z w).s3 ≠ 0

/-- 41_uniform.md R86: `twiddle` is nine rounds of three xor-shifts, each on the value the one before
left, with the worked values for 1. That it maps 0 to 0, is a bijection, and keeps a non-zero word non-zero
is an inference the rule marks as its own ("[derived: from 40_numerics.md rule R66]"). -/
def Obligations.TwiddleIsABijection : Prop :=
  (∀ v : U32, twiddle v = (fun v : U32 =>
    let a := v ^^^ (v <<< 13)
    let b := a ^^^ (a >>> 17)
    b ^^^ (b <<< 5))^[9] v) ∧
  Function.Bijective twiddle ∧ twiddle 0 = 0 ∧ (∀ v, v ≠ 0 → twiddle v ≠ 0) ∧
  (List.range 9).map (fun k => twiddleRound^[k + 1] 1) =
    [0x00042021, 0x04080601, 0x9DCCA8C5, 0x1255994F, 0x8EF917D1, 0x2C6F5BD0, 0x25B2331A, 0x19F91CB2,
      0x77877125]

/-- 41_uniform.md R88: the core update, the value it returns, and the worked updates. That it is a bijection
on the 128-bit state and sends the all-zero state, and only it, to the all-zero state is an inference the
rule marks as its own ("[derived: the new state gives back S[1], S[2], S[3] directly, ...]"). -/
def Obligations.UpdateIsABijection : Prop :=
  (∀ a b c d : U32, nextWords ⟨a, b, c, d⟩ =
    ⟨b, c, d, (d ^^^ (d >>> 19)) ^^^ ((a ^^^ (a <<< 11)) ^^^ ((a ^^^ (a <<< 11)) >>> 8))⟩) ∧
  (∀ w : Words, drawn w = (nextWords w).s3) ∧
  Function.Bijective nextWords ∧
  (∀ w : Words, nextWords w = ⟨0, 0, 0, 0⟩ ↔ w = ⟨0, 0, 0, 0⟩) ∧
  nextWords ⟨1, 2, 3, 4⟩ = ⟨2, 3, 4, 0x0000080D⟩ ∧
  nextWords ⟨2, 3, 4, 0x0000080D⟩ = ⟨3, 4, 0x0000080D, 0x0000181F⟩

/-- 41_uniform.md R89, R87: SEED substitutes, scrambles each word, burns in sixteen updates, sets
`SEEDED`, empties the cache, and leaves everything else, the stage file included. -/
def Obligations.SeedCompletes : Prop :=
  ∀ (x y z w : W64) (s : State), x.toNat < 2 ^ 32 → y.toNat < 2 ^ 32 → z.toNat < 2 ^ 32 →
    w.toNat < 2 ^ 32 →
    let v := seedSubst (x.setWidth 32) (y.setWidth 32) (z.setWidth 32) (w.setWidth 32)
    exec (.seed x y z w) s = .next { s with
      gen := .seeded (nextWords^[16] ⟨twiddle v.s0, twiddle v.s1, twiddle v.s2, twiddle v.s3⟩)
      cache := .empty
      rsp := s.rsp ++ [⟨.done, .ok, 0⟩] }

/-- 41_uniform.md R89: two operand tuples give the same state only through the zero substitution. -/
def Obligations.SeedIsInjective : Prop :=
  ∀ x y z w x' y' z' w' : U32,
    seedWords x y z w = seedWords x' y' z' w' ↔ seedSubst x y z w = seedSubst x' y' z' w'

/-- 10_state.md R24: SEED replaces the generator state and empties the cache in one step, and nothing of
either survives from before: two states that differ in them agree in them afterwards. -/
def Obligations.SeedForgetsTheOldStream : Prop :=
  ∀ (x y z w : W64) (s s' t t' : State), (Instr.seed x y z w).wellFormed = true →
    exec (.seed x y z w) s = .next t → exec (.seed x y z w) s' = .next t' →
    t.gen = t'.gen ∧ t.cache = .empty ∧ t'.cache = .empty ∧ t.gen ≠ .unseeded

/-- 41_uniform.md R90: NEXT_U32 returns the new word, zero-extended, and advances the generator alone;
unseeded it faults. -/
def Obligations.NextU32Completes : Prop :=
  ∀ s : State,
    (∀ w : Words, s.gen = .seeded w → exec .nextU32 s = .next { s with
      gen := .seeded (nextWords w)
      rsp := s.rsp ++ [⟨.done, .ok, (nextWords w).s3.setWidth 64⟩] }) ∧
    (s.gen = .unseeded → exec .nextU32 s = .next { s with
      err := s.err ||| 0x08, rsp := s.rsp ++ [⟨.done, .notSeeded, 0⟩] })

/-- 41_uniform.md R91: NEXT_UNIFORM returns the f64 that is r / 2^32 exactly, r the u32 drawn, with a zero
sign bit, and advances the generator by one draw alone. -/
def Obligations.NextUniformCompletes : Prop :=
  ∀ (s : State) (w : Words), s.gen = .seeded w →
    ∃ u : W64, exec .nextUniform s = .next { s with
        gen := .seeded (nextWords w), rsp := s.rsp ++ [⟨.done, .ok, u⟩] } ∧
      (Val.ofBits u).isFinite = true ∧ u.getLsbD 63 = false ∧
      (Val.ofBits u).toRat = ((nextWords w).s3.toNat : ℚ) / 2 ^ 32

/-- 41_uniform.md R95: every value NEXT_UNIFORM or FILL_UNIFORM returns is a finite f64 in [0, 1) with a
zero sign bit. -/
def Obligations.UniformRange : Prop :=
  ∀ (i : Instr) (s t : State), (i = .nextUniform ∨ ∃ n, i = .fillUniform n) →
    exec i s = .next t → ∀ b ∈ t.rsp.drop s.rsp.length,
    b.status = .ok → (b.kind = .data ∨ i = .nextUniform) →
    Val.zero.le (.ofBits b.data) = true ∧ (Val.ofBits b.data).lt .one = true ∧
    (Val.ofBits b.data).isFinite = true ∧ b.data.getLsbD 63 = false

/-- 41_uniform.md R92: FILL_UNIFORM sends the uniforms of its n draws in generation order, then DONE with
n, and advances the generator by exactly n draws; the k-th datum is the one NEXT_UNIFORM gives for that
draw. -/
def Obligations.FillUniformCompletes : Prop :=
  ∀ (n : W64) (s : State) (w : Words), n.toNat < 2 ^ 32 → s.gen = .seeded w →
    exec (.fillUniform n) s = .next { s with
      gen := .seeded (nextWords^[n.toNat] w)
      rsp := s.rsp ++ (List.range n.toNat).map (fun k =>
          ⟨.data, .ok, (uniformOf (nextWords^[k + 1] w).s3).bits (nanAt s.draws)⟩) ++
        [⟨.done, .ok, n⟩] }

/-! ### Unit 2 -/

/-- 42_gaussian.md R102: with the cache Full, NEXT_NORMAL returns the cached deviate unchanged, empties
the cache and draws nothing. -/
def Obligations.NextNormalFromAFullCache : Prop :=
  ∀ (s : State) (w : Words) (d : W64), s.gen = .seeded w → s.cache = .full d →
    exec .nextNormal s = .next { s with
      cache := .empty, rsp := s.rsp ++ [⟨.done, .ok, d⟩] }

/-- 42_gaussian.md R101: with the cache Empty, the trials before the first accepted one are discarded with
their two draws each, and the accepted one gives both deviates: `v2 * fac` is returned and `v1 * fac`
cached. Stated with the number of rejected trials, not with the model's bound. A NaN would have the
pattern of a free draw (notes/assumptions/4.md, 5.md). -/
def Obligations.NextNormalFromAnEmptyCache : Prop :=
  (∀ w : Words,
    let v1 := (Val.two.mul (uniformOf (nextWords w).s3)).sub .one
    let v2 := (Val.two.mul (uniformOf (nextWords (nextWords w)).s3)).sub .one
    let rsq := (v1.mul v1).add (v2.mul v2)
    rejected w = true ↔ Val.one.le rsq = true ∨ rsq.eq .zero = true) ∧
  ∀ (s : State) (w0 : Words) (k : Nat), s.gen = .seeded w0 → s.cache = .empty →
    (∀ j < k, rejected (nextWords^[2 * j] w0) = true) →
    rejected (nextWords^[2 * k] w0) = false →
    let w := nextWords^[2 * k] w0
    let v1 := (Val.two.mul (uniformOf (nextWords w).s3)).sub .one
    let v2 := (Val.two.mul (uniformOf (nextWords (nextWords w)).s3)).sub .one
    let rsq := (v1.mul v1).add (v2.mul v2)
    let ln := Val.ofBits (fnLn s.known (rsq.bits (nanAt s.draws)))
    let fac := ((Val.negTwo.mul ln).div rsq).sqrt
    exec .nextNormal s = .next { s with
      gen := .seeded (nextWords^[2 * k + 2] w0)
      cache := .full ((v1.mul fac).bits (nanAt s.draws))
      draws := s.draws + 2
      rsp := s.rsp ++ [⟨.done, .ok, (v2.mul fac).bits (nanAt (s.draws + 1))⟩] }

/-- 70_reset_and_hazards.md R181: NEXT_NORMAL on an Empty cache never completes exactly when no trial is
ever accepted, and then no beat is sent and no register changes; nothing bounds the number of trials. The
flag `hung` is the model's form of that (notes/assumptions/6.md, 21.md). -/
def Obligations.HangsExactlyWhenNoTrialIsAccepted : Prop :=
  ∀ (s : State) (w : Words), s.gen = .seeded w → s.cache = .empty → s.hung = false →
    ((∃ t, exec .nextNormal s = .next t ∧ t.hung = true) ↔
      ∀ k, rejected (nextWords^[2 * k] w) = true) ∧
    ∀ t, exec .nextNormal s = .next t → t.hung = true → t = { s with hung := true }

/-- 70_reset_and_hazards.md R181: a hung block accepts no command and sends no further beat of its own
until reset: without `rst` it stays hung. (notes/assumptions/6.md) -/
def Obligations.OnlyResetLeavesAHang : Prop :=
  ∀ s t : State, s.hung = true → step s = .next t →
    (s.pinsNow.rst = false → t.hung = true ∧ t.cmdq = s.cmdq ∧ t.gen = s.gen ∧
      t.sent ++ t.rsp = s.sent ++ s.rsp) ∧
    (s.pinsNow.rst = true → t.hung = false)

/-- 42_gaussian.md R104: a call of `next_normal` consumes no draw from a Full cache, and from an Empty one
two draws for each of its trials: those of the rejected trials, if any, and those of the first accepted
one, at which the loop ends. -/
def Obligations.NormalDrawAccounting : Prop :=
  ∀ (s t : State) (w : Words), s.gen = .seeded w → exec .nextNormal s = .next t →
    s.hung = false → t.hung = false →
    (s.cache ≠ .empty → t.gen = s.gen ∧ t.cache = .empty) ∧
    (s.cache = .empty → t.cache ≠ .empty ∧
      ∃ k, (∀ j < k, rejected (nextWords^[2 * j] w) = true) ∧
        rejected (nextWords^[2 * k] w) = false ∧
        t.gen = .seeded (nextWords^[2 * (k + 1)] w))

/-- 42_gaussian.md R107: a command that completes flips the cache between Empty and Full once for each of
its calls of `next_normal`; SEED resets it. -/
def Obligations.CacheParity : Prop :=
  ∀ (i : Instr) (s t : State) (bs : List Beat) (d : W64), exec i s = .next t →
    t.rsp = s.rsp ++ bs ++ [⟨.done, .ok, d⟩] →
    ((∀ x y z w, i ≠ .seed x y z w) →
      t.cache.isFull = (s.cache.isFull ^^ decide (normalCalls i % 2 = 1))) ∧
    ∀ x y z w, i = .seed x y z w → t.cache.isFull = false

/-- 42_gaussian.md R103: FILL_NORMAL, when each of its n calls meets an accepted trial (`c k` is the draw
state before call k and `y k` its value), sends the n values in generation order, then DONE with n, and
leaves the generator and the cache as the last call does. Answering whole at acceptance is
notes/assumptions/11.md. -/
def Obligations.FillNormalCompletes : Prop :=
  ∀ (n : W64) (s : State) (w : Words) (y : Nat → W64) (c : Nat → Source), n.toNat < 2 ^ 32 →
    s.gen = .seeded w → c 0 = ⟨w, s.cache, s.stages, s.draws⟩ →
    (∀ k < n.toNat, sampleNormal s.known (c k) = some (y k, c (k + 1))) →
    exec (.fillNormal n) s = .next { s with
      gen := .seeded (c n.toNat).words
      cache := (c n.toNat).cache
      draws := (c n.toNat).draws
      rsp := s.rsp ++ (List.range n.toNat).map (fun k => ⟨.data, .ok, y k⟩) ++ [⟨.done, .ok, n⟩] }

/-- 45_colored.md R137, R135: FILL_COLORED, when each of its n calls meets an accepted trial (`c k` is the
draw state before call k, `g k` and `e k` the deviate and the draw state `next_normal` gives), sends the n
filtered deviates in generation order, then DONE with n, and leaves generator, cache and stages as the
last call does. Answering whole at acceptance is notes/assumptions/11.md. -/
def Obligations.FillColoredCompletes : Prop :=
  ∀ (n : W64) (s : State) (w : Words) (g : Nat → W64) (c e : Nat → Source), n.toNat < 2 ^ 32 →
    s.gen = .seeded w → s.stages ≠ [] → c 0 = ⟨w, s.cache, s.stages, s.draws⟩ →
    (∀ k < n.toNat, sampleNormal s.known (c k) = some (g k, e k) ∧
      c (k + 1) = ⟨(e k).words, (e k).cache, (cascadeStep (e k).draws (g k) (e k).stages).2,
        (e k).draws + (e k).stages.length⟩) →
    exec (.fillColored n) s = .next { s with
      gen := .seeded (c n.toNat).words
      cache := (c n.toNat).cache
      stages := (c n.toNat).stages
      draws := (c n.toNat).draws
      rsp := s.rsp ++ (List.range n.toNat).map (fun k =>
          ⟨.data, .ok, (cascadeStep (e k).draws (g k) (e k).stages).1⟩) ++
        [⟨.done, .ok, n⟩] }

/-- 45_colored.md R138 and 41_uniform.md R92, 42_gaussian.md R103: a FILL sends as DATA exactly what n
single commands return as DONE data, and leaves the same state. -/
def Obligations.FillIsRepeatedSingleDraws : Prop :=
  ∀ (single : Instr) (fillOf : W64 → Instr) (n : W64) (s u : State),
    (single = .nextUniform ∧ fillOf = Instr.fillUniform ∨
      single = .nextNormal ∧ fillOf = Instr.fillNormal ∨
      single = .nextColored ∧ fillOf = Instr.fillColored ∧ s.stages ≠ []) →
    n.toNat < 2 ^ 32 → s.gen ≠ .unseeded → s.hung = false →
    repeatExec single n.toNat s = some u → u.hung = false →
    ∃ ys : List W64, ys.length = n.toNat ∧
      u.rsp = s.rsp ++ ys.map (⟨.done, .ok, ·⟩) ∧
      exec (fillOf n) s = .next { u with
        rsp := s.rsp ++ ys.map (⟨.data, .ok, ·⟩) ++ [⟨.done, .ok, n⟩] }

/-- 45_colored.md R138: two FILLs in a row send the stream of one FILL of the sum of their counts, and
leave the same state. -/
def Obligations.FillsConcatenate : Prop :=
  ∀ (fillOf : W64 → Instr) (m n : W64) (s t u : State) (xs ys : List W64),
    (fillOf = Instr.fillUniform ∨ fillOf = Instr.fillNormal ∨ fillOf = Instr.fillColored) →
    m.toNat + n.toNat < 2 ^ 32 →
    exec (fillOf m) s = .next t → t.rsp = s.rsp ++ xs.map (⟨.data, .ok, ·⟩) ++ [⟨.done, .ok, m⟩] →
    exec (fillOf n) t = .next u → u.rsp = t.rsp ++ ys.map (⟨.data, .ok, ·⟩) ++ [⟨.done, .ok, n⟩] →
    exec (fillOf (m + n)) s = .next { u with
      rsp := s.rsp ++ (xs ++ ys).map (⟨.data, .ok, ·⟩) ++ [⟨.done, .ok, m + n⟩] }

/-! ### Unit 3 -/

/-- 43_single_pole.md R112, R114: STEP runs the stages in index order on the sample. Stage k writes its
input to `x1` and `((c0*x) + (c1*x1)) + (d0*y1)`, with its delays from before, to `y1`; that is the input
of stage k+1, and the last stage's is the datum. Coefficients and everything else stay. A NaN result has
the pattern of a free draw (notes/assumptions/4.md). -/
def Obligations.StepCompletes : Prop :=
  ∀ (s : State) (x : W64), s.stages ≠ [] →
    ∃ (ins : List W64) (y : W64) (l : List Stage),
      exec (.step x) s = .next { s with
        stages := l
        draws := s.draws + s.stages.length
        rsp := s.rsp ++ [⟨.done, .ok, y⟩] } ∧
      l.length = s.stages.length ∧ ins.length = s.stages.length + 1 ∧
      ins[0]? = some x ∧ ins.getLast? = some y ∧
      ∀ (k : Nat) (st : Stage) (v : W64), s.stages[k]? = some st → ins[k]? = some v →
        let out := ((((Val.ofBits st.c0).mul (.ofBits v)).add
          ((Val.ofBits st.c1).mul (.ofBits st.x1))).add
          ((Val.ofBits st.d0).mul (.ofBits st.y1))).bits (nanAt (s.draws + k))
        l[k]? = some ⟨st.c0, st.c1, st.d0, v, out⟩ ∧ ins[k + 1]? = some out

/-- 10_state.md R19: no command but PLAN and PLAN1 changes a coefficient; those two write +0.0 to the
delays; only they, STEP and the colored commands write a delay. -/
def Obligations.CoefficientsAreImmutable : Prop :=
  ∀ (i : Instr) (s t : State), exec i s = .next t →
    ((∀ a b c d, i ≠ .plan a b c d) → (∀ a b c, i ≠ .plan1 a b c) →
      t.stages.map Stage.coeffs = s.stages.map Stage.coeffs) ∧
    (((∃ a b c d, i = .plan a b c d) ∨ ∃ a b c, i = .plan1 a b c) → t.stages ≠ s.stages →
      ∀ st ∈ t.stages, st.x1 = 0 ∧ st.y1 = 0) ∧
    ((∀ a b c d, i ≠ .plan a b c d) → (∀ a b c, i ≠ .plan1 a b c) → (∀ x, i ≠ .step x) →
      i ≠ .nextColored → (∀ n, i ≠ .fillColored n) → t.stages = s.stages)

/-- 43_single_pole.md R110, corner case `f_low` = `f_high`: `c0` is 1.0 exactly and `c1` is `-d0`, where
`1.0 + w0` is finite and not zero. -/
def Obligations.EqualCornersPassThrough : Prop :=
  ∀ (n : Nat) (f fsample : Val) (neg : Bool) (m : Nat) (e : Int),
    Val.one.add ((Val.pi.mul f).div fsample) = .fin neg m e → m ≠ 0 →
    (initPole n f f fsample).c0 = 0x3FF0000000000000 ∧
    (Val.ofBits (initPole n f f fsample).c1) = (Val.ofBits (initPole n f f fsample).d0).neg ∧
    (initPole n f f fsample).x1 = 0 ∧ (initPole n f f fsample).y1 = 0

/-- 70_reset_and_hazards.md R179, 40_numerics.md R73: a NaN or an infinity that is in the `x1` or `y1` of a
stage, or is the operand of a STEP, makes every later output of that stage, and of every stage after it, a
NaN or an infinity, under STEP, NEXT_COLORED and FILL_COLORED, and no command but PLAN and PLAN1 clears it.
The same with a NaN alone: it stays a NaN. `P` is either of the two, and `sticks u` says that the outputs
of the stages from `k` on are such. -/
def Obligations.NonFiniteSticks : Prop :=
  ∀ P : Val → Prop, ((P = fun v => v = .nan) ∨ (P = fun v => v.isFinite = false)) →
  ∀ (s t : State) (k : Nat),
    let sticks := fun u : State => ∀ j st, k ≤ j → u.stages[j]? = some st → P (.ofBits st.y1)
    (∀ st, s.stages[k]? = some st → P (.ofBits st.x1) ∨ P (.ofBits st.y1) →
      (∀ (i : Instr) (d : W64), (∃ x, i = .step x) ∨ i = .nextColored → exec i s = .next t →
        t.rsp = s.rsp ++ [⟨.done, .ok, d⟩] → P (.ofBits d) ∧ sticks t) ∧
      ∀ n : W64, exec (.fillColored n) s = .next t →
        (∀ b ∈ t.rsp.drop s.rsp.length, b.kind = .data → P (.ofBits b.data)) ∧
        (n ≠ 0 → ∀ bs, t.rsp = s.rsp ++ bs ++ [⟨.done, .ok, n⟩] → sticks t)) ∧
    (∀ x : W64, s.stages ≠ [] → P (.ofBits x) → exec (.step x) s = .next t →
      (∀ st ∈ t.stages, P (.ofBits st.x1) ∧ P (.ofBits st.y1)) ∧
      ∃ d, t.rsp = s.rsp ++ [⟨.done, .ok, d⟩] ∧ P (.ofBits d)) ∧
    ∀ i : Instr, (∀ a b c d, i ≠ .plan a b c d) → (∀ a b c, i ≠ .plan1 a b c) → exec i s = .next t →
      sticks s → sticks t

/-! ### Unit 4 -/

/-- 44_planner.md R122, R121: NUM_POLES of a valid configuration returns the floor of
`v = ((wmax - wmin) * 2.0) + fn_log10(fsample)`, for a finite `v` whose floor is a signed 32-bit integer, as
a signed 64-bit integer, also where it is not positive, and changes nothing. The floor is the greatest
integer not greater than the exact value (40_numerics.md R82), and `floor_int` gives it for every finite
datum and nothing for the others. -/
def Obligations.NumPolesCompletes : Prop :=
  (∀ (v : Val) (n : Int), v.floorInt = some n ↔ v.isFinite = true ∧ n = ⌊v.toRat⌋) ∧
  ∀ (s : State) (fmin fknee fsample : W64),
    cfgValid (.ofBits fmin) (.ofBits fknee) (.ofBits fsample) = true →
    let wmin := Val.ofBits (fnLog10 s.known ((Val.twoPi.mul (.ofBits fmin)).bits (nanAt s.draws)))
    let wmax := Val.ofBits (fnLog10 s.known ((Val.twoPi.mul (.ofBits fknee)).bits (nanAt s.draws)))
    let v := ((wmax.sub wmin).mul .two).add (.ofBits (fnLog10 s.known fsample))
    v.isFinite = true → -2 ^ 31 ≤ ⌊v.toRat⌋ → ⌊v.toRat⌋ ≤ 2 ^ 31 - 1 →
    exec (.numPoles fmin fknee fsample) s =
      .next { s with rsp := s.rsp ++ [⟨.done, .ok, .ofInt 64 ⌊v.toRat⌋⟩] }

/-- 44_planner.md R125, R124, R126: PLAN of a valid configuration with 1 ≤ nproc ≤ NMAX replaces the
cascade by nproc stages in creation order. Stage k comes from `p`, advanced k times by `p + dp`, and `z =
p + h`; the datum is nproc. Generator and cache stay. A NaN would have the pattern of a free draw
(notes/assumptions/4.md, 5.md). -/
def Obligations.PlanCompletes : Prop :=
  ∀ (s : State) (slope fmin fknee fsample : W64) (n : Nat),
    (Val.ofBits slope).isFinite = true →
    cfgValid (.ofBits fmin) (.ofBits fknee) (.ofBits fsample) = true →
    numPoles s.known s.draws fmin fknee fsample = some (n : Int) → 1 ≤ n → n ≤ s.nmax →
    let wmin := Val.ofBits (fnLog10 s.known ((Val.twoPi.mul (.ofBits fmin)).bits (nanAt s.draws)))
    let wmax := Val.ofBits (fnLog10 s.known ((Val.twoPi.mul (.ofBits fknee)).bits (nanAt s.draws)))
    let a := (Val.ofBits slope).neg
    let dp := (wmax.sub wmin).div (.ofNat n)
    let h := (Val.half.mul a).mul dp
    let p0 := wmin.add ((Val.half.mul (Val.one.sub (Val.half.mul a))).mul dp)
    let corner := fun (k : Nat) (p : Val) =>
      (Val.ofBits (fnPow10 s.known (p.bits (nanAt k)))).div .twoPi
    exec (.plan slope fmin fknee fsample) s = .next { s with
      stages := (List.range n).map (fun k =>
        let p := (fun q : Val => q.add dp)^[k] p0
        let d := s.draws + 5 * k
        initPole (d + 2) (corner d p) (corner (d + 1) (p.add h)) (.ofBits fsample))
      draws := s.draws + 5 * n
      rsp := s.rsp ++ [⟨.done, .ok, .ofNat 64 n⟩] }

/-- 44_planner.md R128, 43_single_pole.md R110: PLAN1 of a valid configuration leaves the one stage
`init_pole(fmin, fknee, fsample)` at rest, written out, and answers 1. A NaN would have the pattern of a
free draw (notes/assumptions/4.md, 5.md). -/
def Obligations.Plan1Completes : Prop :=
  ∀ (s : State) (fmin fknee fsample : W64),
    cfgValid (.ofBits fmin) (.ofBits fknee) (.ofBits fsample) = true →
    let w0 := (Val.pi.mul (.ofBits fmin)).div (.ofBits fsample)
    let w1 := (Val.pi.mul (.ofBits fknee)).div (.ofBits fsample)
    let den := Val.one.add w0
    exec (.plan1 fmin fknee fsample) s = .next { s with
      stages := [⟨((Val.one.add w1).div den).bits (nanAt s.draws),
        (((Val.one.sub w1).div den).neg).bits (nanAt (s.draws + 1)),
        ((Val.one.sub w0).div den).bits (nanAt (s.draws + 2)), 0, 0⟩]
      draws := s.draws + 3
      rsp := s.rsp ++ [⟨.done, .ok, 1⟩] }

/-- 44_planner.md R125: the datum of a PLAN that completes is the new `NSTAGE`, and what NUM_POLES returns
for the same three frequencies in the same state. -/
def Obligations.PlanAnswersTheNumPolesCount : Prop :=
  ∀ (s t : State) (slope fmin fknee fsample d : W64),
    exec (.plan slope fmin fknee fsample) s = .next t → t.rsp = s.rsp ++ [⟨.done, .ok, d⟩] →
    d.toNat = t.nstage ∧
    exec (.numPoles fmin fknee fsample) s =
      .next { s with rsp := s.rsp ++ [⟨.done, .ok, d⟩] }

/-- 44_planner.md R123: the stage count of a valid configuration does not decrease when `fsample` and
`fknee` do not decrease and `fmin` does not increase, each alone (the others equal) or together, where
`fn_log10` has LOG10-MONO (40_numerics.md R80) at the three pairs of arguments it is called with. -/
def Obligations.StageCountIsMonotone : Prop :=
  ∀ (k : Known) (d : Nat) (fmin fknee fsample fmin' fknee' fsample' : W64) (n n' : Int),
    cfgValid (.ofBits fmin) (.ofBits fknee) (.ofBits fsample) = true →
    cfgValid (.ofBits fmin') (.ofBits fknee') (.ofBits fsample') = true →
    (Val.ofBits fmin').le (.ofBits fmin) = true → (Val.ofBits fknee).le (.ofBits fknee') = true →
    (Val.ofBits fsample).le (.ofBits fsample') = true →
    let omega := fun f : W64 => (Val.twoPi.mul (.ofBits f)).bits (nanAt d)
    Log10MonoAt (fnLog10 k) (omega fmin') (omega fmin) →
    Log10MonoAt (fnLog10 k) (omega fknee) (omega fknee') →
    Log10MonoAt (fnLog10 k) fsample fsample' →
    numPoles k d fmin fknee fsample = some n → numPoles k d fmin' fknee' fsample' = some n' → n ≤ n'

/-! ### Unit 5 -/

/-- 45_colored.md R136, R135: NEXT_COLORED, when `next_normal` meets an accepted trial, filters the
deviate through the whole cascade and returns the last stage's output. -/
def Obligations.NextColoredCompletes : Prop :=
  ∀ (s : State) (w : Words) (g : W64) (c : Source), s.gen = .seeded w → s.stages ≠ [] →
    sampleNormal s.known ⟨w, s.cache, s.stages, s.draws⟩ = some (g, c) →
    exec .nextColored s = .next { s with
      gen := .seeded c.words
      cache := c.cache
      stages := (cascadeStep c.draws g s.stages).2
      draws := c.draws + s.stages.length
      rsp := s.rsp ++ [⟨.done, .ok, (cascadeStep c.draws g s.stages).1⟩] }

/-- 45_colored.md R135: a NEXT_COLORED is a NEXT_NORMAL whose deviate is then given to STEP. -/
def Obligations.ColoredIsNormalThenStep : Prop :=
  ∀ (s t u : State) (g y : W64), s.stages ≠ [] → exec .nextNormal s = .next t →
    t.rsp = s.rsp ++ [⟨.done, .ok, g⟩] → exec (.step g) t = .next u →
    u.rsp = t.rsp ++ [⟨.done, .ok, y⟩] →
    exec .nextColored s = .next { u with rsp := s.rsp ++ [⟨.done, .ok, y⟩] }

/-! ### RD and the whole block -/

/-- 46_system.md R145, 10_state.md R28: RD of the index of a register that holds a value returns that value
and changes nothing, register by register, the indices as numbers: 0 to 3 the four words, 4 `GSTAT`, 5
`GVAL`, 6 `NSTAGE`, 7 `ERR`, 8 `NMAX`, and from 0x100 + 8k on the five fields of stage k. -/
def Obligations.RdReturnsTheRegister : Prop :=
  (∀ s : State,
    let answers := fun (idx : Nat) (v : W64) =>
      exec (.rd (.ofNat 64 idx)) s = .next { s with rsp := s.rsp ++ [⟨.done, .ok, v⟩] }
    (∀ a b c d : U32, s.gen = .seeded ⟨a, b, c, d⟩ →
      answers 0 (a.setWidth 64) ∧ answers 1 (b.setWidth 64) ∧ answers 2 (c.setWidth 64) ∧
      answers 3 (d.setWidth 64)) ∧
    answers 4 ((if s.gen = .unseeded then 0 else 1) ||| if s.cache = .empty then 0 else 2) ∧
    (∀ d, s.cache = .full d → answers 5 d) ∧
    answers 6 (.ofNat 64 s.stages.length) ∧
    answers 7 (s.err.setWidth 64) ∧
    answers 8 (.ofNat 64 (s.nmaxCode.toNat + 1)) ∧
    ∀ (k : Nat) (st : Stage), k ≤ s.nmaxCode.toNat → s.stages[k]? = some st →
      answers (0x100 + 8 * k + 0) st.c0 ∧ answers (0x100 + 8 * k + 1) st.c1 ∧
      answers (0x100 + 8 * k + 2) st.d0 ∧ answers (0x100 + 8 * k + 3) st.x1 ∧
      answers (0x100 + 8 * k + 4) st.y1) ∧
  (∀ i : Fin 4, (Reg.s i).index = i.val) ∧ Reg.gstat.index = 4 ∧ Reg.gval.index = 5 ∧
  Reg.nstage.index = 6 ∧ Reg.err.index = 7 ∧ Reg.nmax.index = 8 ∧
  ∀ k : Nat, (Reg.stage k .c0).index = 0x100 + 8 * k + 0 ∧
    (Reg.stage k .c1).index = 0x100 + 8 * k + 1 ∧ (Reg.stage k .d0).index = 0x100 + 8 * k + 2 ∧
    (Reg.stage k .x1).index = 0x100 + 8 * k + 3 ∧ (Reg.stage k .y1).index = 0x100 + 8 * k + 4

/-- 60_exceptions.md R154: RD of a mapped register that holds no value faults with `E_NO_VALUE`: `S0` to
`S3` while unseeded, `GVAL` while the cache is Empty, a field of a stage from `NSTAGE` to `NMAX`. -/
def Obligations.RdOfNoValueFaults : Prop :=
  ∀ (s : State) (r : Reg),
    ((∃ i, r = .s i ∧ s.gen = .unseeded) ∨ (r = .gval ∧ s.cache = .empty) ∨
      ∃ k f, r = .stage k f ∧ s.nstage ≤ k ∧ k < s.nmax) →
    exec (.rd (.ofNat 64 r.index)) s = .next { s with
      err := s.err ||| 0x80, rsp := s.rsp ++ [⟨.done, .noValue, 0⟩] }

/-- 20_memory.md R34: RD changes no register but a bit of `ERR`, that only when it faults, and two RDs of
one index in a row give the same beat. -/
def Obligations.RdIsIdempotent : Prop :=
  ∀ (idx : W64) (s t u : State), exec (.rd idx) s = .next t → exec (.rd idx) t = .next u →
    ∃ b : Beat, t.rsp = s.rsp ++ [b] ∧ u.rsp = t.rsp ++ [b] ∧
      t = { s with err := t.err, rsp := t.rsp } ∧ (b.status = .ok → t.err = s.err)

/-- 10_state.md R25: what each command leaves untouched, column by column of the table. Every command that
does not fault leaves `ERR`; every draw leaves `SEEDED`; STEP and the colored commands leave `NSTAGE` and
the coefficients. No command writes the constants or the host's side. -/
def Obligations.CommandsWriteOnlyTheirState : Prop :=
  ∀ (i : Instr) (s t : State), exec i s = .next t →
    t.nmaxCode = s.nmaxCode ∧ t.known = s.known ∧ t.cmdq = s.cmdq ∧ t.pins = s.pins ∧
    t.sent = s.sent ∧
    ((∀ b ∈ t.rsp.drop s.rsp.length, b.status = .ok) → t.err = s.err) ∧
    (match i with
    | .seed _ _ _ _ => t.stages = s.stages
    | .nextU32 | .nextUniform | .fillUniform _ =>
      t.seededBit = s.seededBit ∧ t.cache = s.cache ∧ t.stages = s.stages
    | .nextNormal | .fillNormal _ => t.seededBit = s.seededBit ∧ t.stages = s.stages
    | .step _ => t.gen = s.gen ∧ t.cache = s.cache ∧ t.nstage = s.nstage ∧
      t.stages.map Stage.coeffs = s.stages.map Stage.coeffs ∧
      t.err = s.err ||| (if s.stages = [] then 0x10 else 0)
    | .numPoles _ _ _ | .rd _ => t.gen = s.gen ∧ t.cache = s.cache ∧ t.stages = s.stages
    | .plan _ _ _ _ | .plan1 _ _ _ => t.gen = s.gen ∧ t.cache = s.cache
    | .nextColored | .fillColored _ => t.seededBit = s.seededBit ∧ t.nstage = s.nstage ∧
      t.stages.map Stage.coeffs = s.stages.map Stage.coeffs)

/-- 41_uniform.md R94: what a drawing command answers and leaves in the generator, the cache and the
stages depends on these (and the model's count of NaN draws), the parameter functions and its operands
alone: not on `ERR`, `NMAX`, the port or the host. -/
def Obligations.StreamDependsOnlyOnTheDrawState : Prop :=
  ∀ (i : Instr) (s s' t t' : State), (∀ a b c d, i ≠ .plan a b c d) → (∀ x, i ≠ .rd x) →
    s.gen = s'.gen → s.cache = s'.cache → s.stages = s'.stages → s.draws = s'.draws →
    s.known = s'.known → exec i s = .next t → exec i s' = .next t' →
    t.gen = t'.gen ∧ t.cache = t'.cache ∧ t.stages = t'.stages ∧ t.draws = t'.draws ∧
    t.rsp.drop s.rsp.length = t'.rsp.drop s'.rsp.length

/-- The invariant holds after reset. -/
def Obligations.ResetHasTheInvariant : Prop := State.reset.Inv

/-- 10_state.md R23, R17, R21, 43_single_pole.md R114, 30_encoding.md R50: every step keeps the invariant:
a seeded generator is not all zero, an unseeded block has an Empty cache, `NSTAGE` ≤ `NMAX`, bit 0 of
`ERR` is 0, neighbouring delays agree, and the port holds the end of one response. -/
def Obligations.StepKeepsTheInvariant : Prop :=
  ∀ s t : State, s.Inv → step s = .next t → t.Inv

/-! ### Arithmetic -/

/-- 40_numerics.md R71: `+`, `-`, `*` and `/` of two finite operands (a divisor that is not zero) give the
exact result rounded once to nearest, ties to even, and on overflow an infinity of the right sign. That
overflow begins at the largest finite number plus half a unit is not in R71: it is the model's, PRESUMED
from IEEE 754 (notes/assumptions/17.md). -/
def Obligations.ArithmeticRoundsToNearest : Prop :=
  ∀ a b : Val, a.inFormat → b.inFormat →
    Val.rounds ((a.toRat : ℝ) + b.toRat) (a.add b) ∧
    Val.rounds ((a.toRat : ℝ) - b.toRat) (a.sub b) ∧
    Val.rounds ((a.toRat : ℝ) * b.toRat) (a.mul b) ∧
    (b.toRat ≠ 0 → Val.rounds ((a.toRat : ℝ) / b.toRat) (a.div b))

/-- 40_numerics.md R78: `sqrt` of a finite operand that is not negative is the exact root rounded once to
nearest, ties to even. -/
def Obligations.SqrtRoundsToNearest : Prop :=
  ∀ a : Val, a.inFormat → 0 ≤ a.toRat → Val.nearest (Real.sqrt (a.toRat : ℝ)) a.sqrt
end

