-- ==== Sys2Proof/Laws/State.lean ====
section
/-! SUPPORT. One lemma per field per update of `State`, so that no proof unfolds a record update. -/

namespace Sys2Proof.Machine

@[simp] theorem State.emit_gen (s : State) (bs : List Beat) : (s.emit bs).gen = s.gen := rfl
@[simp] theorem State.emit_cache (s : State) (bs : List Beat) : (s.emit bs).cache = s.cache := rfl
@[simp] theorem State.emit_stages (s : State) (bs : List Beat) :
    (s.emit bs).stages = s.stages := rfl
@[simp] theorem State.emit_err (s : State) (bs : List Beat) : (s.emit bs).err = s.err := rfl
@[simp] theorem State.emit_nmaxCode (s : State) (bs : List Beat) :
    (s.emit bs).nmaxCode = s.nmaxCode := rfl
@[simp] theorem State.emit_hung (s : State) (bs : List Beat) : (s.emit bs).hung = s.hung := rfl
@[simp] theorem State.emit_rsp (s : State) (bs : List Beat) : (s.emit bs).rsp = s.rsp ++ bs := rfl
@[simp] theorem State.emit_cmdq (s : State) (bs : List Beat) : (s.emit bs).cmdq = s.cmdq := rfl
@[simp] theorem State.emit_pins (s : State) (bs : List Beat) : (s.emit bs).pins = s.pins := rfl
@[simp] theorem State.emit_sent (s : State) (bs : List Beat) : (s.emit bs).sent = s.sent := rfl
@[simp] theorem State.emit_known (s : State) (bs : List Beat) : (s.emit bs).known = s.known := rfl
@[simp] theorem State.emit_draws (s : State) (bs : List Beat) : (s.emit bs).draws = s.draws := rfl

@[simp] theorem State.finish_gen (s : State) (d : W64) : (s.finish d).gen = s.gen := rfl
@[simp] theorem State.finish_cache (s : State) (d : W64) : (s.finish d).cache = s.cache := rfl
@[simp] theorem State.finish_stages (s : State) (d : W64) : (s.finish d).stages = s.stages := rfl
@[simp] theorem State.finish_err (s : State) (d : W64) : (s.finish d).err = s.err := rfl
@[simp] theorem State.finish_nmaxCode (s : State) (d : W64) :
    (s.finish d).nmaxCode = s.nmaxCode := rfl
@[simp] theorem State.finish_hung (s : State) (d : W64) : (s.finish d).hung = s.hung := rfl
@[simp] theorem State.finish_rsp (s : State) (d : W64) :
    (s.finish d).rsp = s.rsp ++ [okBeat d] := rfl
@[simp] theorem State.finish_cmdq (s : State) (d : W64) : (s.finish d).cmdq = s.cmdq := rfl
@[simp] theorem State.finish_pins (s : State) (d : W64) : (s.finish d).pins = s.pins := rfl
@[simp] theorem State.finish_sent (s : State) (d : W64) : (s.finish d).sent = s.sent := rfl
@[simp] theorem State.finish_known (s : State) (d : W64) : (s.finish d).known = s.known := rfl
@[simp] theorem State.finish_draws (s : State) (d : W64) : (s.finish d).draws = s.draws := rfl

@[simp] theorem State.raise_gen (s : State) (st : Status) : (s.raise st).gen = s.gen := rfl
@[simp] theorem State.raise_cache (s : State) (st : Status) : (s.raise st).cache = s.cache := rfl
@[simp] theorem State.raise_stages (s : State) (st : Status) : (s.raise st).stages = s.stages := rfl
@[simp] theorem State.raise_err (s : State) (st : Status) :
    (s.raise st).err = s.err ||| st.errBit := rfl
@[simp] theorem State.raise_nmaxCode (s : State) (st : Status) :
    (s.raise st).nmaxCode = s.nmaxCode := rfl
@[simp] theorem State.raise_hung (s : State) (st : Status) : (s.raise st).hung = s.hung := rfl
@[simp] theorem State.raise_rsp (s : State) (st : Status) :
    (s.raise st).rsp = s.rsp ++ [faultBeat st] := rfl
@[simp] theorem State.raise_cmdq (s : State) (st : Status) : (s.raise st).cmdq = s.cmdq := rfl
@[simp] theorem State.raise_pins (s : State) (st : Status) : (s.raise st).pins = s.pins := rfl
@[simp] theorem State.raise_sent (s : State) (st : Status) : (s.raise st).sent = s.sent := rfl
@[simp] theorem State.raise_known (s : State) (st : Status) : (s.raise st).known = s.known := rfl
@[simp] theorem State.raise_draws (s : State) (st : Status) : (s.raise st).draws = s.draws := rfl

@[simp] theorem State.hang_gen (s : State) (ys : List W64) : (s.hang ys).gen = s.gen := rfl
@[simp] theorem State.hang_cache (s : State) (ys : List W64) : (s.hang ys).cache = s.cache := rfl
@[simp] theorem State.hang_stages (s : State) (ys : List W64) : (s.hang ys).stages = s.stages := rfl
@[simp] theorem State.hang_err (s : State) (ys : List W64) : (s.hang ys).err = s.err := rfl
@[simp] theorem State.hang_nmaxCode (s : State) (ys : List W64) :
    (s.hang ys).nmaxCode = s.nmaxCode := rfl
@[simp] theorem State.hang_hung (s : State) (ys : List W64) : (s.hang ys).hung = true := rfl
@[simp] theorem State.hang_rsp (s : State) (ys : List W64) :
    (s.hang ys).rsp = s.rsp ++ ys.map dataBeat := rfl
@[simp] theorem State.hang_cmdq (s : State) (ys : List W64) : (s.hang ys).cmdq = s.cmdq := rfl
@[simp] theorem State.hang_pins (s : State) (ys : List W64) : (s.hang ys).pins = s.pins := rfl
@[simp] theorem State.hang_sent (s : State) (ys : List W64) : (s.hang ys).sent = s.sent := rfl
@[simp] theorem State.hang_known (s : State) (ys : List W64) : (s.hang ys).known = s.known := rfl
@[simp] theorem State.hang_draws (s : State) (ys : List W64) : (s.hang ys).draws = s.draws := rfl

@[simp] theorem State.withSource_gen (s : State) (c : Source) :
    (s.withSource c).gen = .seeded c.words := rfl
@[simp] theorem State.withSource_cache (s : State) (c : Source) :
    (s.withSource c).cache = c.cache := rfl
@[simp] theorem State.withSource_stages (s : State) (c : Source) :
    (s.withSource c).stages = c.stages := rfl
@[simp] theorem State.withSource_err (s : State) (c : Source) : (s.withSource c).err = s.err := rfl
@[simp] theorem State.withSource_nmaxCode (s : State) (c : Source) :
    (s.withSource c).nmaxCode = s.nmaxCode := rfl
@[simp] theorem State.withSource_hung (s : State) (c : Source) :
    (s.withSource c).hung = s.hung := rfl
@[simp] theorem State.withSource_rsp (s : State) (c : Source) : (s.withSource c).rsp = s.rsp := rfl
@[simp] theorem State.withSource_cmdq (s : State) (c : Source) :
    (s.withSource c).cmdq = s.cmdq := rfl
@[simp] theorem State.withSource_pins (s : State) (c : Source) :
    (s.withSource c).pins = s.pins := rfl
@[simp] theorem State.withSource_sent (s : State) (c : Source) :
    (s.withSource c).sent = s.sent := rfl
@[simp] theorem State.withSource_known (s : State) (c : Source) :
    (s.withSource c).known = s.known := rfl
@[simp] theorem State.withSource_draws (s : State) (c : Source) :
    (s.withSource c).draws = c.draws := rfl

@[simp] theorem State.seeded_gen (s : State) (w : Words) : (s.seeded w).gen = .seeded w := rfl
@[simp] theorem State.seeded_cache (s : State) (w : Words) : (s.seeded w).cache = .empty := rfl
@[simp] theorem State.seeded_stages (s : State) (w : Words) : (s.seeded w).stages = s.stages := rfl
@[simp] theorem State.seeded_err (s : State) (w : Words) : (s.seeded w).err = s.err := rfl
@[simp] theorem State.seeded_nmaxCode (s : State) (w : Words) :
    (s.seeded w).nmaxCode = s.nmaxCode := rfl
@[simp] theorem State.seeded_hung (s : State) (w : Words) : (s.seeded w).hung = s.hung := rfl
@[simp] theorem State.seeded_rsp (s : State) (w : Words) : (s.seeded w).rsp = s.rsp := rfl
@[simp] theorem State.seeded_cmdq (s : State) (w : Words) : (s.seeded w).cmdq = s.cmdq := rfl
@[simp] theorem State.seeded_pins (s : State) (w : Words) : (s.seeded w).pins = s.pins := rfl
@[simp] theorem State.seeded_sent (s : State) (w : Words) : (s.seeded w).sent = s.sent := rfl
@[simp] theorem State.seeded_known (s : State) (w : Words) : (s.seeded w).known = s.known := rfl
@[simp] theorem State.seeded_draws (s : State) (w : Words) : (s.seeded w).draws = s.draws := rfl

@[simp] theorem State.planned_gen (s : State) (l : List Stage) (n : Nat) :
    (s.planned l n).gen = s.gen := rfl
@[simp] theorem State.planned_cache (s : State) (l : List Stage) (n : Nat) :
    (s.planned l n).cache = s.cache := rfl
@[simp] theorem State.planned_stages (s : State) (l : List Stage) (n : Nat) :
    (s.planned l n).stages = l := rfl
@[simp] theorem State.planned_err (s : State) (l : List Stage) (n : Nat) :
    (s.planned l n).err = s.err := rfl
@[simp] theorem State.planned_nmaxCode (s : State) (l : List Stage) (n : Nat) :
    (s.planned l n).nmaxCode = s.nmaxCode := rfl
@[simp] theorem State.planned_hung (s : State) (l : List Stage) (n : Nat) :
    (s.planned l n).hung = s.hung := rfl
@[simp] theorem State.planned_rsp (s : State) (l : List Stage) (n : Nat) :
    (s.planned l n).rsp = s.rsp := rfl
@[simp] theorem State.planned_cmdq (s : State) (l : List Stage) (n : Nat) :
    (s.planned l n).cmdq = s.cmdq := rfl
@[simp] theorem State.planned_pins (s : State) (l : List Stage) (n : Nat) :
    (s.planned l n).pins = s.pins := rfl
@[simp] theorem State.planned_sent (s : State) (l : List Stage) (n : Nat) :
    (s.planned l n).sent = s.sent := rfl
@[simp] theorem State.planned_known (s : State) (l : List Stage) (n : Nat) :
    (s.planned l n).known = s.known := rfl
@[simp] theorem State.planned_draws (s : State) (l : List Stage) (n : Nat) :
    (s.planned l n).draws = s.draws + n := rfl

@[simp] theorem State.stepped_gen (s : State) (x : W64) : (s.stepped x).gen = s.gen := rfl
@[simp] theorem State.stepped_cache (s : State) (x : W64) : (s.stepped x).cache = s.cache := rfl
@[simp] theorem State.stepped_stages (s : State) (x : W64) :
    (s.stepped x).stages = (cascadeStep s.draws x s.stages).2 := rfl
@[simp] theorem State.stepped_err (s : State) (x : W64) : (s.stepped x).err = s.err := rfl
@[simp] theorem State.stepped_nmaxCode (s : State) (x : W64) :
    (s.stepped x).nmaxCode = s.nmaxCode := rfl
@[simp] theorem State.stepped_hung (s : State) (x : W64) : (s.stepped x).hung = s.hung := rfl
@[simp] theorem State.stepped_rsp (s : State) (x : W64) : (s.stepped x).rsp = s.rsp := rfl
@[simp] theorem State.stepped_cmdq (s : State) (x : W64) : (s.stepped x).cmdq = s.cmdq := rfl
@[simp] theorem State.stepped_pins (s : State) (x : W64) : (s.stepped x).pins = s.pins := rfl
@[simp] theorem State.stepped_sent (s : State) (x : W64) : (s.stepped x).sent = s.sent := rfl
@[simp] theorem State.stepped_known (s : State) (x : W64) : (s.stepped x).known = s.known := rfl
@[simp] theorem State.stepped_draws (s : State) (x : W64) :
    (s.stepped x).draws = s.draws + s.stages.length := rfl

@[simp] theorem State.resetBlock_gen (s : State) : s.resetBlock.gen = .unseeded := rfl
@[simp] theorem State.resetBlock_cache (s : State) : s.resetBlock.cache = .empty := rfl
@[simp] theorem State.resetBlock_stages (s : State) : s.resetBlock.stages = [] := rfl
@[simp] theorem State.resetBlock_err (s : State) : s.resetBlock.err = 0 := rfl
@[simp] theorem State.resetBlock_nmaxCode (s : State) : s.resetBlock.nmaxCode = s.nmaxCode := rfl
@[simp] theorem State.resetBlock_hung (s : State) : s.resetBlock.hung = false := rfl
@[simp] theorem State.resetBlock_rsp (s : State) : s.resetBlock.rsp = [] := rfl
@[simp] theorem State.resetBlock_cmdq (s : State) : s.resetBlock.cmdq = s.cmdq := rfl
@[simp] theorem State.resetBlock_pins (s : State) : s.resetBlock.pins = s.pins := rfl
@[simp] theorem State.resetBlock_sent (s : State) : s.resetBlock.sent = s.sent := rfl
@[simp] theorem State.resetBlock_known (s : State) : s.resetBlock.known = s.known := rfl
@[simp] theorem State.resetBlock_draws (s : State) : s.resetBlock.draws = s.draws := rfl

@[simp] theorem State.tick_gen (s : State) : s.tick.gen = s.gen := rfl
@[simp] theorem State.tick_cache (s : State) : s.tick.cache = s.cache := rfl
@[simp] theorem State.tick_stages (s : State) : s.tick.stages = s.stages := rfl
@[simp] theorem State.tick_err (s : State) : s.tick.err = s.err := rfl
@[simp] theorem State.tick_nmaxCode (s : State) : s.tick.nmaxCode = s.nmaxCode := rfl
@[simp] theorem State.tick_hung (s : State) : s.tick.hung = s.hung := rfl
@[simp] theorem State.tick_rsp (s : State) : s.tick.rsp = s.rsp := rfl
@[simp] theorem State.tick_cmdq (s : State) : s.tick.cmdq = s.cmdq := rfl
@[simp] theorem State.tick_pins (s : State) : s.tick.pins = s.pins.tail := rfl
@[simp] theorem State.tick_sent (s : State) : s.tick.sent = s.sent := rfl
@[simp] theorem State.tick_known (s : State) : s.tick.known = s.known := rfl
@[simp] theorem State.tick_draws (s : State) : s.tick.draws = s.draws := rfl

@[simp] theorem State.present_gen (s : State) (c : Command) : (s.present c).gen = s.gen := rfl
@[simp] theorem State.present_cache (s : State) (c : Command) : (s.present c).cache = s.cache := rfl
@[simp] theorem State.present_stages (s : State) (c : Command) :
    (s.present c).stages = s.stages := rfl
@[simp] theorem State.present_err (s : State) (c : Command) : (s.present c).err = s.err := rfl
@[simp] theorem State.present_nmaxCode (s : State) (c : Command) :
    (s.present c).nmaxCode = s.nmaxCode := rfl
@[simp] theorem State.present_hung (s : State) (c : Command) : (s.present c).hung = false := rfl
@[simp] theorem State.present_rsp (s : State) (c : Command) : (s.present c).rsp = [] := rfl
@[simp] theorem State.present_cmdq (s : State) (c : Command) :
    (s.present c).cmdq = c :: s.cmdq := rfl
@[simp] theorem State.present_pins (s : State) (c : Command) : (s.present c).pins = [] := rfl
@[simp] theorem State.present_sent (s : State) (c : Command) : (s.present c).sent = s.sent := rfl
@[simp] theorem State.present_known (s : State) (c : Command) : (s.present c).known = s.known := rfl
@[simp] theorem State.present_draws (s : State) (c : Command) : (s.present c).draws = s.draws := rfl

end Sys2Proof.Machine
end

