-- ==== Sys2Proof/Laws/Ops.lean ====
section
/-! SUPPORT. What each shared operation can do, said once. -/

namespace Sys2Proof.Machine

theorem State.ifSeeded_unseeded {s : State} {k : Words → State} (h : s.gen = .unseeded) :
    s.ifSeeded k = s.raise .notSeeded := by simp [State.ifSeeded, h]

theorem State.ifSeeded_seeded {s : State} {k : Words → State} {w : Words} (h : s.gen = .seeded w) :
    s.ifSeeded k = k w := by simp [State.ifSeeded, h]

/-- A state precondition faults or lets the command run on the four words. -/
theorem State.ifSeeded_cases (s : State) (k : Words → State) :
    (s.gen = .unseeded ∧ s.ifSeeded k = s.raise .notSeeded) ∨
    ∃ w, s.gen = .seeded w ∧ s.ifSeeded k = k w := by
  cases h : s.gen with
  | unseeded => exact .inl ⟨rfl, State.ifSeeded_unseeded h⟩
  | seeded w => exact .inr ⟨w, rfl, State.ifSeeded_seeded h⟩

theorem State.ifPlanned_cases (s k : State) :
    (s.stages = [] ∧ s.ifPlanned k = s.raise .noCascade) ∨
    (s.stages ≠ [] ∧ s.ifPlanned k = k) := by
  by_cases h : s.stages = [] <;> simp [State.ifPlanned, h]

/-- A single-sample command hangs or returns its sample and its draw state. -/
theorem State.answerOne_cases (s : State) (r : Option (W64 × Source)) :
    (r = none ∧ s.answerOne r = s.hang []) ∨
    ∃ y c, r = some (y, c) ∧ s.answerOne r = (s.withSource c).finish y := by
  rcases r with _ | ⟨y, c⟩
  · exact .inl ⟨rfl, rfl⟩
  · exact .inr ⟨y, c, rfl, rfl⟩

/-- A FILL hangs after some samples or returns all of them and its draw state. -/
theorem State.answerFill_cases (s : State) (n : U32) (r : List W64 × Option Source) :
    (r.2 = none ∧ s.answerFill n r = s.hang r.1) ∨
    ∃ c, r.2 = some c ∧ s.answerFill n r =
      (s.withSource c).emit (r.1.map dataBeat ++ [okBeat (n.setWidth 64)]) := by
  rcases r with ⟨ys, _ | c⟩
  · exact .inl ⟨rfl, rfl⟩
  · exact .inr ⟨c, rfl, rfl⟩

@[simp] theorem State.source_words (s : State) (w : Words) : (s.source w).words = w := rfl
@[simp] theorem State.source_cache (s : State) (w : Words) : (s.source w).cache = s.cache := rfl
@[simp] theorem State.source_stages (s : State) (w : Words) : (s.source w).stages = s.stages := rfl
@[simp] theorem State.source_draws (s : State) (w : Words) : (s.source w).draws = s.draws := rfl

@[simp] theorem fill_zero (f : Source → Option (W64 × Source)) (c : Source) :
    fill f 0 c = ([], some c) := rfl

theorem fill_succ_none {f : Source → Option (W64 × Source)} {n : Nat} {c : Source}
    (h : f c = none) : fill f (n + 1) c = ([], none) := by simp [fill, h]

theorem fill_succ_some {f : Source → Option (W64 × Source)} {n : Nat} {c c' : Source} {y : W64}
    (h : f c = some (y, c')) : fill f (n + 1) c = (y :: (fill f n c').1, (fill f n c').2) := by
  simp [fill, h]

/-- A FILL that does not hang has exactly one sample for each call. -/
theorem fill_length {f : Source → Option (W64 × Source)} :
    ∀ {n : Nat} {c c' : Source}, (fill f n c).2 = some c' → (fill f n c).1.length = n
  | 0, _, _, _ => rfl
  | n + 1, c, c', h => by
    cases hf : f c with
    | none => simp [fill_succ_none hf] at h
    | some r =>
      obtain ⟨y, d⟩ := r
      rw [fill_succ_some hf] at h ⊢
      simpa using fill_length (c := d) h

/-- A FILL that hangs has at most one sample for each call. -/
theorem fill_length_le {f : Source → Option (W64 × Source)} :
    ∀ {n : Nat} {c : Source}, (fill f n c).1.length ≤ n
  | 0, _ => Nat.le_refl 0
  | n + 1, c => by
    cases hf : f c with
    | none => simp [fill_succ_none hf]
    | some r =>
      obtain ⟨y, d⟩ := r
      rw [fill_succ_some hf]
      exact Nat.succ_le_succ fill_length_le

/-- A FILL of a sampler that always returns never hangs. -/
theorem fill_total {f : Source → Option (W64 × Source)} (total : ∀ c, f c ≠ none) :
    ∀ {n : Nat} {c : Source}, (fill f n c).2 ≠ none
  | 0, c => by simp
  | n + 1, c => by
    cases hf : f c with
    | none => exact absurd hf (total c)
    | some r =>
      obtain ⟨y, d⟩ := r
      rw [fill_succ_some hf]
      exact fill_total total

/-- Fills in a row are one fill. -/
theorem fill_append {f : Source → Option (W64 × Source)} :
    ∀ {m n : Nat} {c d : Source}, (fill f m c).2 = some d →
      fill f (m + n) c = ((fill f m c).1 ++ (fill f n d).1, (fill f n d).2)
  | 0, n, c, d, h => by
    simp only [fill_zero, Option.some.injEq] at h
    subst h
    simp
  | m + 1, n, c, d, h => by
    cases hf : f c with
    | none => simp [fill_succ_none hf] at h
    | some r =>
      obtain ⟨y, e⟩ := r
      rw [fill_succ_some hf] at h
      have ih := fill_append (n := n) (c := e) h
      rw [Nat.add_right_comm, fill_succ_some hf, fill_succ_some hf, ih]
      rfl

/-- An invariant of one call is an invariant of a FILL. -/
theorem fill_induction {f : Source → Option (W64 × Source)} {P : Source → Prop}
    (step : ∀ c y c', f c = some (y, c') → P c → P c') :
    ∀ {n : Nat} {c c' : Source}, P c → (fill f n c).2 = some c' → P c'
  | 0, _, _, hc, h => by simp at h; exact h ▸ hc
  | n + 1, c, c', hc, h => by
    cases hf : f c with
    | none => simp [fill_succ_none hf] at h
    | some r =>
      obtain ⟨y, d⟩ := r
      rw [fill_succ_some hf] at h
      exact fill_induction step (step _ _ _ hf hc) h

@[simp] theorem Status.errBit_bit0 (st : Status) : st.errBit[0] = false := by
  cases st <;> decide

theorem u32Operand_eq_some {v : W64} {n : U32} :
    u32Operand v = some n ↔ fitsU32 v = true ∧ n = v.setWidth 32 := by
  have e : v.extractLsb' 0 32 = v.setWidth 32 := by
    apply BitVec.eq_of_toNat_eq; simp
  unfold u32Operand
  rw [e]
  cases h : fitsU32 v <;> simp [eq_comm]

theorem u32Operand_eq_none {v : W64} : u32Operand v = none ↔ fitsU32 v = false := by
  unfold u32Operand; split <;> simp_all

/-- The must-be-zero bits are zero exactly when the operand is a 32-bit value. -/
theorem fitsU32_iff (v : W64) : fitsU32 v = true ↔ v.toNat < 2 ^ 32 := by
  have z : (0 : BitVec 32).toNat = 0 := rfl
  have hv := v.isLt
  simp only [fitsU32, beq_iff_eq, BitVec.toNat_eq, BitVec.extractLsb'_toNat,
    Nat.shiftRight_eq_div_pow, Nat.reducePow, z] at *
  omega

theorem fitsU16_iff (v : W64) : fitsU16 v = true ↔ v.toNat < 2 ^ 16 := by
  have z : (0 : BitVec 48).toNat = 0 := rfl
  have hv := v.isLt
  simp only [fitsU16, beq_iff_eq, BitVec.toNat_eq, BitVec.extractLsb'_toNat,
    Nat.shiftRight_eq_div_pow, Nat.reducePow, z] at *
  omega

theorem indexOperand_eq_some {v : W64} {n : BitVec 16} :
    indexOperand v = some n ↔ fitsU16 v = true ∧ n = v.setWidth 16 := by
  have e : v.extractLsb' 0 16 = v.setWidth 16 := by
    apply BitVec.eq_of_toNat_eq; simp
  unfold indexOperand
  rw [e]
  cases h : fitsU16 v <;> simp [eq_comm]

theorem indexOperand_eq_none {v : W64} : indexOperand v = none ↔ fitsU16 v = false := by
  unfold indexOperand; split <;> simp_all

theorem State.nmax_pos (s : State) : 1 ≤ s.nmax := by simp [State.nmax]

theorem State.nmax_le (s : State) : s.nmax ≤ 4096 := by
  have := s.nmaxCode.isLt
  simp only [State.nmax]; omega

/-- Every meaning answers a next state. -/
theorem exec_completes (i : Instr) (s : State) : ∃ t, exec i s = .next t := by
  cases i <;> exact ⟨_, rfl⟩

theorem accept_completes (c : Command) (s : State) : ∃ t, accept c s = .next t := by
  unfold accept
  split
  · exact exec_completes _ _
  · exact ⟨_, rfl⟩

/-- What one clock edge can do: reset, a waiting beat, the acceptance of a command, or nothing. -/
theorem step_cases (s : State) :
    (s.pinsNow.rst = true ∧ step s = .next s.tick.resetBlock) ∨
    (s.pinsNow.rst = false ∧ (∃ b bs, s.rsp = b :: bs ∧
      ((s.pinsNow.rspReady = true ∧
        step s = .next { s.tick with rsp := bs, sent := s.sent ++ [b] }) ∨
      (s.pinsNow.rspReady = false ∧ step s = .next s.tick)))) ∨
    (s.pinsNow.rst = false ∧ s.rsp = [] ∧ s.hung = true ∧ s.cmdReady = false ∧
      step s = .next s.tick) ∨
    (s.pinsNow.rst = false ∧ s.rsp = [] ∧ s.hung = false ∧ s.cmdReady = true ∧
      ((s.cmdq = [] ∧ step s = .next s.tick) ∨
      ∃ c rest, s.cmdq = c :: rest ∧ step s = accept c { s.tick with cmdq := rest })) := by
  rcases hr : s.pinsNow.rst with _ | _
  · rcases hq : s.rsp with _ | ⟨b, bs⟩
    · rcases hh : s.hung with _ | _
      · refine .inr (.inr (.inr ⟨rfl, rfl, rfl, by simp [State.cmdReady, *], ?_⟩))
        rcases hc : s.cmdq with _ | ⟨c, rest⟩
        · exact .inl ⟨rfl, by
            simp [step, clockEdge, State.rspValid, State.cmdReady, acceptNext, State.tick, *]⟩
        · exact .inr ⟨c, rest, rfl, by
            simp [step, clockEdge, State.rspValid, State.cmdReady, acceptNext, State.tick, *]⟩
      · exact .inr (.inr (.inl ⟨rfl, rfl, rfl, by simp [State.cmdReady, *], by
          simp [step, clockEdge, State.rspValid, State.cmdReady, *]⟩))
    · refine .inr (.inl ⟨rfl, b, bs, rfl, ?_⟩)
      rcases hp : s.pinsNow.rspReady with _ | _ <;>
        simp [step, clockEdge, State.rspValid, State.take, State.tick, *]
  · exact .inl ⟨rfl, by simp [step, clockEdge, hr]⟩

end Sys2Proof.Machine
end

