-- ==== Sys2Proof/Laws/Exec.lean ====
section
/-! SUPPORT. The three ways a command can end, said once for all thirteen: a fault, a completion, a hang. -/

namespace Sys2Proof.Machine

/-- `t` is `s` after a command that completed with these beats: `ERR`, the constants and the host's side
are as before; generator, cache, stages and the NaN count are free. -/
structure Completes (s t : State) (ys : List W64) (d : W64) : Prop where
  rsp : t.rsp = s.rsp ++ (ys.map dataBeat ++ [okBeat d])
  err : t.err = s.err
  nmaxCode : t.nmaxCode = s.nmaxCode
  hung : t.hung = s.hung
  cmdq : t.cmdq = s.cmdq
  pins : t.pins = s.pins
  sent : t.sent = s.sent
  known : t.known = s.known

/-- The command calls `next_normal`, so that it can hang (70_reset_and_hazards.md R181). -/
def CallsNormal (i : Instr) : Prop :=
  i = .nextNormal ∨ i = .nextColored ∨ (∃ n, i = .fillNormal n) ∨ ∃ n, i = .fillColored n

/-- `t` is `s` after a command that ended in one of the three ways. -/
def Ends (i : Instr) (s t : State) : Prop :=
  (∃ st, st ≠ .ok ∧ t = s.raise st) ∨
    (∃ ys, t = s.hang ys ∧ CallsNormal i ∧ ys.length ≤ dataBeats i) ∨
    ∃ ys d, ys.length = dataBeats i ∧ Completes s t ys d

theorem Ends.raise {i : Instr} {s : State} {st : Status} (h : st ≠ .ok) : Ends i s (s.raise st) :=
  .inl ⟨st, h, rfl⟩

theorem Ends.finish {i : Instr} {s u : State} {d : W64} (hd : dataBeats i = 0)
    (h : u = { s with gen := u.gen, cache := u.cache, stages := u.stages, draws := u.draws }) :
    Ends i s (u.finish d) := by
  refine .inr (.inr ⟨[], d, hd.symm, ?_⟩)
  rw [h]
  exact ⟨rfl, rfl, rfl, rfl, rfl, rfl, rfl, rfl⟩

/-- A single-sample command hangs only if its sampler does not return. -/
theorem Ends.answerOne {i : Instr} {s : State} {r : Option (W64 × Source)} (hd : dataBeats i = 0)
    (hn : r = none → CallsNormal i) : Ends i s (s.answerOne r) := by
  rcases r with _ | ⟨y, c⟩
  · exact .inr (.inl ⟨[], rfl, hn rfl, Nat.zero_le _⟩)
  · exact Ends.finish hd rfl

theorem Ends.answerFill {i : Instr} {s : State} {n : U32} {f : Source → Option (W64 × Source)}
    {c : Source} (hd : dataBeats i = n.toNat)
    (hn : (fill f n.toNat c).2 = none → CallsNormal i) :
    Ends i s (s.answerFill n (fill f n.toNat c)) := by
  rcases State.answerFill_cases s n (fill f n.toNat c) with ⟨h0, h⟩ | ⟨c', hc, h⟩
  · exact .inr (.inl ⟨_, h, hn h0, hd ▸ fill_length_le⟩)
  · rw [h]
    exact .inr (.inr ⟨_, _, (fill_length hc).trans hd.symm,
      ⟨rfl, rfl, rfl, rfl, rfl, rfl, rfl, rfl⟩⟩)

theorem Ends.ifSeeded {i : Instr} {s : State} {k : Words → State} (h : ∀ w, Ends i s (k w)) :
    Ends i s (s.ifSeeded k) := by
  rcases State.ifSeeded_cases s k with ⟨_, e⟩ | ⟨w, _, e⟩ <;> rw [e]
  · exact Ends.raise (by decide)
  · exact h w

theorem Ends.ifPlanned {i : Instr} {s k : State} (h : Ends i s k) : Ends i s (s.ifPlanned k) := by
  rcases State.ifPlanned_cases s k with ⟨_, e⟩ | ⟨_, e⟩ <;> rw [e]
  · exact Ends.raise (by decide)
  · exact h

/-- A FILL reads its count and ends in one of the three ways. -/
theorem Ends.ofCount {i : Instr} {s : State} {n : W64} {k : U32 → State}
    (h : ∀ m : U32, m.toNat = n.toNat → Ends i s (k m)) :
    Ends i s (match u32Operand n with
      | none => s.raise .badOperand
      | some m => k m) := by
  cases hn : u32Operand n with
  | none => exact Ends.raise (by decide)
  | some m =>
    obtain ⟨hf, rfl⟩ := u32Operand_eq_some.1 hn
    exact h _ (by have := (fitsU32_iff n).1 hf; simp; omega)

/-- Every command faults, hangs or completes (60_exceptions.md R151, 30_encoding.md R50,
70_reset_and_hazards.md R181). -/
theorem exec_ends {i : Instr} {s t : State} (h : exec i s = .next t) : Ends i s t := by
  cases i <;> simp only [exec, execSeed, execNextU32, execNextUniform, execFillUniform,
    execNextNormal, execFillNormal, execStep, execNumPoles, execPlan, execPlan1, execNextColored,
    execFillColored, execRd, Host.Outcome.next.injEq] at h <;> subst h
  case seed x y z w =>
    split
    · exact Ends.finish rfl rfl
    · exact Ends.raise (by decide)
  case nextU32 => exact Ends.ifSeeded fun w => Ends.answerOne rfl fun h => by cases h
  case nextUniform => exact Ends.ifSeeded fun w => Ends.answerOne rfl fun h => by cases h
  case fillUniform n =>
    exact Ends.ofCount fun m hm => Ends.ifSeeded fun w => Ends.answerFill hm.symm fun h =>
      absurd h (fill_total fun c h => by cases h)
  case nextNormal => exact Ends.ifSeeded fun w => Ends.answerOne rfl fun _ => .inl rfl
  case fillNormal n =>
    exact Ends.ofCount fun m hm => Ends.ifSeeded fun w =>
      Ends.answerFill hm.symm fun _ => .inr (.inr (.inl ⟨n, rfl⟩))
  case step x => exact Ends.ifPlanned (Ends.finish rfl rfl)
  case numPoles fmin fknee fsample =>
    split
    · split
      · exact Ends.raise (by decide)
      · split
        · exact Ends.finish rfl rfl
        · exact Ends.raise (by decide)
    · exact Ends.raise (by decide)
  case plan slope fmin fknee fsample =>
    split
    · split
      · exact Ends.raise (by decide)
      · split
        · exact Ends.finish rfl rfl
        · exact Ends.raise (by decide)
    · exact Ends.raise (by decide)
  case plan1 fmin fknee fsample =>
    split
    · exact Ends.finish rfl rfl
    · exact Ends.raise (by decide)
  case nextColored =>
    exact Ends.ifSeeded fun w => Ends.ifPlanned (Ends.answerOne rfl fun _ => .inr (.inl rfl))
  case fillColored n =>
    exact Ends.ofCount fun m hm => Ends.ifSeeded fun w =>
      Ends.ifPlanned (Ends.answerFill hm.symm fun _ => .inr (.inr (.inr ⟨n, rfl⟩)))
  case rd idx =>
    split
    · exact Ends.raise (by decide)
    · split
      · exact Ends.raise (by decide)
      · exact Ends.finish rfl rfl

/-- An accepted command too: an illegal one faults (60_exceptions.md R152). -/
theorem accept_ends {c : Command} {s t : State} (h : accept c s = .next t) :
    ∃ i, Ends i s t := by
  unfold accept at h
  split at h
  · exact ⟨_, exec_ends h⟩
  · cases h
    exact ⟨.nextU32, Ends.raise (by decide)⟩

end Sys2Proof.Machine
end

