-- ==== Sys2Proof/Laws/Float.lean ====
section
/-! SUPPORT. The binary64 format: every operator gives a datum of the format, and a datum of the format
survives being written as a pattern and read back. -/

namespace Sys2Proof

/-- The form every datum of the format has: subnormal or normal (40_numerics.md R70). -/
def Val.Canonical : Val → Prop
  | .fin _ m e => m < 2 ^ 52 ∧ e = -1074 ∨ 2 ^ 52 ≤ m ∧ m < 2 ^ 53 ∧ -1074 ≤ e ∧ e ≤ 971
  | _ => True

theorem Val.ofBits_canonical (b : W64) : (Val.ofBits b).Canonical := by
  have h1 := (b.extractLsb' 52 11).isLt
  have h2 := (b.extractLsb' 0 52).isLt
  unfold Val.ofBits
  dsimp only
  split
  · split <;> trivial
  · split
    · exact .inl ⟨h2, rfl⟩
    · simp only [Val.Canonical]; omega

theorem packFields_sign (neg : Bool) (ex fr : Nat) : (packFields neg ex fr).getLsbD 63 = neg := by
  unfold packFields
  rw [BitVec.getLsbD_append, if_neg (by decide), BitVec.getLsbD_append, if_neg (by decide)]
  cases neg <;> rfl

theorem packFields_exp {neg : Bool} {ex fr : Nat} (h : ex < 2 ^ 11) :
    ((packFields neg ex fr).extractLsb' 52 11).toNat = ex := by
  have : (packFields neg ex fr).extractLsb' 52 11 = BitVec.ofNat 11 ex := by
    apply BitVec.eq_of_getLsbD_eq
    intro i hi
    unfold packFields
    rw [BitVec.getLsbD_extractLsb', BitVec.getLsbD_append, if_neg (by omega), BitVec.getLsbD_append,
      if_pos (by omega), decide_eq_true hi, Bool.true_and, Nat.add_sub_cancel_left]
  rw [this, BitVec.toNat_ofNat, Nat.mod_eq_of_lt h]

theorem packFields_frac {neg : Bool} {ex fr : Nat} (h : fr < 2 ^ 52) :
    ((packFields neg ex fr).extractLsb' 0 52).toNat = fr := by
  have : (packFields neg ex fr).extractLsb' 0 52 = BitVec.ofNat 52 fr := by
    apply BitVec.eq_of_getLsbD_eq
    intro i hi
    unfold packFields
    rw [BitVec.getLsbD_extractLsb', BitVec.getLsbD_append, Nat.zero_add, if_pos (by omega),
      decide_eq_true hi, Bool.true_and]
  rw [this, BitVec.toNat_ofNat, Nat.mod_eq_of_lt h]

/-- What a pattern made of fields stands for. -/
theorem Val.ofBits_packFields {neg : Bool} {ex fr : Nat} (he : ex < 2 ^ 11) (hf : fr < 2 ^ 52) :
    Val.ofBits (packFields neg ex fr) =
      if ex = 2047 then (if fr = 0 then .inf neg else .nan)
      else if ex = 0 then .fin neg fr (-1074)
      else .fin neg (2 ^ 52 + fr) ((ex : Int) - 1075) := by
  unfold Val.ofBits
  rw [packFields_sign, packFields_exp he, packFields_frac hf]

/-- The pattern of a datum of the format stands for that datum. -/
theorem Val.ofBits_bits {free : W64} (hn : Val.ofBits free = .nan) {v : Val} (h : v.Canonical) :
    Val.ofBits (v.bits free) = v := by
  cases v with
  | nan => exact hn
  | inf neg => simp [Val.bits, Val.ofBits_packFields]
  | fin neg m e =>
    dsimp only [Val.bits]
    rcases h with ⟨hm, he⟩ | ⟨hm, hm', he, he'⟩
    · rw [if_pos hm, Val.ofBits_packFields (by decide) hm]
      simp [he]
    · rw [if_neg (by omega), Val.ofBits_packFields (by omega) (by omega), if_neg (by omega), if_neg (by omega)]
      rw [Nat.add_sub_cancel' hm, show (((e + 1075).toNat : Int) - 1075) = e by omega]

/-- Every NaN the block can write is a NaN (40_numerics.md R73). -/
@[simp] theorem Val.ofBits_nanAt (n : Nat) : Val.ofBits (nanAt n) = .nan := by
  obtain ⟨fr, h, hf⟩ : ∃ fr : BitVec 52, fr ≠ 0 ∧
      nanAt n = packFields ((Config.nanBits n).getLsbD 52) 2047 fr.toNat := by
    refine ⟨if (Config.nanBits n).extractLsb' 0 52 = 0 then 1
      else (Config.nanBits n).extractLsb' 0 52, ?_, ?_⟩
    · split
      · decide
      · assumption
    · unfold nanAt packFields
      rw [BitVec.ofNat_toNat, BitVec.setWidth_eq]
      rfl
  rw [hf, Val.ofBits_packFields (by decide) fr.isLt, if_pos rfl,
    if_neg fun h0 => h (BitVec.eq_of_toNat_eq (h0.trans rfl))]

theorem shiftRoundEven_le (m s : Nat) (st : Bool) : shiftRoundEven m s st ≤ m >>> s + 1 := by
  unfold shiftRoundEven; dsimp only; split <;> omega

theorem le_shiftRoundEven (m s : Nat) (st : Bool) : m >>> s ≤ shiftRoundEven m s st := by
  unfold shiftRoundEven; dsimp only; split <;> omega

/-- Rounding gives a datum of the format. -/
theorem Val.round_canonical (neg : Bool) (m : Nat) (e : Int) (st : Bool) :
    (Val.round neg m e st).Canonical := by
  unfold Val.round
  by_cases h0 : m = 0
  · simp [h0, Val.Canonical]
  rw [if_neg h0]
  have hl := Nat.log2_self_le h0
  have hu := Nat.lt_log2_self (n := m)
  generalize hL : m.log2 = L at *
  dsimp only
  generalize hd : max ((L : Int) - 52) (-1074 - e) = drop
  have key : (if drop ≤ 0 then m <<< (-drop).toNat else shiftRoundEven m drop.toNat st) ≤ 2 ^ 53 ∧
      (-1074 < e + drop → 2 ^ 52 ≤ (if drop ≤ 0 then m <<< (-drop).toNat else shiftRoundEven m drop.toNat st)) := by
    by_cases hdp : drop ≤ 0
    · rw [if_pos hdp, Nat.shiftLeft_eq]
      obtain ⟨k, hk⟩ : ∃ k : Nat, (-drop).toNat = k := ⟨_, rfl⟩
      rw [hk]
      have hLk : L + k ≤ 52 := by omega
      constructor
      · calc m * 2 ^ k ≤ 2 ^ (L + 1) * 2 ^ k := Nat.mul_le_mul_right _ hu.le
          _ = 2 ^ (L + 1 + k) := (pow_add _ _ _).symm
          _ ≤ 2 ^ 53 := Nat.pow_le_pow_right (by decide) (by omega)
      · intro h
        have : L + k = 52 := by omega
        calc 2 ^ 52 = 2 ^ L * 2 ^ k := by rw [← pow_add, this]
          _ ≤ m * 2 ^ k := Nat.mul_le_mul_right _ hl
    · rw [if_neg hdp]
      obtain ⟨s, hs⟩ : ∃ s : Nat, drop.toNat = s := ⟨_, rfl⟩
      rw [hs]
      have h1 := shiftRoundEven_le m s st
      have h2 := le_shiftRoundEven m s st
      rw [Nat.shiftRight_eq_div_pow] at h1 h2
      have hLs : L ≤ 52 + s := by omega
      have hup : m / 2 ^ s < 2 ^ 53 := by
        rw [Nat.div_lt_iff_lt_mul (by positivity), ← pow_add]
        exact lt_of_lt_of_le hu (Nat.pow_le_pow_right (by decide) (by omega))
      refine ⟨by omega, fun h => le_trans ?_ h2⟩
      have : L = 52 + s := by omega
      rw [Nat.le_div_iff_mul_le (by positivity), ← pow_add, ← this]
      exact hl
  generalize (if drop ≤ 0 then m <<< (-drop).toNat else shiftRoundEven m drop.toNat st) = q at *
  obtain ⟨k1, k2⟩ := key
  have hdl : -1074 ≤ e + drop := by omega
  by_cases hq : q = 2 ^ 53
  · rw [if_pos hq, if_pos hq]
    split
    · trivial
    · right; omega
  · rw [if_neg hq, if_neg hq]
    split
    · trivial
    · simp only [Val.Canonical]; omega

theorem Val.neg_canonical {a : Val} (h : a.Canonical) : a.neg.Canonical := by
  cases a <;> exact h

theorem Val.add_canonical {a b : Val} : (a.add b).Canonical := by
  cases a <;> cases b <;> simp only [Val.add] <;> first
    | exact Val.round_canonical _ _ _ _
    | trivial
    | (split <;> trivial)

theorem Val.zero_canonical (neg : Bool) : (Val.fin neg 0 (-1074)).Canonical :=
  .inl ⟨by decide, rfl⟩

theorem Val.mul_canonical {a b : Val} : (a.mul b).Canonical := by
  cases a <;> cases b <;> simp only [Val.mul] <;> first
    | exact Val.round_canonical _ _ _ _
    | trivial
    | (split <;> trivial)

theorem Val.div_canonical {a b : Val} : (a.div b).Canonical := by
  cases a <;> cases b <;> simp only [Val.div] <;> first
    | trivial
    | exact Val.zero_canonical _
    | skip
  split
  · split <;> trivial
  · split
    · exact Val.zero_canonical _
    · exact Val.round_canonical _ _ _ _

theorem Val.sqrt_canonical {a : Val} : a.sqrt.Canonical := by
  cases a <;> simp only [Val.sqrt]
  · trivial
  · split <;> trivial
  · split
    · exact Val.zero_canonical _
    · split
      · trivial
      · exact Val.round_canonical _ _ _ _

/-- A NaN operand gives a NaN (40_numerics.md R73). -/
@[simp] theorem Val.nan_add (a : Val) : Val.nan.add a = .nan := rfl
@[simp] theorem Val.add_nan (a : Val) : a.add .nan = .nan := by cases a <;> rfl
@[simp] theorem Val.nan_mul (a : Val) : Val.nan.mul a = .nan := rfl
@[simp] theorem Val.mul_nan (a : Val) : a.mul .nan = .nan := by cases a <;> rfl
@[simp] theorem Val.nan_div (a : Val) : Val.nan.div a = .nan := rfl
@[simp] theorem Val.div_nan (a : Val) : a.div .nan = .nan := by cases a <;> rfl

/-- A value that an operator gives survives being written and read back. -/
theorem Val.ofBits_bits_nanAt {v : Val} (h : v.Canonical) (n : Nat) :
    Val.ofBits (v.bits (nanAt n)) = v :=
  Val.ofBits_bits (Val.ofBits_nanAt n) h

end Sys2Proof
end

