-- ==== Sys2Proof/Laws/Cascade.lean ====
section
/-! SUPPORT. The cascade (43_single_pole.md R112, R114): one stage, and all of them in order. -/

namespace Sys2Proof.Machine

theorem stageOut_canonical (st : Stage) (x : W64) : (stageOut st x).Canonical :=
  Val.add_canonical

@[simp] theorem stageStep_coeffs (n : Nat) (st : Stage) (x : W64) :
    (stageStep n st x).2.coeffs = st.coeffs := rfl

/-- A stage keeps its input and its output (R112). -/
@[simp] theorem stageStep_x1 (n : Nat) (st : Stage) (x : W64) : (stageStep n st x).2.x1 = x := rfl
@[simp] theorem stageStep_y1 (n : Nat) (st : Stage) (x : W64) :
    (stageStep n st x).2.y1 = (stageStep n st x).1 := rfl

@[simp] theorem cascadeStep_nil (n : Nat) (v : W64) : cascadeStep n v [] = (v, []) := rfl

theorem cascadeStep_cons (n : Nat) (v : W64) (st : Stage) (rest : List Stage) :
    cascadeStep n v (st :: rest) =
      ((cascadeStep (n + 1) (stageStep n st v).1 rest).1,
        (stageStep n st v).2 :: (cascadeStep (n + 1) (stageStep n st v).1 rest).2) := rfl

@[simp] theorem cascadeStep_length (n : Nat) (v : W64) (l : List Stage) :
    (cascadeStep n v l).2.length = l.length := by
  induction l generalizing n v with
  | nil => rfl
  | cons st rest ih => simp [cascadeStep_cons, ih]

/-- The cascade keeps the coefficients (10_state.md R19). -/
@[simp] theorem cascadeStep_coeffs (n : Nat) (v : W64) (l : List Stage) :
    (cascadeStep n v l).2.map Stage.coeffs = l.map Stage.coeffs := by
  induction l generalizing n v with
  | nil => rfl
  | cons st rest ih => simp [cascadeStep_cons, ih]

/-- After the cascade has stepped, each stage's output is the next stage's input (R114). -/
theorem cascadeStep_chained (n : Nat) (v : W64) (l : List Stage) :
    chained (cascadeStep n v l).2 := by
  induction l generalizing n v with
  | nil => trivial
  | cons st rest ih =>
    cases rest with
    | nil => trivial
    | cons st' rest => exact ⟨rfl, ih _ _⟩

/-- Stages at rest agree with their neighbours. -/
theorem chained_of_rest {l : List Stage} (h : ∀ st ∈ l, st.x1 = 0 ∧ st.y1 = 0) : chained l := by
  induction l with
  | nil => trivial
  | cons a rest ih =>
    cases rest with
    | nil => trivial
    | cons b rest =>
      exact ⟨by rw [(h a (by simp)).2, (h b (by simp)).1],
        ih fun st hs => h st (List.mem_cons_of_mem _ hs)⟩

/-- The planner's loop makes as many stages as it is asked for (44_planner.md R124). -/
@[simp] theorem planLoop_length (k : Known) (dp h fsample : Val) (n r : Nat) (p : Val) :
    (planLoop k dp h fsample n r p).length = r := by
  induction r generalizing n p with
  | zero => rfl
  | succ r ih => simp [planLoop, ih]

/-- Every stage the planner makes is at rest (43_single_pole.md R110). -/
theorem planLoop_rest {k : Known} {dp h fsample : Val} {n r : Nat} {p : Val} {st : Stage}
    (hs : st ∈ planLoop k dp h fsample n r p) : st.x1 = 0 ∧ st.y1 = 0 := by
  induction r generalizing n p with
  | zero => simp [planLoop] at hs
  | succ r ih =>
    rcases List.mem_cons.1 hs with rfl | hs
    · exact ⟨rfl, rfl⟩
    · exact ih hs

end Sys2Proof.Machine
end

