-- ==== Sys2Proof/Laws/Generator.lean ====
section
/-! SUPPORT. The xor-shifts of the generator (40_numerics.md R66) lose nothing. -/

namespace Sys2Proof.Machine

/-- A word equal to its own left shift is zero. -/
theorem eq_zero_of_eq_shiftLeft {n k : Nat} (hk : 0 < k) {u : BitVec n} (h : u = u <<< k) :
    u = 0#n := by
  have bit : ∀ i, i < n → u.getLsbD i = false := by
    intro i
    induction i using Nat.strong_induction_on with
    | _ i ih =>
      intro hi
      rw [h, BitVec.getLsbD_shiftLeft]
      by_cases hik : i < k
      · simp [hik]
      · simp [ih (i - k) (by omega) (by omega)]
  apply BitVec.eq_of_getLsbD_eq
  intro i hi
  simp [bit i hi]

/-- A word equal to its own right shift is zero. -/
theorem eq_zero_of_eq_ushiftRight {n k : Nat} (hk : 0 < k) {u : BitVec n} (h : u = u >>> k) :
    u = 0#n := by
  have bit : ∀ d i, n - i = d → u.getLsbD i = false := by
    intro d
    induction d using Nat.strong_induction_on with
    | _ d ih =>
      intro i hd
      by_cases hi : i < n
      · rw [h, BitVec.getLsbD_ushiftRight]
        exact ih (n - (k + i)) (by omega) (k + i) rfl
      · exact BitVec.getLsbD_of_ge u i (by omega)
  apply BitVec.eq_of_getLsbD_eq
  intro i hi
  simp [bit _ i rfl]

theorem xor_cancel {n : Nat} {a b c d : BitVec n} (h : a ^^^ c = b ^^^ d) :
    a ^^^ b = c ^^^ d := by
  apply BitVec.eq_of_getLsbD_eq
  intro i hi
  have := congrArg (fun x => x.getLsbD i) h
  simp only [BitVec.getLsbD_xor] at this ⊢
  revert this
  cases a.getLsbD i <;> cases b.getLsbD i <;> cases c.getLsbD i <;> cases d.getLsbD i <;> simp

/-- `v ^ (v << k)` determines `v` (41_uniform.md R86, R88). -/
theorem xorShiftLeft_injective {n k : Nat} (hk : 0 < k) :
    Function.Injective fun v : BitVec n => v ^^^ (v <<< k) := by
  intro a b h
  have h2 : a ^^^ b = (a ^^^ b) <<< k := by
    rw [BitVec.shiftLeft_xor_distrib]; exact xor_cancel h
  exact BitVec.xor_eq_zero_iff.mp (eq_zero_of_eq_shiftLeft hk h2)

/-- `v ^ (v >> k)` determines `v` (41_uniform.md R86, R88). -/
theorem xorShiftRight_injective {n k : Nat} (hk : 0 < k) :
    Function.Injective fun v : BitVec n => v ^^^ (v >>> k) := by
  intro a b h
  have h2 : a ^^^ b = (a ^^^ b) >>> k := by
    rw [BitVec.ushiftRight_xor_distrib]; exact xor_cancel h
  exact BitVec.xor_eq_zero_iff.mp (eq_zero_of_eq_ushiftRight hk h2)

/-- One repetition of the scramble loses nothing. -/
theorem twiddleRound_injective : Function.Injective twiddleRound := by
  have e : twiddleRound = (fun v : U32 => v ^^^ (v <<< 5)) ∘ (fun v : U32 => v ^^^ (v >>> 17)) ∘
      (fun v : U32 => v ^^^ (v <<< 13)) := rfl
  rw [e]
  exact (xorShiftLeft_injective (by decide)).comp
    ((xorShiftRight_injective (by decide)).comp (xorShiftLeft_injective (by decide)))

@[simp] theorem nextWords_s0 (w : Words) : (nextWords w).s0 = w.s1 := rfl
@[simp] theorem nextWords_s1 (w : Words) : (nextWords w).s1 = w.s2 := rfl
@[simp] theorem nextWords_s2 (w : Words) : (nextWords w).s2 = w.s3 := rfl

/-- The update keeps a state that is not all zero (10_state.md R23). -/
theorem nextWords_ne_zero {w : Words} (h : w ≠ ⟨0, 0, 0, 0⟩) : nextWords w ≠ ⟨0, 0, 0, 0⟩ := by
  obtain ⟨a, b, c, d⟩ := w
  intro hz
  apply h
  simp only [nextWords, Words.mk.injEq] at hz
  obtain ⟨rfl, rfl, rfl, h3⟩ := hz
  have z : ∀ v : U32, v ^^^ (v >>> 8) = 0 → v = 0 := fun v hv =>
    xorShiftRight_injective (k := 8) (by decide) (a₁ := v) (a₂ := 0) (by simpa using hv)
  have y : ∀ v : U32, v ^^^ (v <<< 11) = 0 → v = 0 := fun v hv =>
    xorShiftLeft_injective (k := 11) (by decide) (a₁ := v) (a₂ := 0) (by simpa using hv)
  have h3' : (a ^^^ (a <<< 11)) ^^^ ((a ^^^ (a <<< 11)) >>> 8) = 0 := by simpa using h3
  simp [y a (z _ h3')]

end Sys2Proof.Machine
end

