-- ==== Sys2Proof/Laws/PerInstr.lean ====
section
/-! SUPPORT. Per command: encoding then decoding a command gives it back. -/

namespace Sys2Proof

/-- A command word that is an opcode with a zero `RSV` field selects by that opcode. -/
theorem decode_of_opcode {c : Command} {i : Instr} (opc : BitVec 8) (h : c.cw = cwOf opc)
    (hi : decodeOpcode opc.toNat c = some i) : decode c = .ok i := by
  have e : (cwOf opc).extractLsb' 8 24 = 0 := by
    apply BitVec.eq_of_getLsbD_eq
    intro i hi
    simp [cwOf, hi]
  have e' : (cwOf opc).extractLsb' 0 8 = opc := by
    apply BitVec.eq_of_getLsbD_eq
    intro i hi
    simp [cwOf, hi, show i < 32 by omega]
  rw [decode, h, e, e', if_pos rfl, hi]

end Sys2Proof

namespace Sys2Proof.Laws.RoundTrip

/-- Decoding the encoding of the command gives the command, every operand word as it was. -/
def Statement (i : Instr) : Prop := decode (encode i) = .ok i

theorem seed (x y z w : W64) : Statement (.seed x y z w) :=
  decode_of_opcode 0x10 rfl rfl
theorem nextU32 : Statement .nextU32 :=
  decode_of_opcode 0x11 rfl rfl
theorem nextUniform : Statement .nextUniform :=
  decode_of_opcode 0x12 rfl rfl
theorem fillUniform (n : W64) : Statement (.fillUniform n) :=
  decode_of_opcode 0x13 rfl rfl
theorem nextNormal : Statement .nextNormal :=
  decode_of_opcode 0x20 rfl rfl
theorem fillNormal (n : W64) : Statement (.fillNormal n) :=
  decode_of_opcode 0x21 rfl rfl
theorem step (x : W64) : Statement (.step x) :=
  decode_of_opcode 0x30 rfl rfl
theorem numPoles (fmin fknee fsample : W64) : Statement (.numPoles fmin fknee fsample) :=
  decode_of_opcode 0x40 rfl rfl
theorem plan (slope fmin fknee fsample : W64) : Statement (.plan slope fmin fknee fsample) :=
  decode_of_opcode 0x41 rfl rfl
theorem plan1 (fmin fknee fsample : W64) : Statement (.plan1 fmin fknee fsample) :=
  decode_of_opcode 0x42 rfl rfl
theorem nextColored : Statement .nextColored :=
  decode_of_opcode 0x50 rfl rfl
theorem fillColored (n : W64) : Statement (.fillColored n) :=
  decode_of_opcode 0x51 rfl rfl
theorem rd (idx : W64) : Statement (.rd idx) :=
  decode_of_opcode 0x60 rfl rfl

end Sys2Proof.Laws.RoundTrip
end

