-- ==== Sys2Proof/Laws/Trials.lean ====
section
/-! SUPPORT. The rejection loop of 42_gaussian.md R101, and why looking at `trialBound` trials is looking
at all of them (R105, 70_reset_and_hazards.md R181). -/

namespace Sys2Proof.Machine

/-- The search finds the start of the first accepted trial among the first `n`. -/
theorem firstAccepted_eq_some {n : Nat} {w v : Words} :
    firstAccepted n w = some v ↔
      ∃ k < n, v = afterTrial^[k] w ∧ rejected v = false ∧
        ∀ j < k, rejected (afterTrial^[j] w) = true := by
  induction n generalizing w with
  | zero => simp [firstAccepted]
  | succ n ih =>
    unfold firstAccepted
    by_cases hr : rejected w = true
    · simp only [hr, if_true, ih]
      constructor
      · rintro ⟨k, hk, hv, ha, hj⟩
        refine ⟨k + 1, by omega, by simpa using hv, ha, ?_⟩
        intro j hj'
        cases j with
        | zero => simpa using hr
        | succ j => simpa using hj j (by omega)
      · rintro ⟨k, hk, hv, ha, hj⟩
        cases k with
        | zero => simp at hv; simp [hv, hr] at ha
        | succ k =>
          exact ⟨k, by omega, by simpa using hv, ha, fun j h => by simpa using hj (j + 1) (by omega)⟩
    · have hr' : rejected w = false := by simpa using hr
      simp only [hr', Bool.false_eq_true, if_false, Option.some.injEq]
      constructor
      · rintro rfl
        exact ⟨0, by omega, rfl, hr', by simp⟩
      · rintro ⟨k, -, hv, -, hj⟩
        cases k with
        | zero => simpa using hv.symm
        | succ k => have := hj 0 (by omega); simp [hr'] at this

/-- The search fails when the first `n` trials are all rejected. -/
theorem firstAccepted_eq_none {n : Nat} {w : Words} :
    firstAccepted n w = none ↔ ∀ j < n, rejected (afterTrial^[j] w) = true := by
  induction n generalizing w with
  | zero => simp [firstAccepted]
  | succ n ih =>
    unfold firstAccepted
    by_cases hr : rejected w = true
    · simp only [hr, if_true, ih]
      constructor
      · intro h j hj
        cases j with
        | zero => simpa using hr
        | succ j => simpa using h j (by omega)
      · intro h j hj
        simpa using h (j + 1) (by omega)
    · have hr' : rejected w = false := by simpa using hr
      simp only [hr', Bool.false_eq_true, if_false, reduceCtorEq, false_iff]
      intro h
      have := h 0 (by omega)
      simp [hr'] at this

/-- In a type with at most `n` elements every iterate is one of the first `n`. -/
theorem iterate_eq_earlier {α : Type} {n : Nat} (code : α → Fin n) (inj : Function.Injective code)
    (f : α → α) (a : α) (k : Nat) : ∃ j < n, f^[j] a = f^[k] a := by
  induction k using Nat.strong_induction_on with
  | _ k ih =>
    by_cases hk : k < n
    · exact ⟨k, hk, rfl⟩
    · have hit : ∃ x y : Nat, x < y ∧ y ≤ n ∧ f^[x] a = f^[y] a := by
        obtain ⟨x, y, hne, hxy⟩ := Fintype.exists_ne_map_eq_of_card_lt
          (fun i : Fin (n + 1) => code (f^[i.val] a)) (by simp)
        rcases Nat.lt_or_gt_of_ne (fun h => hne (Fin.ext h)) with h | h
        · exact ⟨x, y, h, by omega, inj hxy⟩
        · exact ⟨y, x, h, by omega, inj hxy.symm⟩
      obtain ⟨x, y, hlt, hy, hxy⟩ := hit
      obtain ⟨j, hj, he⟩ := ih (k - (y - x)) (by omega)
      refine ⟨j, hj, he.trans ?_⟩
      have e1 : k - (y - x) = (k - y) + x := by omega
      have e2 : k = (k - y) + y := by omega
      rw [e1, Function.iterate_add_apply, hxy, ← Function.iterate_add_apply, ← e2]

/-- The generator has 2^128 states. -/
theorem exists_wordsCode : ∃ code : Words → Fin (2 ^ 128), Function.Injective code := by
  refine ⟨fun w => ⟨((w.s0.toNat * 2 ^ 32 + w.s1.toNat) * 2 ^ 32 + w.s2.toNat) * 2 ^ 32 + w.s3.toNat,
    by have := w.s0.isLt; have := w.s1.isLt; have := w.s2.isLt; have := w.s3.isLt; omega⟩, ?_⟩
  rintro ⟨a, b, c, d⟩ ⟨a', b', c', d'⟩ h
  simp only [Fin.mk.injEq] at h
  have := a.isLt; have := b.isLt; have := c.isLt; have := d.isLt
  have := a'.isLt; have := b'.isLt; have := c'.isLt; have := d'.isLt
  simp only [Words.mk.injEq, BitVec.toNat_eq]
  omega

/-- `trialBound` trials decide whether any trial is ever accepted: the model's bound is no bound. -/
theorem firstAccepted_trialBound_eq_none {w : Words} :
    firstAccepted trialBound w = none ↔ ∀ k, rejected (afterTrial^[k] w) = true := by
  rw [firstAccepted_eq_none]
  constructor
  · intro h k
    obtain ⟨code, inj⟩ := exists_wordsCode
    obtain ⟨j, hj, he⟩ := iterate_eq_earlier code inj afterTrial w k
    exact he ▸ h j hj
  · exact fun h j _ => h j

end Sys2Proof.Machine
end

