-- ==== Sys2Proof/Tests/Slice0.lean ====
section
/-! SUPPORT. Tests. Expected values are those of spec/95_test_vectors.md (V numbers) and of the worked
examples in the rules. A theorem `test_witness_X` shows states and operands that meet all the hypotheses of
the statement X. -/

namespace Sys2Proof.Tests

open Sys2Proof.Machine

-- One theorem at a time: a hundred kernel evaluations at once exhaust the threads.
set_option Elab.async false

/-! ### Operand formats: the ill-formed term each check refuses -/

theorem test_ill_formed_seed_a : (Instr.seed 0x100000000 2 3 4).wellFormed = false := by decide
theorem test_ill_formed_seed_b : (Instr.seed 1 0x8000000000000000 3 4).wellFormed = false := by decide
theorem test_ill_formed_seed_c : (Instr.seed 1 2 0x100000003 4).wellFormed = false := by decide
theorem test_ill_formed_seed_d : (Instr.seed 1 2 3 0xFFFFFFFF00000000).wellFormed = false := by decide
theorem test_ill_formed_fillUniform : (Instr.fillUniform 0x100000000).wellFormed = false := by decide
theorem test_ill_formed_fillNormal : (Instr.fillNormal 0x100000000).wellFormed = false := by decide
theorem test_ill_formed_fillColored : (Instr.fillColored 0x100000000).wellFormed = false := by decide
theorem test_ill_formed_rd : (Instr.rd 0x10000).wellFormed = false := by decide
theorem test_well_formed_at_the_limits :
    (Instr.seed 0xFFFFFFFF 0 0 0xFFFFFFFF).wellFormed = true ∧
    (Instr.fillUniform 0xFFFFFFFF).wellFormed = true ∧ (Instr.rd 0xFFFF).wellFormed = true ∧
    (Instr.step 0xFFFFFFFFFFFFFFFF).wellFormed = true := by decide

/-! ### Decoding: command words written out from 30_encoding.md R47, R52 -/

/-- A command whose operand words are 1, 2, 3, 4. -/
def cmd (cw : U32) : Command := ⟨cw, 1, 2, 3, 4⟩

theorem test_decode_seed :
    decode (cmd 0b00000000000000000000000000010000) = .ok (.seed 1 2 3 4) := by decide
theorem test_decode_nextU32 :
    decode (cmd 0b00000000000000000000000000010001) = .ok .nextU32 := by decide
theorem test_decode_nextUniform :
    decode (cmd 0b00000000000000000000000000010010) = .ok .nextUniform := by decide
theorem test_decode_fillUniform :
    decode (cmd 0b00000000000000000000000000010011) = .ok (.fillUniform 1) := by decide
theorem test_decode_nextNormal :
    decode (cmd 0b00000000000000000000000000100000) = .ok .nextNormal := by decide
theorem test_decode_fillNormal :
    decode (cmd 0b00000000000000000000000000100001) = .ok (.fillNormal 1) := by decide
theorem test_decode_step :
    decode (cmd 0b00000000000000000000000000110000) = .ok (.step 1) := by decide
theorem test_decode_numPoles :
    decode (cmd 0b00000000000000000000000001000000) = .ok (.numPoles 1 2 3) := by decide
theorem test_decode_plan :
    decode (cmd 0b00000000000000000000000001000001) = .ok (.plan 1 2 3 4) := by decide
theorem test_decode_plan1 :
    decode (cmd 0b00000000000000000000000001000010) = .ok (.plan1 1 2 3) := by decide
theorem test_decode_nextColored :
    decode (cmd 0b00000000000000000000000001010000) = .ok .nextColored := by decide
theorem test_decode_fillColored :
    decode (cmd 0b00000000000000000000000001010001) = .ok (.fillColored 1) := by decide
theorem test_decode_rd :
    decode (cmd 0b00000000000000000000000001100000) = .ok (.rd 1) := by decide
theorem test_decode_opcode_zero : decode (cmd 0x00000000) = .error .unknownOpcode := by decide
theorem test_decode_opcode_neighbour : decode (cmd 0x00000014) = .error .unknownOpcode := by decide
theorem test_decode_reserved_low : decode (cmd 0x00000110) = .error .reservedBits := by decide
theorem test_decode_reserved_high : decode (cmd 0x80000060) = .error .reservedBits := by decide
theorem test_decode_table_word :
    decodeTableWord 288 (0x41 + 7 * 2 ^ 32 + 8 * 2 ^ 96 + 9 * 2 ^ 160 + 10 * 2 ^ 224) =
      some (.plan 7 8 9 10) := by decide +kernel
theorem test_pseudo_rd_stage :
    (Pseudo.rdSt 2 .y1).expand = .rd 0x0114 ∧ Pseudo.seedDef.expand = .seed 0 0 0 0 ∧
    Pseudo.rdNmax.expand = .rd 8 := by decide

/-! ### Small states -/

/-- The state an outcome leaves. -/
def after : Host.Outcome State Fault Refusal → Option State
  | .next t => some t
  | _ => none

/-- The last beat an outcome leaves on the port. -/
def answer (o : Host.Outcome State Fault Refusal) : Option Beat := (after o).bind (·.rsp.getLast?)

/-- A block with `NMAX` = 8 and a few points of the reference functions (V6a, V12, V4). -/
def block : State :=
  { State.reset with
    nmaxCode := 7
    known := ⟨[(0x3FEF6C88B02A65B1, 0xBF9299E75F6F31BA)],
      [(0x3FB015BF9217271A, 0xBFF33AA7BF113891), (0x401921FB54442D18, 0x3FE98AB081DD8EDD),
        (0x4059000000000000, 0x4000000000000000), (0x400921FB54442D18, 0x3FDFD14DB31BA3BB),
        (0x4004000000000000, 0x3FD977D95EC10C02)],
      [(0xBFF33AA7BF113891, 0x3FB015BF9217271B), (0xBFEBCAA4D377C678, 0x3FC153B5BD0B990E)]⟩ }

/-- The words SEED 1, 2, 3, 4 leaves (V1a). -/
def words : Words := ⟨0xD4C8BDF6, 0x0351495A, 0x4AAADE6B, 0xE6A3D592⟩

def seeded : State := { block with gen := .seeded words }

/-- The stage of PLAN1 0.01, 1.0, 100.0 (V10a). -/
def stage : Stage := ⟨0x3FF07F5A530B9033, 0xBFEEFC2615E867FE, 0x3FEFFADABBFF8865, 0, 0⟩

def planned : State := { seeded with stages := [stage] }

/-- The block with a cached deviate (V6, after call 1). -/
def cached : State := { planned with cache := .full 0xBF8B6F3948B6E645 }

/-- 0.01, 1.0, 100.0 (V12). -/
def fmin : W64 := 0x3F847AE147AE147B
def fknee : W64 := 0x3FF0000000000000
def fsample : W64 := 0x4059000000000000

/-! ### One step of each command -/

/-- V1a. -/
theorem test_seed : (after (exec (.seed 1 2 3 4) block)).map (·.gen) = some (.seeded words) := by
  decide +kernel
/-- V1c: substitution is per word. -/
theorem test_seed_zeros : (after (exec (.seed 0 2 0 4) cached)).map (fun t => (t.gen, t.cache)) =
    some (.seeded ⟨0xC3F9D65F, 0xA162073E, 0x159E2F5D, 0xF4978B6B⟩, .empty) := by decide +kernel
/-- V2, draw 1. -/
theorem test_nextU32 : answer (exec .nextU32 seeded) = some (okBeat 0x7715E3BD) := by decide +kernel
/-- V2, draw 1. -/
theorem test_nextUniform :
    answer (exec .nextUniform seeded) = some (okBeat 0x3FDDC578EF400000) := by decide +kernel
/-- V5: the conversion at its extremes. -/
theorem test_uniform_extremes : (uniformOf 0).bits 0 = 0 ∧
    (uniformOf 1).bits 0 = 0x3DF0000000000000 ∧
    (uniformOf 0xFFFFFFFF).bits 0 = 0x3FEFFFFFFFE00000 := by decide +kernel
/-- V5b. -/
theorem test_fillUniform : (after (exec (.fillUniform 2) seeded)).map (·.rsp) =
    some [dataBeat 0x3FDDC578EF400000, dataBeat 0x3FEFD0EDF3800000, okBeat 2] := by decide +kernel
/-- V5b: the precondition is tested even when n = 0, the operand format before it. -/
theorem test_fillUniform_faults :
    answer (exec (.fillUniform 0) block) = some (faultBeat .notSeeded) ∧
    answer (exec (.fillUniform 0x100000000) block) = some (faultBeat .badOperand) := by decide +kernel
/-- V6, call 1. -/
theorem test_nextNormal : (after (exec .nextNormal seeded)).map (fun t => (t.rsp, t.cache, t.gen)) =
    some ([okBeat 0x3FC85650E5B4FED7], .full 0xBF8B6F3948B6E645,
      .seeded ⟨0x4AAADE6B, 0xE6A3D592, 0x7715E3BD, 0xFE876F9C⟩) := by decide +kernel
/-- V6, call 2. -/
theorem test_nextNormal_cached : (after (exec .nextNormal cached)).map (fun t => (t.rsp, t.cache, t.gen)) =
    some ([okBeat 0xBF8B6F3948B6E645], .empty, .seeded words) := by decide +kernel
/-- V7b. -/
theorem test_fillNormal : (after (exec (.fillNormal 2) seeded)).map (·.rsp) =
    some [dataBeat 0x3FC85650E5B4FED7, dataBeat 0xBF8B6F3948B6E645, okBeat 2] := by decide +kernel
/-- V10, i = 0. -/
theorem test_step : (after (exec (.step 0x3FF0000000000000) planned)).map (fun t => (t.rsp, t.stages)) =
    some ([okBeat 0x3FF07F5A530B9033],
      [{ stage with x1 := 0x3FF0000000000000, y1 := 0x3FF07F5A530B9033 }]) := by decide +kernel
/-- V10c: overflow is no fault; the smallest subnormal. -/
theorem test_step_corners :
    answer (exec (.step 0x7FEFFFFFFFFFFFFF) planned) = some (okBeat 0x7FF0000000000000) ∧
    answer (exec (.step 1) planned) = some (okBeat 1) ∧
    answer (exec (.step 0x8000000000000000) planned) = some (okBeat 0) := by decide +kernel
/-- V12, row 1. -/
theorem test_numPoles : answer (exec (.numPoles fmin fknee fsample) block) = some (okBeat 6) := by
  decide +kernel
/-- V12: fsample = 2·fknee is refused, and fmin = +0.0. -/
theorem test_numPoles_invalid :
    answer (exec (.numPoles fmin fknee 0x4000000000000000) block) = some (faultBeat .invalidConfig) ∧
    answer (exec (.numPoles 0 fknee fsample) block) = some (faultBeat .invalidConfig) := by
  decide +kernel
/-- V4, stage 0. -/
theorem test_plan : ((after (exec (.plan 0xC000000000000000 fmin fknee fsample) block)).bind
      fun t => t.stages.head?) =
    some ⟨0x3FF0017C2C9DF84A, 0xBFEFF7E262C397D1, 0x3FEFFADABBFF8865, 0, 0⟩ := by decide +kernel
theorem test_plan_count : (after (exec (.plan 0xC000000000000000 fmin fknee fsample) block)).map
      (fun t => (t.stages.length, t.rsp)) = some (6, [okBeat 6]) := by decide +kernel
/-- V10a. -/
theorem test_plan1 : (after (exec (.plan1 fmin fknee fsample) cached)).map
      (fun t => (t.stages, t.rsp, t.cache)) =
    some ([stage], [okBeat 1], .full 0xBF8B6F3948B6E645) := by decide +kernel
/-- 45_colored.md R135: the cached deviate is filtered and the cache emptied. -/
theorem test_nextColored : (after (exec .nextColored cached)).map
      (fun t => (t.cache, t.stages.map (·.x1))) = some (.empty, [0xBF8B6F3948B6E645]) := by
  decide +kernel
/-- 45_colored.md R137: what a FILL of one sends is what NEXT_COLORED answers. -/
theorem test_fillColored : (after (exec (.fillColored 1) planned)).map (·.rsp) =
    (answer (exec .nextColored planned)).map (fun b => [dataBeat b.data, okBeat 1]) := by
  decide +kernel
/-- 10_state.md R28: GSTAT with both flags, NMAX, and a field of stage 0. -/
theorem test_rd : answer (exec (.rd 4) cached) = some (okBeat 3) ∧
    answer (exec (.rd 8) cached) = some (okBeat 8) ∧
    answer (exec (.rd 0x102) cached) = some (okBeat 0x3FEFFADABBFF8865) := by decide +kernel
/-- 10_state.md R28: indices 5 to 7 of a stage are unmapped; a stage beyond NSTAGE has no value. -/
theorem test_rd_faults : answer (exec (.rd 0x105) cached) = some (faultBeat .badOperand) ∧
    answer (exec (.rd 0x13C) cached) = some (faultBeat .noValue) ∧
    answer (exec (.rd 0x140) cached) = some (faultBeat .badOperand) := by decide +kernel

/-- The first command after reset runs, and its beat then leaves. -/
theorem test_first_command : (runSteps 2 (State.reset.withFetchWord 32 0x11)).map
      (fun t => (t.sent, t.rsp, t.err)) = some ([faultBeat .notSeeded], [], 0x08) := by decide +kernel

/-! ### Witnesses: the hypotheses of each statement are met -/

/-- The block with one command on the port. -/
def presented (c : Command) : State := { planned with cmdq := [c] }

/-- The block at an edge with these pins, with two beats waiting. -/
def waiting (rst ready : Bool) : State :=
  { planned with rsp := [dataBeat 5, okBeat 1], pins := [⟨rst, ready⟩] }

/-- A block in a rejection loop that never accepts, with a beat of it waiting. -/
def stuck : State := { seeded with hung := true, rsp := [dataBeat 5] }

/-- The all-zero words, which no run reaches (10_state.md R23), are a state whose trials never end. -/
def zeroWords : State := { block with gen := .seeded ⟨0, 0, 0, 0⟩ }

theorem hangs : exec .nextNormal zeroWords = .next (zeroWords.hang []) := by
  have loop : ∀ k, afterTrial^[k] ⟨0, 0, 0, 0⟩ = ⟨0, 0, 0, 0⟩ := fun k =>
    Function.iterate_fixed (by decide) k
  have never : firstAccepted trialBound ⟨0, 0, 0, 0⟩ = none :=
    firstAccepted_trialBound_eq_none.2 fun k => by rw [loop k]; decide +kernel
  have hs : sampleNormal block.known (block.source ⟨0, 0, 0, 0⟩) = none := by
    unfold sampleNormal
    rw [show (block.source ⟨0, 0, 0, 0⟩).cache = .empty from rfl]
    dsimp only
    rw [State.source_words, never]
    rfl
  unfold exec execNextNormal
  rw [State.ifSeeded_seeded (w := ⟨0, 0, 0, 0⟩) rfl]
  exact congrArg (fun r => Host.Outcome.next (State.answerOne _ r)) hs

theorem test_witness_IllegalWordsFault :
    (cmd 0x00000000).cw ∉ matchValues ∧ (cmd 0x00000110).cw ∉ matchValues ∧
    (cmd 0x00000061).cw ∉ matchValues ∧ (cmd 0xFFFFFFFF).cw ∉ matchValues := by decide

theorem test_witness_UnusedWordsAreIgnored : ∃ (c c' : Command) (i : Instr), c ≠ c' ∧
    decode c = .ok i ∧ c'.firstWords i.usedWords = c.firstWords i.usedWords :=
  ⟨⟨0x13, 1, 2, 3, 4⟩, ⟨0x13, 1, 5, 6, 7⟩, .fillUniform 1, by decide⟩

theorem test_witness_StepRunsTheDecodedCommand : ∃ (s : State) (c : Command) (rest : List Command)
    (i : Instr), s.cmdReady = true ∧ s.cmdq = c :: rest ∧ decode c = .ok i :=
  ⟨presented (cmd 0x12), cmd 0x12, [], .nextUniform, by decide +kernel⟩

theorem test_witness_ResetFromEveryState : ∃ s t : State, s.pinsNow.rst = true ∧
    step s = .next t ∧ t.pinsNow.rst = false :=
  ⟨{ stuck with pins := [⟨true, true⟩] }, _, by decide +kernel, rfl, by decide +kernel⟩

theorem test_witness_BeatIsTakenOrHeld :
    (∃ (s : State) (b : Beat) (bs : List Beat), s.pinsNow.rst = false ∧ s.rsp = b :: bs ∧
      s.pinsNow.rspReady = true) ∧
    ∃ (s : State) (b : Beat) (bs : List Beat), s.pinsNow.rst = false ∧ s.rsp = b :: bs ∧
      s.pinsNow.rspReady = false :=
  ⟨⟨waiting false true, _, _, by decide +kernel, rfl, by decide +kernel⟩,
    ⟨waiting false false, _, _, by decide +kernel, rfl, by decide +kernel⟩⟩

theorem test_witness_PresentedCommandWaits :
    (∃ s t : State, step s = .next t ∧ s.cmdReady = false ∧ s.cmdq ≠ []) ∧
    ∃ s t : State, step s = .next t ∧ s.cmdReady = true ∧ s.cmdq ≠ [] :=
  ⟨⟨{ waiting false false with cmdq := [cmd 0x11] }, _, rfl, by decide +kernel⟩,
    ⟨presented (cmd 0x11), _, rfl, by decide +kernel⟩⟩

theorem test_witness_BeatsLeaveInOrder :
    (∃ s t : State, s.pinsNow.rst = false ∧ step s = .next t ∧ t.rsp ≠ s.rsp) ∧
    ∃ s t : State, runSteps 2 s = some t ∧ t.sent ≠ s.sent :=
  ⟨⟨presented (cmd 0x11), _, by decide +kernel, rfl, by decide +kernel⟩,
    ⟨presented (cmd 0x11), _, rfl, by decide +kernel⟩⟩

theorem test_witness_FaultChangesOnlyErr : ∃ (i : Instr) (s t : State) (bs : List Beat)
    (st : Status) (d : W64), exec i s = .next t ∧ t.rsp = s.rsp ++ bs ++ [⟨.done, st, d⟩] ∧ st ≠ .ok :=
  ⟨.nextU32, block, _, [], .notSeeded, 0, rfl, by decide +kernel⟩

/-- The last state is one that hangs: the all-zero words, which no run reaches (10_state.md R23). -/
theorem test_witness_ResponseShape : (∃ (i : Instr) (s t : State), s.hung = false ∧
    exec i s = .next t ∧ t.rsp.length = 3) ∧
    ∃ (i : Instr) (s t : State), s.hung = false ∧ exec i s = .next t ∧ t.hung = true :=
  ⟨⟨.fillUniform 2, seeded, _, rfl, rfl, by decide +kernel⟩, ⟨.nextNormal, _, _, rfl, hangs, rfl⟩⟩

theorem test_witness_ErrIsSticky :
    (∃ (c : Command) (s t : State) (bs : List Beat) (st : Status) (d : W64), accept c s = .next t ∧
      t.rsp = s.rsp ++ bs ++ [⟨.done, st, d⟩] ∧ st ≠ .ok) ∧
    (∃ s t : State, step s = .next t ∧ s.pinsNow.rst = false ∧ s.err.getLsbD 7 = true) ∧
    (∃ s t : State, step s = .next t ∧ s.pinsNow.rst = true ∧ s.err ≠ 0) ∧
    ∃ s t : State, step s = .next t ∧ s.err.getLsbD 0 = false ∧ t.err ≠ s.err :=
  ⟨⟨⟨0x60, 0, 0, 0, 0⟩, block, _, [], .noValue, 0, rfl, by decide +kernel⟩,
    ⟨{ presented (cmd 0x11) with err := 0x80 }, _, rfl, by decide +kernel⟩,
    ⟨{ waiting true true with err := 0x82 }, _, rfl, by decide +kernel⟩,
    ⟨presented (cmd 0x14), _, rfl, by decide +kernel⟩⟩

theorem test_witness_DrawsNeedASeed : block.gen = .unseeded ∧ (0 : W64).toNat < 2 ^ 32 ∧
    (0xFFFFFFFF : W64).toNat < 2 ^ 32 := by decide +kernel

theorem test_witness_FiltersNeedACascade : seeded.stages = [] ∧ seeded.gen = .seeded words ∧
    (0 : W64).toNat < 2 ^ 32 ∧ (0xFFFFFFFF : W64).toNat < 2 ^ 32 := by decide +kernel

theorem test_witness_BadOperandFaults :
    (Instr.rd 0x10000).wellFormed = false ∧ (Instr.fillColored 0x100000000).wellFormed = false ∧
    (9 ≤ (0x9 : W64).toNat ∧ (0xFF : W64).toNat < 0x100) ∧
    (0x100 ≤ (0x105 : W64).toNat ∧ 5 ≤ ((0x105 : W64).toNat - 0x100) % 8) ∧
    (0x100 ≤ (0x140 : W64).toNat ∧ block.nmax ≤ ((0x140 : W64).toNat - 0x100) / 8 ∧
      (0xFFFF : W64).toNat < 2 ^ 16) ∧
    (∃ t : State, (Instr.step 0xFFFFFFFFFFFFFFFF).wellFormed = true ∧
      exec (.step 0xFFFFFFFFFFFFFFFF) planned = .next t) ∧
    ∃ t : State, (Instr.rd 0x13C).wellFormed = true ∧ (0x100 ≤ (0x13C : W64).toNat ∧
      ((0x13C : W64).toNat - 0x100) % 8 < 5 ∧ ((0x13C : W64).toNat - 0x100) / 8 < planned.nmax) ∧
      exec (.rd 0x13C) planned = .next t :=
  ⟨by decide +kernel, by decide +kernel, by decide +kernel, by decide +kernel, by decide +kernel,
    ⟨_, by decide, rfl⟩, ⟨_, by decide, by decide +kernel, rfl⟩⟩

/-- The block with `fn_log10` of 2·π·1.0, of 2·π·0.01 and of 100.0 as given. -/
def withLogs (wmax wmin fs : W64) : State :=
  { block with known := ⟨[], [(0x401921FB54442D18, wmax), (0x3FB015BF9217271A, wmin),
    (0x4059000000000000, fs)], []⟩ }

/-- The stage count the planner finds in a state for 0.01, 1.0, 100.0. -/
def countIn (s : State) : Option Int := numPoles s.known s.draws fmin fknee fsample

theorem test_witness_PlannerFaults :
    cfgValid (.ofBits fknee) (.ofBits fknee) (.ofBits fsample) = false ∧
    (Val.ofBits 0x7FF0000000000000).isFinite = false ∧
    cfgValid (.ofBits fmin) (.ofBits fknee) (.ofBits fsample) = true ∧
    (Val.ofBits 0xC000000000000000).isFinite = true ∧
    countIn (withLogs 0 0 0x7FF0000000000000) = none ∧
    countIn (withLogs 0 0 0x3FE0000000000000) = some 0 ∧
    countIn (withLogs 0 0 0x4022000000000000) = some 9 ∧ block.nmax = 8 ∧
    countIn (withLogs 0 0 0x41E0000000000000) = some (2 ^ 31) ∧
    countIn (withLogs 0 0 0xC1E0000000200000) = some (-2 ^ 31 - 1) := by decide +kernel

/-- The boundary of `fsample > 2.0 * fknee`, from both sides, and an `fknee` whose product with 2π
overflows (V12, rows 10, 12 and the last). -/
theorem test_witness_CfgValidOrdersTheFrequencies :
    cfgValid (.ofBits 1) (.ofBits fknee) (.ofBits 0x4000000000000001) = true ∧
    cfgValid (.ofBits 1) (.ofBits fknee) (.ofBits 0x4000000000000000) = false ∧
    cfgValid (.ofBits fmin) (.ofBits 0x7FD1CCF385EBC8A0) (.ofBits 0x7FEAB36D48E1ACF0) = false ∧
    Val.ofBits 0x401921FB54442D18 = Val.twoPi := by decide +kernel

theorem test_witness_SeedCompletes : (0 : W64).toNat < 2 ^ 32 ∧ (0xFFFFFFFF : W64).toNat < 2 ^ 32 := by
  decide

theorem test_witness_SeedForgetsTheOldStream : ∃ s s' t t' : State, s.gen ≠ s'.gen ∧
    s.cache ≠ s'.cache ∧ (Instr.seed 1 2 3 4).wellFormed = true ∧
    exec (.seed 1 2 3 4) s = .next t ∧ exec (.seed 1 2 3 4) s' = .next t' :=
  ⟨block, cached, _, _, by decide +kernel, by decide +kernel, by decide, rfl, rfl⟩

theorem test_witness_NextU32Completes : seeded.gen = .seeded words ∧ block.gen = .unseeded := ⟨rfl, rfl⟩

theorem test_witness_NextUniformCompletes : seeded.gen = .seeded words := rfl

theorem test_witness_UniformRange :
    (∃ t b, exec .nextUniform seeded = .next t ∧ b ∈ t.rsp.drop seeded.rsp.length ∧
      b.status = .ok ∧ (b.kind = .data ∨ Instr.nextUniform = .nextUniform)) ∧
    ∃ t b, exec (.fillUniform 2) seeded = .next t ∧ b ∈ t.rsp.drop seeded.rsp.length ∧
      b.status = .ok ∧ b.kind = .data :=
  ⟨⟨_, okBeat 0x3FDDC578EF400000, rfl, by decide +kernel⟩,
    ⟨_, dataBeat 0x3FEFD0EDF3800000, rfl, by decide +kernel⟩⟩

theorem test_witness_FillUniformCompletes : (0 : W64).toNat < 2 ^ 32 ∧
    (0xFFFFFFFF : W64).toNat < 2 ^ 32 ∧ seeded.gen = .seeded words := ⟨by decide, by decide, rfl⟩

theorem test_witness_NextNormalFromAFullCache :
    cached.gen = .seeded words ∧ cached.cache = .full 0xBF8B6F3948B6E645 := ⟨rfl, rfl⟩

/-- V6b: from draw 3 of V2 on, two trials are rejected and the third is accepted. -/
theorem test_witness_NextNormalFromAnEmptyCache : ∃ (s : State) (w0 : Words) (k : Nat), k = 2 ∧
    s.gen = .seeded w0 ∧ s.cache = .empty ∧ (∀ j < k, rejected (nextWords^[2 * j] w0) = true) ∧
    rejected (nextWords^[2 * k] w0) = false :=
  ⟨{ seeded with gen := .seeded ⟨0x4AAADE6B, 0xE6A3D592, 0x7715E3BD, 0xFE876F9C⟩ }, _, 2, rfl, rfl, rfl,
    by decide +kernel⟩

theorem test_witness_HangsExactlyWhenNoTrialIsAccepted : ∃ (s : State) (w : Words) (t : State),
    s.gen = .seeded w ∧ s.cache = .empty ∧ s.hung = false ∧ exec .nextNormal s = .next t ∧
    t.hung = true := ⟨zeroWords, _, _, rfl, rfl, rfl, hangs, rfl⟩

theorem test_witness_OnlyResetLeavesAHang :
    (∃ s t : State, s.hung = true ∧ step s = .next t ∧ s.pinsNow.rst = false) ∧
    ∃ s t : State, s.hung = true ∧ step s = .next t ∧ s.pinsNow.rst = true :=
  ⟨⟨stuck, _, rfl, rfl, by decide +kernel⟩,
    ⟨{ stuck with pins := [⟨true, false⟩] }, _, rfl, rfl, by decide +kernel⟩⟩

theorem test_witness_NormalDrawAccounting :
    (∃ s t : State, s.gen = .seeded words ∧ exec .nextNormal s = .next t ∧ s.hung = false ∧
      t.hung = false ∧ s.cache ≠ .empty) ∧
    ∃ s t : State, s.gen = .seeded words ∧ exec .nextNormal s = .next t ∧ s.hung = false ∧
      t.hung = false ∧ s.cache = .empty :=
  ⟨⟨cached, _, rfl, rfl, by decide +kernel⟩, ⟨seeded, _, rfl, rfl, by decide +kernel⟩⟩

theorem test_witness_CacheParity :
    (∃ (t : State) (d : W64), exec .nextNormal seeded = .next t ∧
      t.rsp = seeded.rsp ++ [] ++ [⟨.done, .ok, d⟩]) ∧
    ∃ (t : State) (d : W64), exec (.seed 1 2 3 4) cached = .next t ∧
      t.rsp = cached.rsp ++ [] ++ [⟨.done, .ok, d⟩] :=
  ⟨⟨_, 0x3FC85650E5B4FED7, rfl, by decide +kernel⟩, ⟨_, 0, rfl, by decide +kernel⟩⟩

/-- V7b: two calls, of which the second returns what the first cached. -/
theorem test_witness_FillNormalCompletes : ∃ (n : W64) (s : State) (w : Words) (y : Nat → W64)
    (c : Nat → Source), n = 2 ∧ n.toNat < 2 ^ 32 ∧ s.gen = .seeded w ∧
    c 0 = ⟨w, s.cache, s.stages, s.draws⟩ ∧
    ∀ k < n.toNat, sampleNormal s.known (c k) = some (y k, c (k + 1)) :=
  ⟨2, seeded, words,
    fun k => if k = 0 then 0x3FC85650E5B4FED7 else 0xBF8B6F3948B6E645,
    fun k => if k = 0 then ⟨words, .empty, [], 0⟩ else
      ⟨⟨0x4AAADE6B, 0xE6A3D592, 0x7715E3BD, 0xFE876F9C⟩,
        if k = 1 then .full 0xBF8B6F3948B6E645 else .empty, [], 2⟩,
    rfl, by decide, rfl, by decide +kernel, by decide +kernel⟩

theorem test_witness_FillColoredCompletes : ∃ (n : W64) (s : State) (w : Words) (g : Nat → W64)
    (c e : Nat → Source), n = 1 ∧ n.toNat < 2 ^ 32 ∧ s.gen = .seeded w ∧ s.stages ≠ [] ∧
    c 0 = ⟨w, s.cache, s.stages, s.draws⟩ ∧
    ∀ k < n.toNat, sampleNormal s.known (c k) = some (g k, e k) ∧
      c (k + 1) = ⟨(e k).words, (e k).cache, (cascadeStep (e k).draws (g k) (e k).stages).2,
        (e k).draws + (e k).stages.length⟩ :=
  ⟨1, cached, words, fun _ => 0xBF8B6F3948B6E645,
    fun k => if k = 0 then ⟨words, .full 0xBF8B6F3948B6E645, [stage], 0⟩ else
      ⟨words, .empty, (cascadeStep 0 0xBF8B6F3948B6E645 [stage]).2, 1⟩,
    fun _ => ⟨words, .empty, [stage], 0⟩,
    rfl, by decide, rfl, by decide +kernel, by decide +kernel, by decide +kernel⟩

theorem test_witness_FillIsRepeatedSingleDraws : (2 : W64).toNat < 2 ^ 32 ∧ seeded.gen ≠ .unseeded ∧
    seeded.hung = false ∧ cached.gen ≠ .unseeded ∧ cached.hung = false ∧ cached.stages ≠ [] ∧
    (∃ u, repeatExec .nextUniform 2 seeded = some u ∧ u.hung = false) ∧
    (∃ u, repeatExec .nextNormal 2 seeded = some u ∧ u.hung = false) ∧
    ∃ u, repeatExec .nextColored 2 cached = some u ∧ u.hung = false :=
  ⟨by decide, by decide +kernel, rfl, by decide +kernel, rfl, by decide +kernel,
    ⟨_, rfl, by decide +kernel⟩, ⟨_, rfl, by decide +kernel⟩, ⟨_, rfl, by decide +kernel⟩⟩

theorem test_witness_FillsConcatenate : ∃ (m n : W64) (s t u : State) (xs ys : List W64), m = 1 ∧
    n = 1 ∧ m.toNat + n.toNat < 2 ^ 32 ∧ exec (.fillNormal m) s = .next t ∧
    t.rsp = s.rsp ++ xs.map (⟨.data, .ok, ·⟩) ++ [⟨.done, .ok, m⟩] ∧
    exec (.fillNormal n) t = .next u ∧
    u.rsp = t.rsp ++ ys.map (⟨.data, .ok, ·⟩) ++ [⟨.done, .ok, n⟩] :=
  ⟨1, 1, seeded, _, _, [0x3FC85650E5B4FED7], [0xBF8B6F3948B6E645], rfl, rfl, by decide, rfl,
    by decide +kernel, rfl, by decide +kernel⟩

theorem test_witness_StepCompletes : planned.stages ≠ [] := by decide +kernel

theorem test_witness_CoefficientsAreImmutable :
    (∃ (i : Instr) (t : State), exec i planned = .next t ∧ (∀ a b c d, i ≠ .plan a b c d) ∧
      (∀ a b c, i ≠ .plan1 a b c) ∧ t.stages ≠ planned.stages) ∧
    (∃ t : State, exec (.plan1 fmin fknee fsample) block = .next t ∧ t.stages ≠ block.stages) ∧
    ∃ (i : Instr) (t : State), exec i planned = .next t ∧ (∀ a b c d, i ≠ .plan a b c d) ∧
      (∀ a b c, i ≠ .plan1 a b c) ∧ (∀ x, i ≠ .step x) ∧ i ≠ .nextColored ∧
      (∀ n, i ≠ .fillColored n) :=
  ⟨⟨.step 0x3FF0000000000000, _, rfl, by simp, by simp, by decide +kernel⟩,
    ⟨_, rfl, by decide +kernel⟩, ⟨.nextU32, _, rfl, by simp⟩⟩

theorem test_witness_EqualCornersPassThrough : ∃ (f fs : Val) (neg : Bool) (m : Nat) (e : Int),
    Val.one.add ((Val.pi.mul f).div fs) = .fin neg m e ∧ m ≠ 0 :=
  ⟨.ofBits fknee, .ofBits fsample, false, 4645084382411065, -52,
    by decide +kernel, by decide⟩

/-- Two stages, the first with a NaN in `y1` and minus infinity in `x1`. -/
def poisoned : State :=
  { cached with stages := [{ stage with x1 := 0xFFF0000000000000, y1 := 0x7FF8000000000000 }, stage] }

theorem test_witness_NonFiniteSticks :
    (∃ (t : State) (st : Stage) (d : W64), poisoned.stages[0]? = some st ∧ Val.ofBits st.y1 = .nan ∧
      (Val.ofBits st.x1).isFinite = false ∧ exec (.step 0) poisoned = .next t ∧
      t.rsp = poisoned.rsp ++ [⟨.done, .ok, d⟩]) ∧
    (∃ (t : State) (d : W64), exec .nextColored poisoned = .next t ∧
      t.rsp = poisoned.rsp ++ [⟨.done, .ok, d⟩]) ∧
    (∃ (t : State) (bs : List Beat), exec (.fillColored 1) poisoned = .next t ∧ (1 : W64) ≠ 0 ∧
      t.rsp = poisoned.rsp ++ bs ++ [⟨.done, .ok, 1⟩]) ∧
    (∃ t : State, planned.stages ≠ [] ∧ (Val.ofBits 0x7FF0000000000000).isFinite = false ∧
      exec (.step 0x7FF0000000000000) planned = .next t) ∧
    ∃ t : State, exec .nextU32 { poisoned with stages := poisoned.stages.take 1 } = .next t :=
  ⟨⟨_, _, _, rfl, by decide +kernel, by decide +kernel, rfl, rfl⟩, ⟨_, _, rfl, rfl⟩,
    ⟨_, [dataBeat _], rfl, by decide, rfl⟩, ⟨_, by decide +kernel, by decide +kernel, rfl⟩, ⟨_, rfl⟩⟩

/-- 40_numerics.md R82: the floor goes toward minus infinity (-1.4, -2.0, 5.999999, 6.0, -0.0). -/
theorem test_floor : (Val.ofBits 0xBFF6666666666666).floorInt = some (-2) ∧
    (Val.ofBits 0xC000000000000000).floorInt = some (-2) ∧
    (Val.ofBits 0x4017FFFFBCE4217D).floorInt = some 5 ∧
    (Val.ofBits 0x4018000000000000).floorInt = some 6 ∧
    (Val.ofBits 0x8000000000000000).floorInt = some 0 ∧
    (Val.ofBits 0x7FF0000000000000).floorInt = none := by decide +kernel

theorem test_witness_NumPolesCompletes :
    cfgValid (.ofBits fmin) (.ofBits fknee) (.ofBits fsample) = true ∧
    ((poleSum block.known (.ofBits fmin) (.ofBits fknee) 0 fsample).isFinite = true ∧
      countIn block = some 6) ∧
    ((poleSum (withLogs 0 0 0xC1E0000000000000).known (.ofBits fmin) (.ofBits fknee) 0
        fsample).isFinite = true ∧ countIn (withLogs 0 0 0xC1E0000000000000) = some (-2 ^ 31)) ∧
    ((poleSum (withLogs 0 0 0x41DFFFFFFFFFFFFF).known (.ofBits fmin) (.ofBits fknee) 0
        fsample).isFinite = true ∧
      countIn (withLogs 0 0 0x41DFFFFFFFFFFFFF) = some (2 ^ 31 - 1)) := by decide +kernel

theorem test_witness_PlanCompletes : (Val.ofBits 0xC000000000000000).isFinite = true ∧
    cfgValid (.ofBits fmin) (.ofBits fknee) (.ofBits fsample) = true ∧
    countIn block = some ((6 : Nat) : Int) ∧ 6 ≤ block.nmax ∧
    countIn (withLogs 0 0 0x4020000000000000) = some ((8 : Nat) : Int) ∧ 8 ≤ block.nmax := by
  decide +kernel

theorem test_witness_Plan1Completes :
    cfgValid (.ofBits fmin) (.ofBits fknee) (.ofBits fsample) = true := by decide +kernel

theorem test_witness_PlanAnswersTheNumPolesCount : ∃ t : State,
    exec (.plan 0xC000000000000000 fmin fknee fsample) block = .next t ∧
    t.rsp = block.rsp ++ [⟨.done, .ok, 6⟩] := ⟨_, rfl, by decide +kernel⟩

/-- V12: fmin 0.02 to 0.01, fknee 0.5 to 1.0, fsample 100 to 1000, with the reference `fn_log10`. -/
theorem test_witness_StageCountIsMonotone : ∃ k : Known,
    cfgValid (.ofBits 0x3F947AE147AE147B) (.ofBits 0x3FE0000000000000) (.ofBits fsample) = true ∧
    cfgValid (.ofBits fmin) (.ofBits fknee) (.ofBits 0x408F400000000000) = true ∧
    (Val.ofBits fmin).le (.ofBits 0x3F947AE147AE147B) = true ∧
    (Val.ofBits 0x3FE0000000000000).le (.ofBits fknee) = true ∧
    (Val.ofBits fsample).le (.ofBits 0x408F400000000000) = true ∧
    Log10MonoAt (fnLog10 k) ((Val.twoPi.mul (.ofBits fmin)).bits (nanAt 0))
      ((Val.twoPi.mul (.ofBits 0x3F947AE147AE147B)).bits (nanAt 0)) ∧
    Log10MonoAt (fnLog10 k) ((Val.twoPi.mul (.ofBits 0x3FE0000000000000)).bits (nanAt 0))
      ((Val.twoPi.mul (.ofBits fknee)).bits (nanAt 0)) ∧
    Log10MonoAt (fnLog10 k) fsample 0x408F400000000000 ∧
    numPoles k 0 0x3F947AE147AE147B 0x3FE0000000000000 fsample = some 4 ∧
    numPoles k 0 fmin fknee 0x408F400000000000 = some 7 :=
  ⟨{ block.known with log10 := (0x3FC015BF9217271A, 0xBFECD345D5D2B423) ::
      (0x408F400000000000, 0x4008000000000000) :: block.known.log10 },
    by decide +kernel, by decide +kernel, by decide +kernel, by decide +kernel, by decide +kernel,
    fun _ _ _ => by decide +kernel, fun _ _ _ => by decide +kernel, fun _ _ _ => by decide +kernel,
    by decide +kernel, by decide +kernel⟩

theorem test_witness_NextColoredCompletes : ∃ (s : State) (w : Words) (g : W64) (c : Source),
    s.gen = .seeded w ∧ s.stages ≠ [] ∧
    sampleNormal s.known ⟨w, s.cache, s.stages, s.draws⟩ = some (g, c) :=
  ⟨planned, words, _, _, rfl, by decide +kernel, rfl⟩

theorem test_witness_ColoredIsNormalThenStep : ∃ (s t u : State) (g y : W64), s.stages ≠ [] ∧
    exec .nextNormal s = .next t ∧ t.rsp = s.rsp ++ [⟨.done, .ok, g⟩] ∧
    exec (.step g) t = .next u ∧ u.rsp = t.rsp ++ [⟨.done, .ok, y⟩] :=
  ⟨cached, _, _, 0xBF8B6F3948B6E645, _, by decide +kernel, rfl, rfl, rfl, rfl⟩

theorem test_witness_RdReturnsTheRegister :
    seeded.gen = .seeded ⟨0xD4C8BDF6, 0x0351495A, 0x4AAADE6B, 0xE6A3D592⟩ ∧
    cached.cache = .full 0xBF8B6F3948B6E645 ∧ 0 ≤ planned.nmaxCode.toNat ∧
    planned.stages[0]? = some stage ∧
    7 ≤ planned.nmaxCode.toNat ∧
    ({ planned with stages := List.replicate 8 stage } : State).stages[7]? = some stage := by
  decide +kernel

theorem test_witness_RdOfNoValueFaults : block.gen = .unseeded ∧ planned.cache = .empty ∧
    planned.nstage ≤ 1 ∧ 1 < planned.nmax ∧ planned.nstage ≤ 7 ∧ 7 < planned.nmax := by
  decide +kernel

theorem test_witness_RdIsIdempotent : ∃ (s t u : State), exec (.rd 5) s = .next t ∧
    exec (.rd 5) t = .next u ∧ t.err ≠ s.err := ⟨planned, _, _, rfl, rfl, by decide +kernel⟩

theorem test_witness_CommandsWriteOnlyTheirState : ∃ t : State,
    exec (.step 0x3FF0000000000000) planned = .next t ∧ t ≠ planned ∧
    (t.rsp.drop planned.rsp.length).all (fun b => b.status = .ok) = true := ⟨_, rfl, by decide +kernel⟩

theorem test_witness_StreamDependsOnlyOnTheDrawState : ∃ (s s' t t' : State), s ≠ s' ∧
    s.gen = s'.gen ∧ s.cache = s'.cache ∧ s.stages = s'.stages ∧ s.draws = s'.draws ∧
    s.known = s'.known ∧ exec .nextNormal s = .next t ∧ exec .nextNormal s' = .next t' :=
  ⟨seeded, { seeded with err := 0x80, nmaxCode := 0, rsp := [okBeat 1] }, _, _, by decide +kernel, rfl,
    rfl, rfl, rfl, rfl, rfl, rfl⟩

theorem test_witness_StepKeepsTheInvariant : ∃ s t : State, s.Inv ∧ step s = .next t ∧ t ≠ s :=
  ⟨presented (cmd 0x51), _,
    ⟨by simp [presented, planned, seeded, words], by simp [presented, planned, seeded],
      by decide +kernel, by decide, trivial, fun _ => .inl rfl, by simp [presented, planned, seeded, block,
        State.reset]⟩, rfl, by decide +kernel⟩

/-- The literals of the example of 30_encoding.md R56: -2.0, 0.01, 1.0, 100.0. -/
theorem test_literals :
    [Val.literal true 20 (-1), .literal false 1 (-2), .literal false 10 (-1), .literal false 1000 (-1)].map
        (·.bits 0) =
      [0xC000000000000000, 0x3F847AE147AE147B, 0x3FF0000000000000, 0x4059000000000000] := by
  decide +kernel

/-- Overflow gives an infinity (40_numerics.md R71), from the largest finite number plus half a unit on
(IEEE 754, notes/assumptions/17.md): with a half unit
added the sum is an infinity, with a number just below it the sum is the largest finite number. -/
theorem test_overflow :
    (Val.ofBits 0x7FEFFFFFFFFFFFFF).add (.ofBits 0x7C90000000000000) = .inf false ∧
    (Val.ofBits 0xFFEFFFFFFFFFFFFF).sub (.ofBits 0x7C90000000000000) = .inf true ∧
    (Val.ofBits 0x7FEFFFFFFFFFFFFF).add (.ofBits 0x7C8FFFFFFFFFFFFF) = .ofBits 0x7FEFFFFFFFFFFFFF ∧
    (Val.ofBits 0x7FEFFFFFFFFFFFFF).mul (.ofBits 0xC000000000000000) = .inf true ∧
    (Val.ofBits 0x7FEFFFFFFFFFFFFF).div (.ofBits 0x3FE0000000000000) = .inf false := by
  decide +kernel

/-- Both clauses: 0.01 and 1.0, whose results are small, and the largest finite number twice, whose sum and
product overflow. -/
theorem test_witness_ArithmeticRoundsToNearest :
    (∃ a b : Val, a.inFormat ∧ b.inFormat ∧ b.toRat ≠ 0 ∧
      |((a.toRat : ℝ) + b.toRat)| < Val.overflowBound) ∧
    ∃ a b : Val, a.inFormat ∧ b.inFormat ∧ b.toRat ≠ 0 ∧
      Val.overflowBound ≤ |((a.toRat : ℝ) + b.toRat)| := by
  refine ⟨⟨.fin false 1 0, .fin false 1 0, ⟨by decide, by decide, by decide⟩,
      ⟨by decide, by decide, by decide⟩, by simp [Val.toRat], ?_⟩,
    ⟨.fin false (2 ^ 53 - 1) 971, .fin false (2 ^ 53 - 1) 971, ⟨by decide, by decide, by decide⟩,
      ⟨by decide, by decide, by decide⟩, by simp [Val.toRat], ?_⟩⟩
  · have h : (1 : ℝ) ≤ 2 ^ 970 := one_le_pow₀ (by norm_num)
    have e : (2 : ℝ) ^ 971 = 2 * 2 ^ 970 := pow_succ' 2 970
    simp only [Val.toRat, Val.overflowBound]; norm_num
    rw [e]
    clear e
    generalize (2 : ℝ) ^ 970 = half at *
    linarith
  · have h : (0 : ℝ) ≤ 2 ^ 970 := by positivity
    have e : (2 : ℝ) ^ 971 = 2 * 2 ^ 970 := pow_succ' 2 970
    simp only [Val.toRat, Val.overflowBound]; norm_num
    rw [abs_of_nonneg (by positivity), e]
    clear e
    generalize (2 : ℝ) ^ 970 = half at *
    linarith

theorem test_witness_SqrtRoundsToNearest :
    (Val.ofBits fmin).inFormat ∧ 0 ≤ (Val.ofBits fmin).toRat ∧ Val.zero.inFormat ∧
    0 ≤ Val.zero.toRat := by
  have h1 : Val.ofBits fmin = .fin false 5764607523034235 (-59) := by decide +kernel
  have h2 : Val.zero = .fin false 0 (-1074) := by decide +kernel
  refine ⟨?_, ?_, ?_, ?_⟩
  · rw [h1]; exact ⟨by decide, by decide, by decide⟩
  · rw [h1]; simp [Val.toRat]
  · rw [h2]; exact ⟨by decide, by decide, by decide⟩
  · rw [h2]; simp [Val.toRat]

/-! ### The named properties of the parameter functions (40_numerics.md R79 to R81) can be had -/

theorem test_named_properties : LnNeg (fun _ => 0) ∧ Log10Fin (fun _ => 0) ∧ Log10Mono (fun _ => 0) ∧
    Pow10Pos (fun _ => 0) := by
  have h1 : (Val.ofBits 0).isFinite = true := by decide +kernel
  have h2 : (Val.ofBits 0).le .zero = true := by decide +kernel
  have h3 : (Val.ofBits 0).le (.ofBits 0) = true := by decide +kernel
  have h4 : Val.zero.le (.ofBits 0) = true := by decide +kernel
  exact ⟨fun _ _ _ => ⟨h1, h2⟩, fun _ _ _ => h1, fun _ _ _ _ _ => h3, fun _ _ => h4⟩

end Sys2Proof.Tests
end

section
/-! PROOFS. What a command writes to the generator, the cache and the stages, said once for all thirteen
commands (10_state.md R25), beside `Ends`, which says it of `ERR`, the ports and the constants. -/

namespace Sys2Proof.Machine

/-! ### Draws from the generator -/

/-- `v` is the generator state `w` after some number of updates (41_uniform.md R88). -/
def Drawn (w v : Words) : Prop := ∃ k : Nat, v = nextWords^[k] w

theorem Drawn.refl (w : Words) : Drawn w w := ⟨0, rfl⟩

theorem Drawn.trans {u v w : Words} (huv : Drawn u v) (hvw : Drawn v w) : Drawn u w := by
  obtain ⟨j, rfl⟩ := huv
  obtain ⟨k, rfl⟩ := hvw
  exact ⟨k + j, (Function.iterate_add_apply nextWords k j u).symm⟩

theorem Drawn.nextWords (w : Words) : Drawn w (nextWords w) := ⟨1, rfl⟩

theorem Drawn.afterTrial (w : Words) : Drawn w (afterTrial w) := ⟨2, rfl⟩

theorem Drawn.iterate_afterTrial (k : Nat) (w : Words) : Drawn w (Machine.afterTrial^[k] w) := by
  induction k generalizing w with
  | zero => exact Drawn.refl w
  | succ k ih => exact (Drawn.afterTrial w).trans (ih (Machine.afterTrial w))

/-- Draws keep the generator off the all-zero state (10_state.md R23). -/
theorem Drawn.ne_zero {w v : Words} (h : Drawn w v) (hw : w ≠ ⟨0, 0, 0, 0⟩) :
    v ≠ ⟨0, 0, 0, 0⟩ := by
  obtain ⟨k, rfl⟩ := h
  exact Function.Iterate.rec (fun u : Words => u ≠ ⟨0, 0, 0, 0⟩) hw (fun _ => nextWords_ne_zero) k

/-- The search for an accepted trial only draws (42_gaussian.md R101). -/
theorem firstAccepted_drawn {n : Nat} {w v : Words} (h : firstAccepted n w = some v) :
    Drawn w v := by
  obtain ⟨k, -, rfl, -, -⟩ := firstAccepted_eq_some.1 h
  exact Drawn.iterate_afterTrial k w

/-! ### Steps of the cascade -/

/-- What stepping the cascade any number of times keeps of the stages: the coefficients (10_state.md
R19), and the agreement of neighbouring delays (43_single_pole.md R114). -/
structure Filtered (l l' : List Stage) : Prop where
  coeffs : l'.map Stage.coeffs = l.map Stage.coeffs
  chained : Machine.chained l → Machine.chained l'

theorem Filtered.refl (l : List Stage) : Filtered l l := ⟨rfl, id⟩

theorem Filtered.trans {l l' l'' : List Stage} (h : Filtered l l') (h' : Filtered l' l'') :
    Filtered l l'' :=
  ⟨h'.coeffs.trans h.coeffs, h'.chained ∘ h.chained⟩

theorem Filtered.length {l l' : List Stage} (h : Filtered l l') : l'.length = l.length := by
  simpa using congrArg List.length h.coeffs

theorem cascadeStep_filtered (n : Nat) (v : W64) (l : List Stage) :
    Filtered l (cascadeStep n v l).2 :=
  ⟨cascadeStep_coeffs n v l, fun _ => cascadeStep_chained n v l⟩

/-! ### The samplers -/

/-- What uniform draws do to the draw state (41_uniform.md R90 to R92). -/
structure UniformMove (c c' : Source) : Prop where
  words : Drawn c.words c'.words
  cache : c'.cache = c.cache
  stages : c'.stages = c.stages

/-- What normal draws do to the draw state (42_gaussian.md R101): the cache may change too. -/
structure NormalMove (c c' : Source) : Prop where
  words : Drawn c.words c'.words
  stages : c'.stages = c.stages

/-- What colored draws do to the draw state (45_colored.md R135): the cascade steps too. -/
structure ColoredMove (c c' : Source) : Prop where
  words : Drawn c.words c'.words
  stages : Filtered c.stages c'.stages

/-- Each call of the sampler `f` moves the draw state by `R`, and moves by `R` compose. -/
structure Moves (f : Source → Option (W64 × Source)) (R : Source → Source → Prop) : Prop where
  refl : ∀ c, R c c
  trans : ∀ {a b c}, R a b → R b c → R a c
  call : ∀ {c y c'}, f c = some (y, c') → R c c'

/-- A FILL moves the draw state as one call of its sampler does. -/
theorem Moves.fill {f : Source → Option (W64 × Source)} {R : Source → Source → Prop}
    (h : Moves f R) {n : Nat} {c c' : Source} (hc : (fill f n c).2 = some c') : R c c' :=
  fill_induction (P := R c) (fun _ _ _ hf hd => h.trans hd (h.call hf)) (h.refl c) hc

theorem moves_uniform {f : Source → Option (W64 × Source)}
    (call : ∀ {c y c'}, f c = some (y, c') → c' = { c with words := nextWords c.words }) :
    Moves f UniformMove where
  refl c := ⟨Drawn.refl c.words, rfl, rfl⟩
  trans h h' := ⟨h.words.trans h'.words, h'.cache.trans h.cache, h'.stages.trans h.stages⟩
  call hf := call hf ▸ ⟨Drawn.nextWords _, rfl, rfl⟩

theorem sampleU32_moves : Moves sampleU32 UniformMove :=
  moves_uniform fun h => by cases h; rfl

theorem sampleUniform_moves : Moves sampleUniform UniformMove :=
  moves_uniform fun h => by cases h; rfl

/-- One call of `next_normal` empties a Full cache or makes an accepted trial (42_gaussian.md R101). -/
theorem sampleNormal_cases {k : Known} {c c' : Source} {y : W64}
    (h : sampleNormal k c = some (y, c')) :
    (c.cache = .full y ∧ c' = { c with cache := .empty }) ∨
    ∃ w, c.cache = .empty ∧ firstAccepted trialBound c.words = some w ∧
      (y, c') = acceptTrial k c w := by
  unfold sampleNormal at h
  split at h
  · next d hd =>
    cases h
    exact .inl ⟨hd, rfl⟩
  · next hd =>
    obtain ⟨w, hw, he⟩ := Option.map_eq_some_iff.1 h
    exact .inr ⟨w, hd, hw, he.symm⟩

theorem sampleNormal_moves (k : Known) : Moves (sampleNormal k) NormalMove where
  refl c := ⟨Drawn.refl c.words, rfl⟩
  trans h h' := ⟨h.words.trans h'.words, h'.stages.trans h.stages⟩
  call hf := by
    obtain ⟨-, rfl⟩ | ⟨w, -, hw, he⟩ := sampleNormal_cases hf
    · exact ⟨Drawn.refl _, rfl⟩
    · obtain ⟨-, rfl⟩ := Prod.mk.inj he
      exact ⟨(firstAccepted_drawn hw).trans (Drawn.afterTrial w), rfl⟩

/-- One colored sample is one deviate, then one step of the cascade (45_colored.md R135). -/
theorem sampleColored_eq_some {k : Known} {c c' : Source} {y : W64} :
    sampleColored k c = some (y, c') ↔
      ∃ g d, sampleNormal k c = some (g, d) ∧ filterSample g d = (y, c') := by
  simp [sampleColored]

theorem filterSample_stages (g : W64) (c : Source) :
    Filtered c.stages (filterSample g c).2.stages :=
  cascadeStep_filtered c.draws g c.stages

theorem sampleColored_moves (k : Known) : Moves (sampleColored k) ColoredMove where
  refl c := ⟨Drawn.refl c.words, Filtered.refl c.stages⟩
  trans h h' := ⟨h.words.trans h'.words, h.stages.trans h'.stages⟩
  call hf := by
    obtain ⟨g, d, hn, hs⟩ := sampleColored_eq_some.1 hf
    obtain ⟨hwords, hstages⟩ := (sampleNormal_moves k).call hn
    obtain ⟨-, rfl⟩ := Prod.mk.inj hs
    exact ⟨hwords, hstages ▸ filterSample_stages g d⟩

/-! ### The registers after a command -/

/-- Generator, cache and stages are as before. -/
structure SameRegisters (s t : State) : Prop where
  gen : t.gen = s.gen
  cache : t.cache = s.cache
  stages : t.stages = s.stages

theorem SameRegisters.raise (s : State) (st : Status) : SameRegisters s (s.raise st) :=
  ⟨rfl, rfl, rfl⟩

theorem SameRegisters.hang (s : State) (ys : List W64) : SameRegisters s (s.hang ys) :=
  ⟨rfl, rfl, rfl⟩

theorem SameRegisters.finish (s : State) (d : W64) : SameRegisters s (s.finish d) :=
  ⟨rfl, rfl, rfl⟩

/-- The registers of `t` are those of the seeded state `s` with its draw state moved by `R`. -/
def Draws (R : Source → Source → Prop) (s t : State) : Prop :=
  ∃ w c, s.gen = .seeded w ∧ R (s.source w) c ∧
    t.gen = .seeded c.words ∧ t.cache = c.cache ∧ t.stages = c.stages

/-- The stages of `t` are new ones, no more than `NMAX` and at rest (44_planner.md R125, R130). -/
structure Planned (s t : State) : Prop where
  gen : t.gen = s.gen
  cache : t.cache = s.cache
  capacity : t.stages.length ≤ s.nmax
  rest : ∀ st ∈ t.stages, st.x1 = 0 ∧ st.y1 = 0

/-- What each command writes to the registers when it writes any (10_state.md R25). -/
def Writes (s t : State) : Instr → Prop
  | .seed _ _ _ _ => ∃ a b c d : U32,
      t.gen = .seeded (seedWords a b c d) ∧ t.cache = .empty ∧ t.stages = s.stages
  | .nextU32 | .nextUniform | .fillUniform _ => Draws UniformMove s t
  | .nextNormal | .fillNormal _ => Draws NormalMove s t
  | .nextColored | .fillColored _ => Draws ColoredMove s t
  | .step _ => t.gen = s.gen ∧ t.cache = s.cache ∧ Filtered s.stages t.stages
  | .plan _ _ _ _ | .plan1 _ _ _ => Planned s t
  | .numPoles _ _ _ | .rd _ => False

section
variable {f : Source → Option (W64 × Source)} {R : Source → Source → Prop} {s : State} {w : Words}

theorem Moves.answerOne (h : Moves f R) (hw : s.gen = .seeded w) :
    SameRegisters s (s.answerOne (f (s.source w))) ∨
      Draws R s (s.answerOne (f (s.source w))) := by
  obtain ⟨-, e⟩ | ⟨y, c, hc, e⟩ := State.answerOne_cases s (f (s.source w))
  · exact .inl (e ▸ SameRegisters.hang s [])
  · exact .inr ⟨w, c, hw, h.call hc, by simp [e], by simp [e], by simp [e]⟩

theorem Moves.answerFill (h : Moves f R) (hw : s.gen = .seeded w) (n : U32) :
    SameRegisters s (s.answerFill n (Machine.fill f n.toNat (s.source w))) ∨
      Draws R s (s.answerFill n (Machine.fill f n.toNat (s.source w))) := by
  obtain ⟨-, e⟩ | ⟨c, hc, e⟩ := State.answerFill_cases s n (Machine.fill f n.toNat (s.source w))
  · exact .inl (e ▸ SameRegisters.hang s _)
  · exact .inr ⟨w, c, hw, h.fill hc, by simp [e], by simp [e], by simp [e]⟩

end

/-- What a command can do to the registers: nothing, as when it faults or hangs, or its own writes. -/
def Effect (i : Instr) (s t : State) : Prop := SameRegisters s t ∨ Writes s t i

section
variable {i : Instr} {s : State}

theorem Effect.raise (st : Status) : Effect i s (s.raise st) := .inl (SameRegisters.raise s st)

theorem Effect.finish (d : W64) : Effect i s (s.finish d) := .inl (SameRegisters.finish s d)

theorem Effect.ifSeeded {k : Words → State} (h : ∀ w, s.gen = .seeded w → Effect i s (k w)) :
    Effect i s (s.ifSeeded k) := by
  obtain ⟨-, e⟩ | ⟨w, hw, e⟩ := State.ifSeeded_cases s k <;> rw [e]
  · exact Effect.raise _
  · exact h w hw

theorem Effect.ifPlanned {k : State} (h : Effect i s k) : Effect i s (s.ifPlanned k) := by
  obtain ⟨-, e⟩ | ⟨-, e⟩ := State.ifPlanned_cases s k <;> rw [e]
  · exact Effect.raise _
  · exact h

theorem Effect.ofCount {n : W64} {k : U32 → State} (h : ∀ m, Effect i s (k m)) :
    Effect i s (match u32Operand n with
      | none => s.raise .badOperand
      | some m => k m) := by
  cases u32Operand n with
  | none => exact Effect.raise _
  | some m => exact h m

end

/-- Every command leaves the registers alone or writes what 10_state.md R25 lets it write. -/
theorem exec_effect {i : Instr} {s t : State} (h : exec i s = .next t) : Effect i s t := by
  cases i <;> simp only [exec, execSeed, execNextU32, execNextUniform, execFillUniform,
    execNextNormal, execFillNormal, execStep, execNumPoles, execPlan, execPlan1, execNextColored,
    execFillColored, execRd, Host.Outcome.next.injEq] at h <;> subst h
  case seed =>
    split
    · next a b c d _ _ _ _ => exact .inr ⟨a, b, c, d, rfl, rfl, rfl⟩
    · exact Effect.raise _
  case nextU32 => exact Effect.ifSeeded fun _ hw => sampleU32_moves.answerOne hw
  case nextUniform => exact Effect.ifSeeded fun _ hw => sampleUniform_moves.answerOne hw
  case fillUniform =>
    exact Effect.ofCount fun m => Effect.ifSeeded fun _ hw => sampleUniform_moves.answerFill hw m
  case nextNormal => exact Effect.ifSeeded fun _ hw => (sampleNormal_moves _).answerOne hw
  case fillNormal =>
    exact Effect.ofCount fun m => Effect.ifSeeded fun _ hw =>
      (sampleNormal_moves _).answerFill hw m
  case step => exact Effect.ifPlanned (.inr ⟨rfl, rfl, cascadeStep_filtered _ _ _⟩)
  case numPoles =>
    split
    · split
      · exact Effect.raise _
      · split
        · exact Effect.finish _
        · exact Effect.raise _
    · exact Effect.raise _
  case plan =>
    split
    · split
      · exact Effect.raise _
      · split
        · next n _ hn =>
          have hlen : n.toNat ≤ s.nmax := by omega
          exact .inr ⟨rfl, rfl, by simpa [planStages] using hlen, fun _ => planLoop_rest⟩
        · exact Effect.raise _
    · exact Effect.raise _
  case plan1 =>
    split
    · exact .inr ⟨rfl, rfl, s.nmax_pos, by simp [initPole]⟩
    · exact Effect.raise _
  case nextColored =>
    exact Effect.ifSeeded fun _ hw => Effect.ifPlanned ((sampleColored_moves _).answerOne hw)
  case fillColored =>
    exact Effect.ofCount fun m => Effect.ifSeeded fun _ hw =>
      Effect.ifPlanned ((sampleColored_moves _).answerFill hw m)
  case rd =>
    split
    · exact Effect.raise _
    · split
      · exact Effect.raise _
      · exact Effect.finish _

/-! ### What each kind of command keeps -/

theorem Draws.mono {R R' : Source → Source → Prop} {s t : State} (hR : ∀ {c c'}, R c c' → R' c c')
    (h : Draws R s t) : Draws R' s t := by
  obtain ⟨w, c, hw, hm, ht⟩ := h
  exact ⟨w, c, hw, hR hm, ht⟩

theorem UniformMove.toNormal {c c' : Source} (h : UniformMove c c') : NormalMove c c' :=
  ⟨h.words, h.stages⟩

theorem NormalMove.toColored {c c' : Source} (h : NormalMove c c') : ColoredMove c c' :=
  ⟨h.words, h.stages ▸ Filtered.refl c.stages⟩

theorem SameRegisters.seededBit {s t : State} (h : SameRegisters s t) :
    t.seededBit = s.seededBit := by
  simp [State.seededBit, h.gen]

theorem Draws.seededBit {R : Source → Source → Prop} {s t : State} (h : Draws R s t) :
    t.seededBit = s.seededBit := by
  obtain ⟨w, c, hw, -, ht, -, -⟩ := h
  simp [State.seededBit, hw, ht]

theorem uniform_keeps {s t : State} (h : SameRegisters s t ∨ Draws UniformMove s t) :
    t.seededBit = s.seededBit ∧ t.cache = s.cache ∧ t.stages = s.stages := by
  obtain h | h := h
  · exact ⟨h.seededBit, h.cache, h.stages⟩
  · obtain ⟨w, c, -, hm, -, hc, hl⟩ := id h
    exact ⟨h.seededBit, hc.trans hm.cache, hl.trans hm.stages⟩

theorem normal_keeps {s t : State} (h : SameRegisters s t ∨ Draws NormalMove s t) :
    t.seededBit = s.seededBit ∧ t.stages = s.stages := by
  obtain h | h := h
  · exact ⟨h.seededBit, h.stages⟩
  · obtain ⟨w, c, -, hm, -, -, hl⟩ := id h
    exact ⟨h.seededBit, hl.trans hm.stages⟩

theorem colored_keeps {s t : State} (h : SameRegisters s t ∨ Draws ColoredMove s t) :
    t.seededBit = s.seededBit ∧ Filtered s.stages t.stages := by
  obtain h | h := h
  · exact ⟨h.seededBit, h.stages ▸ Filtered.refl s.stages⟩
  · obtain ⟨w, c, -, hm, -, -, hl⟩ := id h
    exact ⟨h.seededBit, hl ▸ hm.stages⟩

theorem seed_keeps_stages {s t : State} {x y z w : W64} (h : Effect (.seed x y z w) s t) :
    t.stages = s.stages := by
  obtain h | ⟨a, b, c, d, -, -, hl⟩ := h
  · exact h.stages
  · exact hl

theorem step_keeps {s t : State} {x : W64} (h : Effect (.step x) s t) :
    t.gen = s.gen ∧ t.cache = s.cache ∧ Filtered s.stages t.stages := by
  obtain h | h := h
  · exact ⟨h.gen, h.cache, h.stages ▸ Filtered.refl s.stages⟩
  · exact h

theorem plan_keeps {s t : State} (h : SameRegisters s t ∨ Planned s t) :
    t.gen = s.gen ∧ t.cache = s.cache := by
  obtain h | h := h
  · exact ⟨h.gen, h.cache⟩
  · exact ⟨h.gen, h.cache⟩

/-- NUM_POLES and RD write no register. -/
theorem Effect.sameRegisters {i : Instr} {s t : State} (h : Effect i s t) (hi : ¬ Writes s t i) :
    SameRegisters s t :=
  h.resolve_right hi

/-- Only PLAN, PLAN1, STEP and the colored commands write a delay (10_state.md R19). -/
theorem Effect.stages_eq {i : Instr} {s t : State} (h : Effect i s t)
    (hplan : ∀ a b c d, i ≠ .plan a b c d) (hplan1 : ∀ a b c, i ≠ .plan1 a b c)
    (hstep : ∀ x, i ≠ .step x) (hnext : i ≠ .nextColored) (hfill : ∀ n, i ≠ .fillColored n) :
    t.stages = s.stages := by
  cases i with
  | seed => exact seed_keeps_stages h
  | nextU32 | nextUniform | fillUniform =>
    obtain ⟨-, -, hstages⟩ := uniform_keeps h
    exact hstages
  | nextNormal | fillNormal =>
    obtain ⟨-, hstages⟩ := normal_keeps h
    exact hstages
  | step => exact absurd rfl (hstep _)
  | numPoles | rd => exact (h.sameRegisters id).stages
  | plan => exact absurd rfl (hplan _ _ _ _)
  | plan1 => exact absurd rfl (hplan1 _ _ _)
  | nextColored => exact absurd rfl hnext
  | fillColored => exact absurd rfl (hfill _)

/-- No command but PLAN and PLAN1 changes a coefficient (10_state.md R19). -/
theorem Effect.filtered {i : Instr} {s t : State} (h : Effect i s t)
    (hplan : ∀ a b c d, i ≠ .plan a b c d) (hplan1 : ∀ a b c, i ≠ .plan1 a b c) :
    Filtered s.stages t.stages := by
  have same (e : t.stages = s.stages) : Filtered s.stages t.stages := e ▸ Filtered.refl s.stages
  cases i with
  | plan => exact absurd rfl (hplan _ _ _ _)
  | plan1 => exact absurd rfl (hplan1 _ _ _)
  | step =>
    obtain ⟨-, -, hfilter⟩ := step_keeps h
    exact hfilter
  | nextColored | fillColored =>
    obtain ⟨-, hfilter⟩ := colored_keeps h
    exact hfilter
  | _ => exact same (h.stages_eq hplan hplan1 nofun nofun nofun)

/-- What PLAN and PLAN1 write is at rest (10_state.md R19). -/
theorem Effect.rest {i : Instr} {s t : State} (h : Effect i s t)
    (hi : (∃ a b c d, i = .plan a b c d) ∨ ∃ a b c, i = .plan1 a b c)
    (hne : t.stages ≠ s.stages) : ∀ st ∈ t.stages, st.x1 = 0 ∧ st.y1 = 0 := by
  obtain hsame | hwrites := h
  · exact absurd hsame.stages hne
  · obtain ⟨a, b, c, d, rfl⟩ | ⟨a, b, c, rfl⟩ := hi <;> exact Planned.rest hwrites

/-- Settles O42, from what each kind of command writes (`exec_effect`). -/
theorem coefficientsAreImmutable : Obligations.CoefficientsAreImmutable := by
  intro i s t h
  have he := exec_effect h
  exact ⟨fun hplan hplan1 => (he.filtered hplan hplan1).coeffs, he.rest, he.stages_eq⟩

end Sys2Proof.Machine
end

section
/-! PROOFS. What a command does to `ERR`, the constants and the host's side (10_state.md R21, R25), from
the three ways it can end. -/

namespace Sys2Proof.Machine

/-- The constants and the host's side are as before. -/
structure SameHost (s t : State) : Prop where
  nmaxCode : t.nmaxCode = s.nmaxCode
  known : t.known = s.known
  cmdq : t.cmdq = s.cmdq
  pins : t.pins = s.pins
  sent : t.sent = s.sent

theorem Ends.sameHost {i : Instr} {s t : State} (h : Ends i s t) : SameHost s t := by
  obtain ⟨st, -, rfl⟩ | ⟨ys, rfl, -, -⟩ | ⟨ys, d, -, h⟩ := h
  · exact ⟨rfl, rfl, rfl, rfl, rfl⟩
  · exact ⟨rfl, rfl, rfl, rfl, rfl⟩
  · exact ⟨h.nmaxCode, h.known, h.cmdq, h.pins, h.sent⟩

/-- `ERR` gains the bit of one status, none if it is `OK` (10_state.md R21). -/
theorem Ends.err {i : Instr} {s t : State} (h : Ends i s t) :
    ∃ st : Status, t.err = s.err ||| st.errBit := by
  obtain ⟨st, -, rfl⟩ | ⟨ys, rfl, -, -⟩ | ⟨ys, d, -, h⟩ := h
  · exact ⟨st, rfl⟩
  · exact ⟨.ok, by simp [Status.errBit]⟩
  · exact ⟨.ok, by simp [Status.errBit, h.err]⟩

/-- A command whose beats all carry `OK` leaves `ERR`. -/
theorem Ends.err_of_ok {i : Instr} {s t : State} (h : Ends i s t)
    (hok : ∀ b ∈ t.rsp.drop s.rsp.length, b.status = .ok) : t.err = s.err := by
  obtain ⟨st, hst, rfl⟩ | ⟨ys, rfl, -, -⟩ | ⟨ys, d, -, h⟩ := h
  · exact absurd (hok (faultBeat st) (by simp)) hst
  · rfl
  · exact h.err

/-- A command whose DONE beat carries another status than `OK` has raised that fault: a hang sends no
DONE beat, and a completion sends `OK` (30_encoding.md R50). -/
theorem Ends.err_of_fault {i : Instr} {s t : State} (h : Ends i s t) {bs : List Beat} {st : Status}
    {d : W64} (hrsp : t.rsp = s.rsp ++ bs ++ [⟨.done, st, d⟩]) (hst : st ≠ .ok) :
    t.err = s.err ||| st.errBit := by
  obtain ⟨st', -, rfl⟩ | ⟨ys, rfl, -, -⟩ | ⟨ys, d', -, h⟩ := h
  · have hlast : faultBeat st' = ⟨.done, st, d⟩ :=
      List.singleton_inj.1 (List.append_inj_right' hrsp rfl)
    have hst' : st' = st := congrArg Beat.status hlast
    rw [State.raise_err, hst']
  · have hbeats : ys.map dataBeat = bs ++ [⟨.done, st, d⟩] :=
      List.append_cancel_left (hrsp.trans (List.append_assoc _ _ _))
    have hmem : (⟨.done, st, d⟩ : Beat) ∈ ys.map dataBeat := by simp [hbeats]
    simp [dataBeat] at hmem
  · rw [h.rsp, ← List.append_assoc] at hrsp
    have hlast : okBeat d' = ⟨.done, st, d⟩ :=
      List.singleton_inj.1 (List.append_inj_right' hrsp rfl)
    exact absurd (congrArg Beat.status hlast).symm hst

/-- The bit of a fault is the one of its code (60_exceptions.md R150). -/
theorem Status.errBit_getLsbD_code {st : Status} (h : st ≠ .ok) :
    st.errBit.getLsbD st.code.toNat = true := by
  cases st with
  | ok => exact absurd rfl h
  | _ => decide

/-- One clock edge clears `ERR` or lets it gain the bit of one status. -/
theorem step_err {s t : State} (h : step s = .next t) :
    (s.pinsNow.rst = true ∧ t.err = 0) ∨
    (s.pinsNow.rst = false ∧ ∃ st : Status, t.err = s.err ||| st.errBit) := by
  have same : ∃ st : Status, s.err = s.err ||| st.errBit := ⟨.ok, by simp [Status.errBit]⟩
  obtain ⟨hr, e⟩ | ⟨hr, b, bs, -, ⟨-, e⟩ | ⟨-, e⟩⟩ | ⟨hr, -, -, -, e⟩ |
    ⟨hr, -, -, -, ⟨-, e⟩ | ⟨c, rest, -, e⟩⟩ := step_cases s <;> rw [e] at h
  case inl => cases h; exact .inl ⟨hr, rfl⟩
  case inr.inr.inr.inr =>
    obtain ⟨i, hends⟩ := accept_ends h
    exact .inr ⟨hr, hends.err⟩
  all_goals cases h; exact .inr ⟨hr, same⟩

end Sys2Proof.Machine
end

section
/-! PROOFS. Reading a register by its index (10_state.md R28, 46_system.md R145), and the statements in
which one is read. -/

namespace Sys2Proof

/-- The index of the register is mapped: it is below the limit that `NMAX` sets (10_state.md R28). -/
def Reg.Mapped (nmax : Nat) : Reg → Prop
  | .stage k _ => k < nmax
  | _ => True

theorem StageField.offset_lt (f : StageField) : f.offset < 5 := by cases f <;> decide

theorem Reg.index_lt {nmax : Nat} {r : Reg} (hmax : nmax ≤ 4096) (h : r.Mapped nmax) :
    r.index < 2 ^ 16 := by
  cases r with
  | s i => have := i.isLt; simp only [Reg.index]; omega
  | gstat | gval | nstage | err | nmax => decide
  | stage k f =>
    have hk : k < nmax := h
    have := f.offset_lt
    simp only [Reg.index]; omega

end Sys2Proof

namespace Sys2Proof.Machine

theorem fieldAt_offset (f : StageField) : fieldAt f.offset = some f := by cases f <;> rfl

/-- From 0x100 on the register map names fields of stages (10_state.md R28). -/
theorem regAt_of_ge {nmax : Nat} {idx : BitVec 16} (h : 0x0100 ≤ idx.toNat) :
    regAt nmax idx = if (idx.toNat - 0x0100) / 8 < nmax then
      (fieldAt ((idx.toNat - 0x0100) % 8)).map (.stage ((idx.toNat - 0x0100) / 8)) else none := by
  rw [regAt, dif_neg (by omega), if_neg (by omega), if_neg (by omega), if_neg (by omega),
    if_neg (by omega), if_neg (by omega), if_neg (by omega)]

/-- The register map looks a register up under its index (10_state.md R28). -/
theorem regAt_index {nmax : Nat} {r : Reg} (hmax : nmax ≤ 4096) (h : r.Mapped nmax) :
    regAt nmax (.ofNat 16 r.index) = some r := by
  have hidx : (BitVec.ofNat 16 r.index).toNat = r.index :=
    Nat.mod_eq_of_lt (Reg.index_lt hmax h)
  cases r with
  | s i => simp only [regAt, hidx]; simp [Reg.index]
  | gstat | gval | nstage | err | nmax => rfl
  | stage k f =>
    have hk : k < nmax := h
    have hf := f.offset_lt
    have hsub : (BitVec.ofNat 16 (Reg.stage k f).index).toNat - 0x0100 = 8 * k + f.offset := by
      rw [hidx, Reg.index]; omega
    have hdiv : (8 * k + f.offset) / 8 = k := by omega
    have hmod : (8 * k + f.offset) % 8 = f.offset := by omega
    rw [regAt_of_ge (by rw [hidx, Reg.index]; omega), hsub, hdiv, hmod, if_pos hk, fieldAt_offset]
    rfl

theorem indexOperand_ofNat {n : Nat} (h : n < 2 ^ 16) :
    indexOperand (.ofNat 64 n) = some (.ofNat 16 n) := by
  have hn : (BitVec.ofNat 64 n).toNat = n := Nat.mod_eq_of_lt (by omega)
  refine indexOperand_eq_some.2 ⟨(fitsU16_iff _).2 (by rwa [hn]), ?_⟩
  apply BitVec.eq_of_toNat_eq
  rw [BitVec.toNat_setWidth, hn, BitVec.toNat_ofNat]

/-- RD of a mapped register that holds a value answers it and changes nothing else (46_system.md
R145). -/
theorem exec_rd_of_value {s : State} {r : Reg} {v : W64} (h : r.Mapped s.nmax)
    (hv : s.readReg r = some v) : exec (.rd (.ofNat 64 r.index)) s = .next (s.finish v) := by
  have hlt := Reg.index_lt s.nmax_le h
  simp [exec, execRd, indexOperand_ofNat hlt, regAt_index s.nmax_le h, hv]

/-- Settles O15: a fault sets its own bit, and no edge but a reset takes one away (`step_err`). -/
theorem errIsSticky : Obligations.ErrIsSticky := by
  refine ⟨?_, ?_, ?_, ?_, ?_⟩
  · intro c s t bs st d h hrsp hst
    obtain ⟨i, hends⟩ := accept_ends h
    rw [hends.err_of_fault hrsp hst, BitVec.getLsbD_or, Status.errBit_getLsbD_code hst,
      Bool.or_true]
  · intro s t h hrst k hk
    obtain ⟨hr, -⟩ | ⟨-, st, e⟩ := step_err h
    · simp [hr] at hrst
    · simp [e, hk]
  · intro s t h hrst
    obtain ⟨-, e⟩ | ⟨hr, -⟩ := step_err h
    · exact e
    · simp [hr] at hrst
  · intro s t h h0
    obtain ⟨-, e⟩ | ⟨-, st, e⟩ := step_err h
    · simp [e]
    · simp_all
  · intro s
    exact exec_rd_of_value (r := .err) trivial rfl

/-- `GSTAT` in numbers: 1 if seeded, 2 if the cache is Full (10_state.md R28). -/
theorem State.gstat_eq (s : State) :
    s.gstat = (if s.gen = .unseeded then 0 else 1) ||| if s.cache = .empty then 0 else 2 := by
  cases hg : s.gen <;> cases hc : s.cache <;>
    simp [State.gstat, State.gfullBit, State.seededBit, hg, hc]

/-- Settles O52: each index is that of a mapped register, and `exec_rd_of_value` says what RD does. -/
theorem rdReturnsTheRegister : Obligations.RdReturnsTheRegister := by
  refine ⟨fun s => ⟨?_, ?_, ?_, ?_, ?_, ?_, ?_⟩, fun _ => rfl, rfl, rfl, rfl, rfl, rfl,
    fun _ => ⟨rfl, rfl, rfl, rfl, rfl⟩⟩
  · intro a b c d hw
    have word (i : Fin 4) :=
      exec_rd_of_value (s := s) (r := .s i) (v := (wordAt ⟨a, b, c, d⟩ i).setWidth 64) trivial
        (by simp [State.readReg, hw])
    exact ⟨word 0, word 1, word 2, word 3⟩
  · exact s.gstat_eq ▸ exec_rd_of_value (r := .gstat) trivial rfl
  · intro d hd
    exact exec_rd_of_value (r := .gval) trivial (by simp [State.readReg, hd])
  · exact exec_rd_of_value (r := .nstage) trivial rfl
  · exact exec_rd_of_value (r := .err) trivial rfl
  · exact exec_rd_of_value (r := .nmax) trivial rfl
  · intro k st hk hst
    have field (f : StageField) :=
      exec_rd_of_value (s := s) (r := .stage k f) (v := fieldOf st f) (Nat.lt_succ_of_le hk)
        (by simp [State.readReg, hst])
    exact ⟨field .c0, field .c1, field .d0, field .x1, field .y1⟩

end Sys2Proof.Machine
end

section
/-! PROOFS. The table of 10_state.md R25: what each command leaves untouched. -/

namespace Sys2Proof.Machine

/-- STEP faults for want of a cascade and touches no other bit of `ERR` (60_exceptions.md R156). -/
theorem exec_step_err {x : W64} {s t : State} (h : exec (.step x) s = .next t) :
    t.err = s.err ||| (if s.stages = [] then 0x10 else 0) := by
  simp only [exec, execStep, Host.Outcome.next.injEq] at h
  subst h
  obtain ⟨hs, e⟩ | ⟨hs, e⟩ :=
    State.ifPlanned_cases s ((s.stepped x).finish (cascadeStep s.draws x s.stages).1)
  · rw [e, if_pos hs]; rfl
  · rw [e, if_neg hs]; simp

/-- Settles O55: the frame of each way to end, and then the columns of each kind of command. -/
theorem commandsWriteOnlyTheirState : Obligations.CommandsWriteOnlyTheirState := by
  intro i s t h
  have hends := exec_ends h
  have he := exec_effect h
  obtain ⟨hmax, hknown, hcmdq, hpins, hsent⟩ := hends.sameHost
  refine ⟨hmax, hknown, hcmdq, hpins, hsent, hends.err_of_ok, ?_⟩
  cases i with
  | seed => exact seed_keeps_stages he
  | nextU32 | nextUniform | fillUniform => exact uniform_keeps he
  | nextNormal | fillNormal => exact normal_keeps he
  | step =>
    obtain ⟨hgen, hcache, hstages⟩ := step_keeps he
    exact ⟨hgen, hcache, hstages.length, hstages.coeffs, exec_step_err h⟩
  | numPoles | rd =>
    obtain ⟨hgen, hcache, hstages⟩ := he.sameRegisters id
    exact ⟨hgen, hcache, hstages⟩
  | plan | plan1 => exact plan_keeps he
  | nextColored | fillColored =>
    obtain ⟨hseeded, hstages⟩ := colored_keeps he
    exact ⟨hseeded, hstages.length, hstages.coeffs⟩

end Sys2Proof.Machine
end

section
/-! PROOFS. SEED (41_uniform.md R85 to R89): what it leaves, and that it leaves no all-zero generator. -/

namespace Sys2Proof.Machine

theorem substZero_ne_zero {dflt : U32} (hd : dflt ≠ 0) (v : U32) : substZero dflt v ≠ 0 := by
  unfold substZero
  split
  · exact hd
  · assumption

theorem twiddleRound_zero : twiddleRound 0 = 0 := by decide

/-- The scramble keeps a word off zero: it is injective and maps zero to itself (R86). -/
theorem twiddle_ne_zero {v : U32} (hv : v ≠ 0) : twiddle v ≠ 0 := fun h =>
  hv (twiddleRound_injective.iterate 9
    (h.trans (Function.iterate_fixed twiddleRound_zero 9).symm))

/-- SEED leaves no all-zero generator, whatever its operands (10_state.md R23). -/
theorem seedWords_ne_zero (x y z w : U32) : seedWords x y z w ≠ ⟨0, 0, 0, 0⟩ := by
  have hs0 : twiddle (seedSubst x y z w).s0 ≠ 0 := twiddle_ne_zero (substZero_ne_zero (by decide) x)
  exact Drawn.ne_zero ⟨16, rfl⟩ fun h => hs0 (congrArg Words.s0 h)

/-- SEED of four 32-bit operands completes and seeds the generator from them alone (R89). -/
theorem exec_seed_of_wellFormed {x y z w : W64} (h : (Instr.seed x y z w).wellFormed = true)
    (s : State) : exec (.seed x y z w) s = .next ((s.seeded
      (seedWords (x.setWidth 32) (y.setWidth 32) (z.setWidth 32) (w.setWidth 32))).finish 0) := by
  simp only [Instr.wellFormed, Bool.and_eq_true] at h
  obtain ⟨⟨⟨hx, hy⟩, hz⟩, hw⟩ := h
  rw [exec, execSeed, u32Operand_eq_some.2 ⟨hx, rfl⟩, u32Operand_eq_some.2 ⟨hy, rfl⟩,
    u32Operand_eq_some.2 ⟨hz, rfl⟩, u32Operand_eq_some.2 ⟨hw, rfl⟩]

/-- Settles O26: the generator state SEED leaves is a function of its operands. -/
theorem seedForgetsTheOldStream : Obligations.SeedForgetsTheOldStream := by
  intro x y z w s s' t t' hwf h h'
  rw [exec_seed_of_wellFormed hwf] at h h'
  cases h
  cases h'
  exact ⟨rfl, rfl, rfl, by simp⟩

end Sys2Proof.Machine
end

section
/-! PROOFS. The invariant of the block (`State.Inv`): its part about the registers, kept by every command
(`exec_effect`), and its part about the response port, kept by every way to end (`accept_ends`). -/

namespace Sys2Proof.Machine

/-- The part of the invariant that is about generator, cache and stages. -/
structure RegistersInv (s : State) : Prop where
  words_nonzero : ∀ w, s.gen = .seeded w → w ≠ ⟨0, 0, 0, 0⟩
  unseeded_empty : s.gen = .unseeded → s.cache = .empty
  capacity : s.stages.length ≤ s.nmax
  delays_chained : chained s.stages

/-- The part of the invariant that is about the response port. -/
structure PortInv (hung : Bool) (rsp : List Beat) : Prop where
  response : hung = false → rsp = [] ∨ responseTail rsp
  hung_no_done : hung = true → ∃ ys : List W64, rsp = ys.map dataBeat

theorem State.inv_iff (s : State) :
    s.Inv ↔ RegistersInv s ∧ s.err.getLsbD 0 = false ∧ PortInv s.hung s.rsp :=
  ⟨fun ⟨hw, hu, hc, he, hd, hr, hh⟩ => ⟨⟨hw, hu, hc, hd⟩, he, ⟨hr, hh⟩⟩,
    fun ⟨⟨hw, hu, hc, hd⟩, he, ⟨hr, hh⟩⟩ => ⟨hw, hu, hc, he, hd, hr, hh⟩⟩

/-! ### The registers -/

theorem SameRegisters.registersInv {s t : State} (h : SameRegisters s t) (hmax : t.nmax = s.nmax)
    (hs : RegistersInv s) : RegistersInv t where
  words_nonzero w hw := hs.words_nonzero w (h.gen ▸ hw)
  unseeded_empty hu := h.cache.trans (hs.unseeded_empty (h.gen ▸ hu))
  capacity := by rw [h.stages, hmax]; exact hs.capacity
  delays_chained := h.stages ▸ hs.delays_chained

/-- Draws keep the generator off zero (R23), the block seeded, and the cascade chained (R114). -/
theorem Draws.registersInv {s t : State} (h : Draws ColoredMove s t) (hmax : t.nmax = s.nmax)
    (hs : RegistersInv s) : RegistersInv t := by
  obtain ⟨w, c, hw, ⟨hwords, hfilter⟩, hgen, -, hstages⟩ := h
  rw [State.source_stages, ← hstages] at hfilter
  constructor
  case words_nonzero =>
    intro v hv
    obtain rfl : c.words = v := Generator.seeded.inj (hgen.symm.trans hv)
    exact hwords.ne_zero (hs.words_nonzero w hw)
  case unseeded_empty => simp [hgen]
  case capacity => rw [hfilter.length, hmax]; exact hs.capacity
  case delays_chained => exact hfilter.chained hs.delays_chained

/-- New stages keep the invariant of the other registers. -/
theorem RegistersInv.of_stages {s t : State} (hs : RegistersInv s) (hgen : t.gen = s.gen)
    (hcache : t.cache = s.cache) (hcap : t.stages.length ≤ t.nmax) (hchain : chained t.stages) :
    RegistersInv t where
  words_nonzero w hw := hs.words_nonzero w (hgen ▸ hw)
  unseeded_empty hu := hcache.trans (hs.unseeded_empty (hgen ▸ hu))
  capacity := hcap
  delays_chained := hchain

theorem Writes.registersInv {i : Instr} {s t : State} (h : Writes s t i) (hmax : t.nmax = s.nmax)
    (hs : RegistersInv s) : RegistersInv t := by
  cases i with
  | seed =>
    obtain ⟨a, b, c, d, hgen, hcache, hstages⟩ := h
    constructor
    case words_nonzero =>
      intro v hv
      exact Generator.seeded.inj (hgen.symm.trans hv) ▸ seedWords_ne_zero a b c d
    case unseeded_empty => exact fun _ => hcache
    case capacity => rw [hstages, hmax]; exact hs.capacity
    case delays_chained => exact hstages ▸ hs.delays_chained
  | nextU32 | nextUniform | fillUniform =>
    exact (Draws.mono (fun m => m.toNormal.toColored) h).registersInv hmax hs
  | nextNormal | fillNormal => exact (Draws.mono (fun m => m.toColored) h).registersInv hmax hs
  | nextColored | fillColored => exact Draws.registersInv h hmax hs
  | step =>
    obtain ⟨hgen, hcache, hfilter⟩ := h
    exact hs.of_stages hgen hcache (by rw [hfilter.length, hmax]; exact hs.capacity)
      (hfilter.chained hs.delays_chained)
  | plan | plan1 =>
    obtain ⟨hgen, hcache, hcap, hrest⟩ : Planned s t := h
    exact hs.of_stages hgen hcache (hmax ▸ hcap) (chained_of_rest hrest)
  | numPoles | rd => exact absurd h id

/-- Every accepted command keeps the invariant of the registers. -/
theorem accept_keeps_registersInv {c : Command} {s t : State} (h : accept c s = .next t)
    (hs : RegistersInv s) : RegistersInv t := by
  obtain ⟨i, hends⟩ := accept_ends h
  have hmax : t.nmax = s.nmax := congrArg (fun n => n.toNat + 1) hends.sameHost.nmaxCode
  unfold accept at h
  split at h
  · obtain hsame | hwrites := exec_effect h
    · exact hsame.registersInv hmax hs
    · exact hwrites.registersInv hmax hs
  · cases h
    exact (SameRegisters.raise s _).registersInv hmax hs

/-! ### The response port -/

theorem PortInv.idle : PortInv false [] := ⟨fun _ => .inl rfl, nofun⟩

theorem PortInv.hanging (ys : List W64) : PortInv true (ys.map dataBeat) :=
  ⟨nofun, fun _ => ⟨ys, rfl⟩⟩

theorem PortInv.waiting {bs : List Beat} (h : responseTail bs) : PortInv false bs :=
  ⟨fun _ => .inr h, nofun⟩

/-- A command accepted on an idle port leaves one response on it (30_encoding.md R50). -/
theorem Ends.portInv {i : Instr} {s t : State} (h : Ends i s t) (hrsp : s.rsp = [])
    (hhung : s.hung = false) : PortInv t.hung t.rsp := by
  obtain ⟨st, -, rfl⟩ | ⟨ys, rfl, -, -⟩ | ⟨ys, d, -, hd⟩ := h
  · rw [State.raise_rsp, State.raise_hung, hrsp, hhung]
    exact PortInv.waiting ⟨[], st, 0, rfl, .inr rfl⟩
  · rw [State.hang_rsp, State.hang_hung, hrsp]
    exact PortInv.hanging ys
  · rw [hd.rsp, hd.hung, hrsp, hhung]
    exact PortInv.waiting ⟨ys, .ok, d, rfl, .inl rfl⟩

/-- What is left of a response when its first beat is taken is nothing or the end of it. -/
theorem responseTail_tail {b : Beat} {bs : List Beat} (h : responseTail (b :: bs)) :
    bs = [] ∨ responseTail bs := by
  obtain ⟨ys, st, d, hbs, hd⟩ := h
  cases ys with
  | nil => exact .inl (List.cons.inj hbs).2
  | cons y ys => exact .inr ⟨ys, st, d, (List.cons.inj hbs).2, hd⟩

theorem PortInv.tail {hung : Bool} {b : Beat} {bs : List Beat} (h : PortInv hung (b :: bs)) :
    PortInv hung bs where
  response hh := by
    obtain hnil | htail := h.response hh
    · cases hnil
    · exact responseTail_tail htail
  hung_no_done hh := by
    obtain ⟨ys, hys⟩ := h.hung_no_done hh
    cases ys with
    | nil => cases hys
    | cons y ys => exact ⟨ys, (List.cons.inj hys).2⟩

/-! ### The invariant -/

/-- A reset establishes the invariant from any state (10_state.md R170). -/
theorem State.resetBlock_inv (s : State) : s.resetBlock.Inv :=
  (State.inv_iff _).2 ⟨⟨fun _ h => by simp at h, fun _ => rfl, Nat.zero_le _, trivial⟩, by simp,
    PortInv.idle⟩

/-- An accepted command keeps the invariant of an idle block. -/
theorem accept_keeps_inv {c : Command} {s t : State} (h : accept c s = .next t) (hs : s.Inv)
    (hrsp : s.rsp = []) (hhung : s.hung = false) : t.Inv := by
  obtain ⟨hregs, herr, -⟩ := s.inv_iff.1 hs
  obtain ⟨i, hends⟩ := accept_ends h
  obtain ⟨st, hst⟩ := hends.err
  refine t.inv_iff.2 ⟨accept_keeps_registersInv h hregs, ?_, hends.portInv hrsp hhung⟩
  rw [hst, BitVec.getLsbD_or, herr]
  simp

/-- Settles O8: no register that holds no value after reset can be read. -/
theorem resetStateValues : Obligations.ResetStateValues := by
  refine ⟨rfl, fun _ => rfl, rfl, rfl, rfl, fun k f => ?_, rfl⟩
  simp [State.readReg, State.reset]

/-- Settles O57: the reset state is one that a reset leaves. -/
theorem resetHasTheInvariant : Obligations.ResetHasTheInvariant :=
  State.resetBlock_inv State.reset

/-- An edge that leaves the registers and `ERR` keeps the invariant if it keeps the port's part. -/
theorem State.Inv.of_sameRegisters {s t : State} (hs : s.Inv) (h : SameRegisters s t)
    (hmax : t.nmax = s.nmax) (herr : t.err = s.err) (hport : PortInv t.hung t.rsp) : t.Inv := by
  obtain ⟨hregs, hbit0, -⟩ := s.inv_iff.1 hs
  exact t.inv_iff.2 ⟨h.registersInv hmax hregs, herr ▸ hbit0, hport⟩

/-- Settles O58, along what one clock edge can do (`step_cases`). -/
theorem stepKeepsTheInvariant : Obligations.StepKeepsTheInvariant := by
  intro s t hs h
  obtain ⟨-, -, hport⟩ := s.inv_iff.1 hs
  have htick : s.tick.Inv := hs.of_sameRegisters ⟨rfl, rfl, rfl⟩ rfl rfl hport
  obtain ⟨-, e⟩ | ⟨-, b, bs, hrsp, ⟨-, e⟩ | ⟨-, e⟩⟩ | ⟨-, -, -, -, e⟩ |
    ⟨-, hrsp, hhung, -, ⟨-, e⟩ | ⟨c, rest, -, e⟩⟩ := step_cases s <;> rw [e] at h
  case inl =>
    cases h
    exact s.tick.resetBlock_inv
  case inr.inl.inl =>
    cases h
    have hrest : PortInv s.hung bs := (hrsp ▸ hport).tail
    exact hs.of_sameRegisters ⟨rfl, rfl, rfl⟩ rfl rfl hrest
  case inr.inr.inr.inr =>
    have hidle : State.Inv { s.tick with cmdq := rest } :=
      hs.of_sameRegisters ⟨rfl, rfl, rfl⟩ rfl rfl hport
    exact accept_keeps_inv h hidle hrsp hhung
  all_goals
    cases h
    exact htick

end Sys2Proof.Machine
end

section
/-! PROOFS. The command port and the order of the beats (20_memory.md R38, R44), along what one clock edge
can do. -/

namespace Sys2Proof.Machine

/-- The block takes a command when `rst` is 0, no beat waits and no command hangs (30_encoding.md R46). -/
theorem State.cmdReady_iff {s : State} :
    s.cmdReady = true ↔ s.pinsNow.rst = false ∧ s.rsp = [] ∧ s.hung = false := by
  simp [State.cmdReady, and_assoc]

/-- A ready block accepts the command on the port (30_encoding.md R46). -/
theorem step_of_cmdReady {s : State} {c : Command} {rest : List Command}
    (hready : s.cmdReady = true) (hq : s.cmdq = c :: rest) :
    step s = accept c { s.tick with cmdq := rest } := by
  obtain ⟨hrst, hrsp, hhung⟩ := State.cmdReady_iff.1 hready
  obtain ⟨hr, -⟩ | ⟨-, b, bs, hb, -⟩ | ⟨-, -, hh, -⟩ |
    ⟨-, -, -, -, ⟨hnil, -⟩ | ⟨c', rest', hcons, e⟩⟩ := step_cases s
  · simp [hrst] at hr
  · simp [hrsp] at hb
  · simp [hhung] at hh
  · simp [hq] at hnil
  · obtain ⟨rfl, rfl⟩ := List.cons.inj (hq.symm.trans hcons)
    exact e

theorem accept_of_decode {c : Command} {i : Instr} (h : decode c = .ok i) (s : State) :
    accept c s = exec i s := by
  simp [accept, h]

/-- Settles O6: the ready block accepts the command, and accepting it is to run what it decodes to. -/
theorem stepRunsTheDecodedCommand : Obligations.StepRunsTheDecodedCommand := by
  intro s c rest i hready hq hdec
  rw [step_of_cmdReady hready hq, accept_of_decode hdec]
  rfl

/-- A command only adds beats, behind those that wait (20_memory.md R44). -/
theorem Ends.rsp_append {i : Instr} {s t : State} (h : Ends i s t) :
    ∃ bs, t.rsp = s.rsp ++ bs := by
  obtain ⟨st, -, rfl⟩ | ⟨ys, rfl, -, -⟩ | ⟨ys, d, -, h⟩ := h
  · exact ⟨_, State.raise_rsp s st⟩
  · exact ⟨_, State.hang_rsp s ys⟩
  · exact ⟨_, h.rsp⟩

/-- An edge without a reset moves a beat from those that wait to those that have left, or adds the beats
of the command it accepts, or does neither (20_memory.md R44). -/
theorem step_appends_beats {s t : State} (hrst : s.pinsNow.rst = false) (h : step s = .next t) :
    ∃ bs, t.sent ++ t.rsp = (s.sent ++ s.rsp) ++ bs ∧
      (bs ≠ [] → s.cmdReady = true ∧ s.cmdq ≠ []) := by
  obtain ⟨hr, -⟩ | ⟨-, b, bs, hrsp, ⟨-, e⟩ | ⟨-, e⟩⟩ | ⟨-, -, -, -, e⟩ |
    ⟨-, -, -, hready, ⟨-, e⟩ | ⟨c, rest, hq, e⟩⟩ := step_cases s
  case inl => simp [hrst] at hr
  case inr.inl.inl =>
    cases e.symm.trans h
    exact ⟨[], by simp [hrsp], fun hne => absurd rfl hne⟩
  case inr.inr.inr.inr =>
    obtain ⟨i, hends⟩ := accept_ends (e.symm.trans h)
    obtain ⟨bs, hbs⟩ := hends.rsp_append
    refine ⟨bs, ?_, fun _ => ⟨hready, by simp [hq]⟩⟩
    rw [hbs, hends.sameHost.sent, ← List.append_assoc]
    rfl
  all_goals
    cases e.symm.trans h
    exact ⟨[], (List.append_nil _).symm, fun hne => absurd rfl hne⟩

/-- No edge, not even a reset, takes back a beat that has left. -/
theorem step_sent_prefix {s t : State} (h : step s = .next t) : s.sent <+: t.sent := by
  obtain ⟨-, e⟩ | ⟨-, b, bs, -, ⟨-, e⟩ | ⟨-, e⟩⟩ | ⟨-, -, -, -, e⟩ |
    ⟨-, -, -, -, ⟨-, e⟩ | ⟨c, rest, -, e⟩⟩ := step_cases s
  case inr.inl.inl =>
    cases e.symm.trans h
    exact List.prefix_append s.sent [b]
  case inr.inr.inr.inr =>
    obtain ⟨i, hends⟩ := accept_ends (e.symm.trans h)
    exact hends.sameHost.sent ▸ List.prefix_rfl
  all_goals
    cases e.symm.trans h
    exact List.prefix_rfl

/-- A run of `n + 1` steps is a step and a run of `n`. -/
theorem runSteps_succ {n : Nat} {s t : State} (h : runSteps (n + 1) s = some t) :
    ∃ u, step s = .next u ∧ runSteps n u = some t := by
  unfold runSteps at h
  cases hs : step s with
  | next u => exact ⟨u, rfl, by simpa [hs] using h⟩
  | fault r => cases r
  | refused r => simp [hs] at h

theorem runSteps_sent_prefix (n : Nat) {s t : State} (h : runSteps n s = some t) :
    s.sent <+: t.sent := by
  induction n generalizing s with
  | zero =>
    cases h
    exact List.prefix_rfl
  | succ n ih =>
    obtain ⟨u, hstep, hrun⟩ := runSteps_succ h
    exact (step_sent_prefix hstep).trans (ih hrun)

/-- Settles O11: one edge keeps the order (`step_appends_beats`), and so does a run of them. -/
theorem beatsLeaveInOrder : Obligations.BeatsLeaveInOrder :=
  ⟨fun _ _ => step_appends_beats, fun n _ _ => runSteps_sent_prefix n⟩

end Sys2Proof.Machine
end

section
/-! PROOFS. RD twice (20_memory.md R34): what RD writes is not what it reads, but for `ERR`, which always
holds a value. -/

namespace Sys2Proof.Machine

/-- RD of an unmapped index faults (46_system.md R146). -/
theorem exec_rd_of_unmapped {s : State} {idx : W64}
    (h : (indexOperand idx).bind (regAt s.nmax) = none) :
    exec (.rd idx) s = .next (s.raise .badOperand) := by
  simp [exec, execRd, h]

/-- RD of a mapped register that holds no value faults (46_system.md R146). -/
theorem exec_rd_of_readReg_none {s : State} {idx : W64} {r : Reg}
    (h : (indexOperand idx).bind (regAt s.nmax) = some r) (hv : s.readReg r = none) :
    exec (.rd idx) s = .next (s.raise .noValue) := by
  simp [exec, execRd, h, hv]

/-- RD of a mapped register that holds a value answers it (46_system.md R145). -/
theorem exec_rd_of_readReg_some {s : State} {idx : W64} {r : Reg} {v : W64}
    (h : (indexOperand idx).bind (regAt s.nmax) = some r) (hv : s.readReg r = some v) :
    exec (.rd idx) s = .next (s.finish v) := by
  simp [exec, execRd, h, hv]

/-- An answer changes no register. -/
theorem State.readReg_finish (s : State) (d : W64) (r : Reg) :
    (s.finish d).readReg r = s.readReg r := by
  cases r <;> rfl

/-- A fault gives no register a value: the one it writes, `ERR`, has one already. -/
theorem State.readReg_raise_of_none {s : State} {r : Reg} (h : s.readReg r = none) (st : Status) :
    (s.raise st).readReg r = none := by
  cases r with
  | err => cases h
  | _ => exact h

/-- RD after RD of the same index faults alike or answers the same value: `NMAX` is constant, so that the
index names the same register, and it holds the same value or again none. -/
theorem exec_rd_again {idx : W64} {s t : State} (h : exec (.rd idx) s = .next t) :
    (∃ st, st ≠ .ok ∧ t = s.raise st ∧ exec (.rd idx) t = .next (t.raise st)) ∨
    ∃ v, t = s.finish v ∧ exec (.rd idx) t = .next (t.finish v) := by
  cases hidx : (indexOperand idx).bind (regAt s.nmax) with
  | none =>
    cases (exec_rd_of_unmapped hidx).symm.trans h
    exact .inl ⟨.badOperand, by decide, rfl, exec_rd_of_unmapped hidx⟩
  | some r =>
    cases hv : s.readReg r with
    | none =>
      cases (exec_rd_of_readReg_none hidx hv).symm.trans h
      exact .inl ⟨.noValue, by decide, rfl,
        exec_rd_of_readReg_none hidx (State.readReg_raise_of_none hv .noValue)⟩
    | some v =>
      cases (exec_rd_of_readReg_some hidx hv).symm.trans h
      exact .inr ⟨v, rfl, exec_rd_of_readReg_some hidx ((s.readReg_finish v r).trans hv)⟩

/-- Settles O54: the second RD sends the beat of the first (`exec_rd_again`), and a fault's beat is not
`OK`. -/
theorem rdIsIdempotent : Obligations.RdIsIdempotent := by
  intro idx s t u h h'
  obtain ⟨st, hst, rfl, hagain⟩ | ⟨v, rfl, hagain⟩ := exec_rd_again h
  · cases hagain.symm.trans h'
    exact ⟨faultBeat st, rfl, rfl, rfl, fun hok => absurd hok hst⟩
  · cases hagain.symm.trans h'
    exact ⟨okBeat v, rfl, rfl, rfl, fun _ => rfl⟩

end Sys2Proof.Machine
end

section
/-! PROOFS. The decoder and the encoder (30_encoding.md R47 to R49, R52): what the decoder reads, that it
gives an encoded command back, and the 288 bits of a command. -/

namespace Sys2Proof

/-! ### What the decoder reads -/

/-- An opcode selects `i` when it is the opcode of `i`, and it takes the operand words of `i` from the
words the format uses (30_encoding.md R48, R49). -/
theorem decodeOpcode_eq_some_iff {opc : Nat} {c : Command} {i : Instr} :
    decodeOpcode opc c = some i ↔
      opc = i.opcode.toNat ∧ c.firstWords i.usedWords = { encode i with cw := c.cw } := by
  constructor
  · intro h
    unfold decodeOpcode at h
    split at h <;> cases h <;> exact ⟨rfl, rfl⟩
  · rintro ⟨rfl, h⟩
    calc decodeOpcode i.opcode.toNat c
        = decodeOpcode i.opcode.toNat (c.firstWords i.usedWords) := by cases i <;> rfl
      _ = decodeOpcode i.opcode.toNat { encode i with cw := c.cw } := by rw [h]
      _ = some i := by cases i <;> rfl

/-- A command word with a zero `RSV` field is its opcode, widened (30_encoding.md R47). -/
theorem eq_cwOf_of_reserved_zero {cw : U32} (h : cw.extractLsb' 8 24 = 0) :
    cw = cwOf (cw.extractLsb' 0 8) := by
  have hrsv : cw.toNat / 2 ^ 8 % 2 ^ 24 = 0 := by
    simpa [Nat.shiftRight_eq_div_pow] using congrArg BitVec.toNat h
  apply BitVec.eq_of_toNat_eq
  simp only [cwOf, BitVec.toNat_setWidth, BitVec.extractLsb'_toNat, Nat.shiftRight_zero]
  omega

theorem decode_eq_ok_iff_decodeOpcode {c : Command} {i : Instr} :
    decode c = .ok i ↔ c.cw = cwOf i.opcode ∧ decodeOpcode i.opcode.toNat c = some i := by
  refine ⟨fun h => ?_, fun ⟨hcw, hsel⟩ => decode_of_opcode i.opcode hcw hsel⟩
  unfold decode at h
  split at h
  · next hrsv =>
    split at h
    · next j hsel =>
      cases h
      obtain ⟨hopc, -⟩ := decodeOpcode_eq_some_iff.1 hsel
      have hcw := eq_cwOf_of_reserved_zero hrsv
      rw [BitVec.eq_of_toNat_eq hopc] at hcw
      exact ⟨hcw, hopc ▸ hsel⟩
    · cases h
  · cases h

@[simp] theorem encode_cw (i : Instr) : (encode i).cw = cwOf i.opcode := by cases i <;> rfl

/-- Settles O3: the command word is the opcode's, and that opcode takes the used words. -/
theorem decodeReadsExactlyTheUsedWords : Obligations.DecodeReadsExactlyTheUsedWords := by
  intro c i
  rw [decode_eq_ok_iff_decodeOpcode, decodeOpcode_eq_some_iff]
  constructor
  · rintro ⟨hcw, -, hwords⟩
    rw [hwords, hcw, ← encode_cw]
  · intro h
    have hcw : c.cw = (encode i).cw := congrArg (·.cw) h
    exact ⟨hcw.trans (encode_cw i), rfl, by rw [h, hcw]⟩

/-! ### Encoded commands -/

open Laws.RoundTrip in
/-- Decoding gives an encoded command back, all thirteen together. -/
theorem decode_encode (i : Instr) : decode (encode i) = .ok i :=
  match i with
  | .seed x y z w => seed x y z w
  | .nextU32 => nextU32
  | .nextUniform => nextUniform
  | .fillUniform n => fillUniform n
  | .nextNormal => nextNormal
  | .fillNormal n => fillNormal n
  | .step x => step x
  | .numPoles fmin fknee fsample => numPoles fmin fknee fsample
  | .plan slope fmin fknee fsample => plan slope fmin fknee fsample
  | .plan1 fmin fknee fsample => plan1 fmin fknee fsample
  | .nextColored => nextColored
  | .fillColored n => fillColored n
  | .rd idx => rd idx

/-- A table word that holds the encoding of a command decodes to the command. -/
theorem decodeTableWord_of_encode {nbits w : Nat} {i : Instr} (h : tableCommand nbits w = encode i) :
    decodeTableWord nbits w = some i := by
  simp [decodeTableWord, h, decode_encode]

/-- Settles O1: each `match` word is the encoding of its command with zero operands. -/
theorem tableWordsDecode : Obligations.TableWordsDecode := by
  refine ⟨?_, ?_, ?_, ?_, ?_, ?_, ?_, ?_, ?_, ?_, ?_, ?_, ?_, by decide, by decide, by decide⟩
  all_goals exact decodeTableWord_of_encode (by decide)

/-! ### The 288 bits -/

theorem toNat_append_eq_mul_add {m n : Nat} (x : BitVec m) (y : BitVec n) :
    (x ++ y).toNat = x.toNat * 2 ^ n + y.toNat := by
  rw [BitVec.toNat_append, ← Nat.shiftLeft_add_eq_or_of_lt y.isLt, Nat.shiftLeft_eq]

/-- The 288 bits as a number: the words with their places (notes/assumptions/15.md). -/
theorem Command.toBits_toNat (c : Command) :
    c.toBits.toNat = (((c.d.toNat * 2 ^ 64 + c.c.toNat) * 2 ^ 64 + c.b.toNat) * 2 ^ 64 + c.a.toNat) *
      2 ^ 32 + c.cw.toNat := by
  simp only [Command.toBits, toNat_append_eq_mul_add]

/-- The 288 bits of a command give its words back. -/
theorem tableCommand_toBits (c : Command) : tableCommand 288 c.toBits.toNat = c := by
  obtain ⟨cw, a, b, c, d⟩ := c
  simp only [tableCommand, Command.toBits_toNat, Nat.shiftRight_eq_div_pow, Command.mk.injEq]
  refine ⟨?_, ?_, ?_, ?_, ?_⟩
  all_goals
    apply BitVec.eq_of_toNat_eq
    rw [BitVec.toNat_ofNat]
    omega

/-- Settles O2: the 288 bits give the encoded command back, and decoding that gives the command. -/
theorem decodeOfEncodedBits : Obligations.DecodeOfEncodedBits := fun i =>
  decodeTableWord_of_encode (tableCommand_toBits (encode i))

end Sys2Proof

namespace Sys2Proof.Machine

/-- Settles O5: a command with the same used words decodes to the same instruction. -/
theorem unusedWordsAreIgnored : Obligations.UnusedWordsAreIgnored := by
  intro c c' i s hdec hwords
  have hdec' : decode c' = .ok i :=
    (decodeReadsExactlyTheUsedWords c' i).2
      (hwords.trans ((decodeReadsExactlyTheUsedWords c i).1 hdec))
  rw [accept_of_decode hdec, accept_of_decode hdec']

end Sys2Proof.Machine
end

section
/-! PROOFS. The two handshakes (30_encoding.md R46, R58), along what one clock edge can do (`step_cases`),
and the shape of a response (30_encoding.md R50), along the ways a command can end (`exec_ends`). -/

namespace Sys2Proof.Machine

/-- Settles O9: an edge without a reset, at which a beat waits, is about that beat. -/
theorem beatIsTakenOrHeld : Obligations.BeatIsTakenOrHeld := by
  intro s b bs hrst hrsp
  refine ⟨by simp [State.rspValid, hrst, hrsp], ?_⟩
  obtain ⟨hr, -⟩ | ⟨-, b', bs', hb, hedge⟩ | ⟨-, hnil, -⟩ | ⟨-, hnil, -⟩ := step_cases s
  · simp [hrst] at hr
  · obtain ⟨rfl, rfl⟩ := List.cons.inj (hrsp.symm.trans hb)
    obtain ⟨hready, e⟩ | ⟨hready, e⟩ := hedge
    · exact ⟨fun _ => e, fun h => by simp [hready] at h⟩
    · exact ⟨fun h => by simp [hready] at h, fun _ => e⟩
  · simp [hrsp] at hnil
  · simp [hrsp] at hnil

/-- A ready block takes the command on the port, if there is one, and the edge leaves every other command
where it is (30_encoding.md R46). -/
theorem step_cmdq {s t : State} (h : step s = .next t) :
    t.cmdq = if s.cmdReady then s.cmdq.tail else s.cmdq := by
  obtain ⟨hrst, e⟩ | ⟨-, b, bs, hrsp, ⟨-, e⟩ | ⟨-, e⟩⟩ | ⟨-, -, -, hready, e⟩ |
    ⟨-, -, -, hready, ⟨hq, e⟩ | ⟨c, rest, hq, e⟩⟩ := step_cases s
  case inr.inr.inr.inr =>
    obtain ⟨i, hends⟩ := accept_ends (e.symm.trans h)
    simp [hready, hq, hends.sameHost.cmdq]
  all_goals cases e.symm.trans h
  case inl => simp [State.cmdReady, hrst]
  case inr.inl.inl | inr.inl.inr => simp [State.cmdReady, hrsp]
  case inr.inr.inl => simp [hready]
  case inr.inr.inr.inl => simp [hq]

/-- Settles O10: whether the block is ready decides what an edge does to the commands (`step_cmdq`). -/
theorem presentedCommandWaits : Obligations.PresentedCommandWaits := by
  intro s t h
  have hcmdq := step_cmdq h
  refine ⟨fun hready => by simpa [hready] using hcmdq, fun hready => ?_⟩
  obtain ⟨-, hrsp, hhung⟩ := State.cmdReady_iff.1 hready
  exact ⟨hrsp, hhung, by simpa [hready] using hcmdq⟩

/-- Settles O14, along the three ways a command can end: a fault sends its DONE beat alone, a hang only
DATA beats, a completion all of them and the DONE beat. -/
theorem responseShape : Obligations.ResponseShape := by
  intro i s t hs h
  obtain ⟨st, hst, rfl⟩ | ⟨ys, rfl, hcalls, hlen⟩ | ⟨ys, d, hlen, hdone⟩ := exec_ends h
  · exact .inr ⟨hs, [], st, 0, by simp [faultBeat], by simp [hst]⟩
  · exact .inl ⟨rfl, hcalls, ys, rfl, hlen⟩
  · exact .inr ⟨hdone.hung.trans hs, ys, .ok, d,
      hdone.rsp.trans (List.append_assoc _ _ _).symm, hlen⟩

end Sys2Proof.Machine
end

section
/-! PROOFS. Rounding (40_numerics.md R71, R78): the datum `Val.round` gives is nearest to the exact
magnitude its arguments stand for, so each operator is settled by saying which magnitude that is. -/

namespace Sys2Proof

/-! ### What rounding is told: an integer part and a sticky bit -/

/-- `m` is the integer part of `z`, and `sticky` says whether anything was cut off. -/
structure Truncates (z : ℝ) (m : Nat) (sticky : Bool) : Prop where
  le : (m : ℝ) ≤ z
  lt : z < m + 1
  sticky_iff : sticky = true ↔ (m : ℝ) < z

theorem Truncates.natCast (m : Nat) : Truncates m m false := ⟨le_rfl, by simp, by simp⟩

theorem Truncates.eq {z : ℝ} {m : Nat} (h : Truncates z m false) : z = m :=
  le_antisymm (not_lt.1 fun hlt => nomatch h.sticky_iff.2 hlt) h.le

/-- A natural quotient and its remainder. -/
theorem Truncates.div {m n : Nat} (hn : n ≠ 0) : Truncates ((m : ℝ) / n) (m / n) (m % n != 0) := by
  have hpos : (0 : ℝ) < n := by positivity
  have hdiv : (n : ℝ) * (m / n : Nat) + (m % n : Nat) = m := by exact_mod_cast Nat.div_add_mod m n
  have hlt : ((m % n : Nat) : ℝ) < n := by exact_mod_cast Nat.mod_lt m (Nat.pos_of_ne_zero hn)
  refine ⟨Nat.cast_div_le, ?_, ?_⟩
  · rw [div_lt_iff₀ hpos]; linarith
  · rw [lt_div_iff₀ hpos, bne_iff_ne, ← Nat.pos_iff_ne_zero, ← Nat.cast_pos (α := ℝ)]
    constructor <;> intro h <;> linarith

/-- A natural square root. -/
theorem Truncates.sqrt (n : Nat) : Truncates √n n.sqrt (n != n.sqrt * n.sqrt) := by
  refine ⟨Real.nat_sqrt_le_real_sqrt, Real.real_sqrt_lt_nat_sqrt_succ, ?_⟩
  rw [bne_iff_ne, Real.lt_sqrt (Nat.cast_nonneg _)]
  have hle := Nat.sqrt_le' n
  norm_cast
  rw [← sq]
  omega

/-- The leading bit of the integer part is the leading bit of the number. -/
theorem Truncates.log2_bounds {z : ℝ} {m : Nat} {st : Bool} (h : Truncates z m st) (hm : m ≠ 0) :
    (2 : ℝ) ^ (m.log2 : ℤ) ≤ z ∧ z < 2 ^ ((m.log2 : ℤ) + 1) := by
  have hlo : ((2 ^ m.log2 : Nat) : ℝ) ≤ m := Nat.cast_le.2 (Nat.log2_self_le hm)
  have hhi : ((m + 1 : Nat) : ℝ) ≤ (2 ^ (m.log2 + 1) : Nat) := Nat.cast_le.2 Nat.lt_log2_self
  push_cast at hlo hhi
  exact ⟨by rw [zpow_natCast]; exact hlo.trans h.le, by exact_mod_cast h.lt.trans_le hhi⟩

/-! ### The nearest multiple of a unit -/

/-- `q * u` is a multiple of `u` nearest to `y`, and at a tie `q` is even. -/
structure NearestMultiple (u y : ℝ) (q : Nat) : Prop where
  near : |q * u - y| ≤ u / 2
  even : |q * u - y| = u / 2 → q % 2 = 0

theorem NearestMultiple.of_eq {u y : ℝ} {q : Nat} (hu : 0 < u) (h : q * u = y) :
    NearestMultiple u y q := by
  have h0 : |q * u - y| = 0 := by rw [h, sub_self, abs_zero]
  exact ⟨by linarith, fun h => by linarith⟩

/-- Strictly within half a unit there is no tie. -/
theorem NearestMultiple.of_lt {u y : ℝ} {q : Nat} (h : |q * u - y| < u / 2) : NearestMultiple u y q :=
  ⟨h.le, fun e => absurd e h.ne⟩

theorem NearestMultiple.scale {u y c : ℝ} {q : Nat} (h : NearestMultiple u y q) (hc : 0 < c) :
    NearestMultiple (u * c) (y * c) q := by
  have e : |q * (u * c) - y * c| = |q * u - y| * c := by
    rw [← mul_assoc, ← sub_mul, abs_mul, abs_of_pos hc]
  refine ⟨?_, fun h' => h.even ?_⟩
  · rw [e, mul_div_right_comm]; exact mul_le_mul_of_nonneg_right h.near hc.le
  · rw [e, mul_div_right_comm] at h'; exact mul_right_cancel₀ hc.ne' h'

/-- Another multiple is at least half a unit away. -/
theorem NearestMultiple.le_of_ne {u y : ℝ} {q : Nat} (h : NearestMultiple u y q) (hu : 0 < u) {j : ℤ}
    (hj : j ≠ q) : u / 2 ≤ |j * u - y| := by
  have hone : (1 : ℝ) ≤ |(j : ℝ) - q| := by exact_mod_cast Int.one_le_abs (sub_ne_zero.2 hj)
  have hgap : u ≤ |j * u - q * u| := by
    rw [← sub_mul, abs_mul, abs_of_pos hu]; exact le_mul_of_one_le_left hu.le hone
  linarith [h.near, abs_sub_le (j * u) y (q * u), abs_sub_comm (q * u) y]

theorem NearestMultiple.le {u y : ℝ} {q : Nat} (h : NearestMultiple u y q) (hu : 0 < u) (j : ℤ) :
    |q * u - y| ≤ |j * u - y| := by
  by_cases hj : j = q
  · simp [hj]
  · exact h.near.trans (h.le_of_ne hu hj)

/-- A significand is rounded up to the even number `n` from half a unit below it on: the tie there is with
an odd number. -/
theorem NearestMultiple.eq_even_iff {u y : ℝ} {q n : Nat} (h : NearestMultiple u y q) (hu : 0 < u)
    (hn : n % 2 = 0) (hq : q ≤ n) : q = n ↔ ((n : ℝ) - 1 / 2) * u ≤ y := by
  obtain ⟨hlo, hhi⟩ := abs_le.1 h.near
  constructor
  · rintro rfl; linarith
  · intro hy
    by_contra hne
    have hq' : (q : ℝ) + 1 ≤ n := by exact_mod_cast Nat.lt_of_le_of_ne hq hne
    have hqu := mul_le_mul_of_nonneg_right hq' hu.le
    have heven := h.even (by rw [abs_of_nonpos] <;> linarith)
    have hle : (n : ℝ) ≤ q + 1 := le_of_mul_le_mul_right (by linarith) hu
    have : n = q + 1 := by exact_mod_cast le_antisymm hle hq'
    omega

/-- Halfway between two multiples the even one is taken. -/
theorem NearestMultiple.tie {q : Nat} {half y : ℝ} (h : q * (2 * half) + half = y) (h0 : 0 ≤ half) :
    NearestMultiple (2 * half) y (if q % 2 = 1 then q + 1 else q) := by
  split
  next hodd =>
    have hdist : |((q + 1 : Nat) : ℝ) * (2 * half) - y| = half := by
      rw [show ((q + 1 : Nat) : ℝ) * (2 * half) - y = half by push_cast; linarith, abs_of_nonneg h0]
    exact ⟨by linarith, fun _ => by omega⟩
  next heven =>
    have hdist : |(q : ℝ) * (2 * half) - y| = half := by
      rw [show (q : ℝ) * (2 * half) - y = -half by linarith, abs_neg, abs_of_nonneg h0]
    exact ⟨by linarith, fun _ => by omega⟩

/-- Cutting off `s` bits: the remainder, sticky bit included, is compared with half a unit. -/
theorem shiftRoundEven_nearest {z : ℝ} {m s : Nat} {st : Bool} (h : Truncates z m st) (hs : 0 < s) :
    NearestMultiple (2 ^ s) z (shiftRoundEven m s st) := by
  obtain ⟨k, rfl⟩ := Nat.exists_eq_add_of_le' hs
  obtain ⟨hle, hlt, hst⟩ := h
  have hm : (m >>> (k + 1)) * (2 * 2 ^ k) + m % 2 ^ (k + 1) = m := by
    rw [Nat.shiftRight_eq_div_pow, ← pow_succ']; exact Nat.div_add_mod' m _
  have hr : m % 2 ^ (k + 1) < 2 * 2 ^ k := by rw [← pow_succ']; exact Nat.mod_lt _ (by positivity)
  unfold shiftRoundEven
  dsimp only
  rw [Nat.add_sub_cancel, pow_succ' (2 : ℝ)]
  have hcast : ((2 ^ k : Nat) : ℝ) = 2 ^ k := by push_cast; rfl
  rw [← hcast]
  generalize m >>> (k + 1) = q at hm ⊢
  generalize m % 2 ^ (k + 1) = r at hm hr ⊢
  generalize 2 ^ k = half at hm hr ⊢
  have hmR : (q : ℝ) * (2 * half) + r = m := by exact_mod_cast hm
  by_cases hup : half < r ∨ (r = half ∧ st = true)
  · rw [if_pos (by tauto)]
    have hgt : (q : ℝ) * (2 * half) + half < z := by
      rcases hup with h | ⟨h, h'⟩
      · have : (half : ℝ) < r := Nat.cast_lt.2 h
        linarith
      · subst h; linarith [hst.1 h']
    have hr' : (r : ℝ) + 1 ≤ 2 * half := by exact_mod_cast hr
    refine .of_lt (abs_lt.2 ⟨?_, ?_⟩) <;> push_cast <;> linarith
  · rcases Nat.lt_or_ge r half with hdown | htie
    · rw [if_neg (by omega)]
      have : (r : ℝ) + 1 ≤ half := by exact_mod_cast hdown
      refine .of_lt (abs_lt.2 ⟨?_, ?_⟩) <;> linarith
    · obtain rfl : r = half := by omega
      obtain rfl : st = false := by simpa using hup
      rw [Truncates.eq ⟨hle, hlt, hst⟩, if_congr (show _ ↔ q % 2 = 1 by simp) rfl rfl]
      exact .tie hmR r.cast_nonneg

/-! ### Signs -/

/-- The number of magnitude `y` with the sign bit `neg`. -/
def signed (neg : Bool) (y : ℝ) : ℝ := if neg then -y else y

@[simp] theorem signed_false (y : ℝ) : signed false y = y := rfl
@[simp] theorem signed_true (y : ℝ) : signed true y = -y := rfl

@[simp] theorem signed_zero (neg : Bool) : signed neg 0 = 0 := by cases neg <;> simp

theorem signed_mul_right (neg : Bool) (x y : ℝ) : signed neg (x * y) = signed neg x * y := by
  cases neg <;> simp

theorem signed_mul (s t : Bool) (x y : ℝ) : signed s x * signed t y = signed (s != t) (x * y) := by
  cases s <;> cases t <;> simp

theorem signed_div (s t : Bool) (x y : ℝ) : signed s x / signed t y = signed (s != t) (x / y) := by
  cases s <;> cases t <;> simp [neg_div, div_neg]

theorem abs_signed (neg : Bool) {y : ℝ} (hy : 0 ≤ y) : |signed neg y| = y := by
  cases neg <;> simp [hy]

/-- An integer is its magnitude with its sign; zero may have either sign. -/
theorem signed_natAbs {neg : Bool} {i : ℤ} (h : i ≠ 0 → neg = decide (i < 0)) :
    signed neg i.natAbs = i := by
  rcases lt_trichotomy i 0 with hi | rfl | hi
  · simp [signed, h hi.ne, hi, abs_of_neg]
  · simp
  · simp [signed, h hi.ne', hi.not_gt, hi.le]

theorem scaled_cast (neg : Bool) (m k : Nat) : ((scaled neg m k : ℤ) : ℝ) = signed neg (m * 2 ^ k) := by
  cases neg <;> simp [scaled, Nat.shiftLeft_eq]

/-! ### Exact values -/

theorem Val.toRat_fin (neg : Bool) (m : Nat) (e : Int) :
    ((Val.fin neg m e).toRat : ℝ) = signed neg (m * 2 ^ e) := by
  cases neg <;> simp [Val.toRat]

/-- A datum is a whole multiple of every power of two at or below its own unit. -/
theorem Val.toRat_fin_eq_scaled {neg : Bool} {m : Nat} {e g : Int} (h : g ≤ e) :
    ((Val.fin neg m e).toRat : ℝ) = scaled neg m (e - g).toNat * 2 ^ g := by
  have he : (2 : ℝ) ^ e = 2 ^ (e - g).toNat * 2 ^ g := by
    rw [← zpow_natCast, ← zpow_add₀ two_ne_zero]; congr 1; omega
  rw [toRat_fin, scaled_cast, he, ← mul_assoc, signed_mul_right]

theorem Val.toRat_neg (a : Val) : a.neg.toRat = -a.toRat := by
  cases a with
  | fin s m e => cases s <;> simp [Val.neg, Val.toRat]
  | _ => simp [Val.neg, Val.toRat]

theorem Val.inFormat_neg {a : Val} : a.neg.inFormat ↔ a.inFormat := by cases a <;> rfl

theorem Val.inFormat_iff {a : Val} :
    a.inFormat ↔ ∃ s m e, a = .fin s m e ∧ m < 2 ^ 53 ∧ -1074 ≤ e ∧ e ≤ 971 := by
  cases a <;> simp [Val.inFormat]

theorem Val.neg_neg_self (a : Val) : a.neg.neg = a := by cases a <;> simp [Val.neg]

theorem Val.overflowBound_eq : Val.overflowBound = (2 ^ 53 - 1 / 2) * 2 ^ (971 : ℤ) := by
  have h : (2 : ℝ) ^ 971 = 2 * 2 ^ 970 := pow_succ' 2 970
  rw [Val.overflowBound, show (2 : ℝ) ^ (971 : ℤ) = 2 ^ 971 from zpow_natCast 2 971, h]
  generalize (2 : ℝ) ^ 970 = half
  ring

theorem Val.overflowBound_pos : 0 < Val.overflowBound := by
  rw [overflowBound_eq]; exact mul_pos (by norm_num) (by positivity)

theorem Val.nearest_neg {x : ℝ} {r : Val} (h : Val.nearest x r) : Val.nearest (-x) r.neg := by
  obtain ⟨hf, hmin⟩ := h
  have hdist (v : Val) (x : ℝ) : |(v.neg.toRat : ℝ) - -x| = |(v.toRat : ℝ) - x| := by
    rw [toRat_neg, Rat.cast_neg, ← neg_sub', abs_neg]
  refine ⟨inFormat_neg.2 hf, fun d hd => ?_⟩
  obtain ⟨hle, htie⟩ := hmin d.neg (inFormat_neg.2 hd)
  have hd' : |(d.neg.toRat : ℝ) - x| = |(d.toRat : ℝ) - -x| := by rw [← hdist, Val.neg_neg_self]
  rw [hdist, ← hd']
  refine ⟨hle, fun he hne => ?_⟩
  obtain ⟨s, m, e, rfl, hm⟩ := htie he fun h => hne (by rw [toRat_neg, ← h, toRat_neg, neg_neg])
  exact ⟨!s, m, e, rfl, hm⟩

theorem Val.rounds_neg {x : ℝ} {r : Val} (h : Val.rounds x r) : Val.rounds (-x) r.neg := by
  obtain ⟨hfin, hinf⟩ := h
  refine ⟨fun hx => nearest_neg (hfin (by rwa [abs_neg] at hx)), fun hx => ?_⟩
  rw [abs_neg] at hx
  obtain ⟨neg, rfl, hneg⟩ := hinf hx
  have h0 : x ≠ 0 := abs_pos.1 (overflowBound_pos.trans_le hx)
  refine ⟨!neg, rfl, ?_⟩
  rw [Bool.not_eq_true', ← Bool.not_eq_true, hneg, not_lt, neg_lt_zero, h0.symm.le_iff_lt]

/-! ### The significand of a rounded number -/

theorem two_mul_zpow_le {g h : ℤ} (hlt : g < h) : (2 : ℝ) * 2 ^ g ≤ 2 ^ h := by
  rw [← zpow_one_add₀ two_ne_zero]
  exact zpow_le_zpow_right₀ one_le_two (by omega)

/-- The datum `(-1)^neg * q * 2^g` when `q` is at most `2^53`, an infinity when it is out of the format. -/
def Val.ofSignificand (neg : Bool) (q : Nat) (g : Int) : Val :=
  if 971 < (if q = 2 ^ 53 then g + 1 else g) then .inf neg
  else .fin neg (if q = 2 ^ 53 then 2 ^ 52 else q) (if q = 2 ^ 53 then g + 1 else g)

theorem Val.ofSignificand_fin (neg : Bool) {q : Nat} {g : Int} (hq : q ≤ 2 ^ 53) (hg : -1074 ≤ g)
    (hexp : ¬ 971 < (if q = 2 ^ 53 then g + 1 else g)) :
    ∃ m e, Val.ofSignificand neg q g = .fin neg m e ∧ (Val.fin neg m e).inFormat ∧
      ((Val.fin neg m e).toRat : ℝ) = signed neg (q * 2 ^ g) ∧ (q % 2 = 0 → m % 2 = 0) := by
  refine ⟨_, _, if_neg hexp, ?_⟩
  rw [toRat_fin]
  split at hexp
  next h53 =>
    rw [if_pos h53, if_pos h53, h53, zpow_add_one₀ two_ne_zero]
    exact ⟨⟨by decide, by omega, by omega⟩, by push_cast; ring_nf, fun _ => by decide⟩
  next h53 =>
    rw [if_neg h53, if_neg h53]
    exact ⟨⟨by omega, by omega, by omega⟩, rfl, id⟩

/-- The magnitude `y` takes 53 bits above `2^g`, or `2^g` is the least unit of the format, and `q` is `y`
in units of `2^g`, rounded. -/
structure IsSignificand (y : ℝ) (q : Nat) (g : Int) : Prop where
  exp_ge : -1074 ≤ g
  nonneg : 0 ≤ y
  lt : y < 2 ^ 53 * 2 ^ g
  normal : -1074 < g → 2 ^ 52 * 2 ^ g ≤ y
  nearest : NearestMultiple (2 ^ g) y q

section
variable {y : ℝ} {q : Nat} {g : Int}

theorem IsSignificand.le_pow (h : IsSignificand y q g) : q ≤ 2 ^ 53 := by
  have hu : (0 : ℝ) < 2 ^ g := by positivity
  have hnear := (abs_le.1 h.nearest.near).2
  have hlt := h.lt
  have : (q : ℝ) * 2 ^ g < (2 ^ 53 + 1) * 2 ^ g := by linarith
  have := lt_of_mul_lt_mul_right this hu.le
  have : q < 2 ^ 53 + 1 := by exact_mod_cast this
  omega

/-- No datum of the format is nearer than the rounded significand: a datum in units of `2^g` is a multiple
of it, and one with a finer unit is below the whole binade of `y`. -/
theorem IsSignificand.nearest_fin (h : IsSignificand y q g) {neg : Bool} {m : Nat} {e : Int}
    (hd : (Val.fin neg m e).inFormat) :
    |q * 2 ^ g - y| ≤ |((Val.fin neg m e).toRat : ℝ) - y| ∧
      (|q * 2 ^ g - y| = |((Val.fin neg m e).toRat : ℝ) - y| →
        ((Val.fin neg m e).toRat : ℝ) ≠ q * 2 ^ g → q % 2 = 0) := by
  have hu : (0 : ℝ) < 2 ^ g := by positivity
  rcases le_or_gt g e with hge | hlt
  · rw [Val.toRat_fin_eq_scaled hge]
    refine ⟨h.nearest.le hu _, fun he hne => h.nearest.even ?_⟩
    have hj : scaled neg m (e - g).toNat ≠ q := fun hj => hne (by rw [hj, Int.cast_natCast])
    exact le_antisymm h.nearest.near (he ▸ h.nearest.le_of_ne hu hj)
  · obtain ⟨hm, hmin, -⟩ := hd
    have hsmall : ((Val.fin neg m e).toRat : ℝ) < 2 ^ 52 * 2 ^ g := by
      refine (le_abs_self _).trans_lt ?_
      rw [Val.toRat_fin, abs_signed _ (by positivity)]
      calc (m : ℝ) * 2 ^ e < 2 ^ 53 * 2 ^ e := mul_lt_mul_of_pos_right (by exact_mod_cast hm) (by positivity)
        _ = 2 ^ 52 * 2 ^ (e + 1) := by rw [zpow_add_one₀ two_ne_zero]; ring
        _ ≤ 2 ^ 52 * 2 ^ g := mul_le_mul_of_nonneg_left
          (zpow_le_zpow_right₀ one_le_two (by omega)) (by positivity)
    have hnormal := h.normal (by omega)
    have hbinade := h.nearest.le hu (2 ^ 52)
    rw [Int.cast_pow, Int.cast_ofNat] at hbinade
    rw [abs_of_nonpos (by linarith : (2 : ℝ) ^ 52 * 2 ^ g - y ≤ 0)] at hbinade
    rw [abs_of_neg (by linarith : ((Val.fin neg m e).toRat : ℝ) - y < 0)]
    exact ⟨by linarith, fun he => by linarith⟩

/-- The exponent leaves the format exactly from the overflow bound on. -/
theorem IsSignificand.overflow_iff (h : IsSignificand y q g) :
    971 < (if q = 2 ^ 53 then g + 1 else g) ↔ Val.overflowBound ≤ y := by
  rw [Val.overflowBound_eq]
  have hlt := h.lt
  rcases lt_trichotomy g 971 with hg | rfl | hg
  · refine iff_of_false (by split <;> omega) (not_le.2 ?_)
    have hle := two_mul_zpow_le hg
    have hu : (0 : ℝ) < 2 ^ g := by positivity
    generalize (2 : ℝ) ^ (971 : ℤ) = U at hle ⊢
    linarith
  · have hiff := h.nearest.eq_even_iff (n := 2 ^ 53) (by positivity) (by decide) h.le_pow
    rw [Nat.cast_pow, Nat.cast_ofNat] at hiff
    rw [← hiff]
    split
    next h53 => exact iff_of_true (by decide) h53
    next h53 => exact iff_of_false (by decide) h53
  · refine iff_of_true (by split <;> omega) ?_
    have hnormal := h.normal (by omega)
    have hle := two_mul_zpow_le hg
    have hu : (0 : ℝ) < 2 ^ (971 : ℤ) := by positivity
    generalize (2 : ℝ) ^ (971 : ℤ) = U at hle hu ⊢
    linarith

/-- Rounding the significand of `y` is rounding `y`. -/
theorem IsSignificand.rounds (h : IsSignificand y q g) :
    Val.rounds y (Val.ofSignificand false q g) := by
  rw [Val.rounds, abs_of_nonneg h.nonneg]
  refine ⟨fun hy => ?_, fun hy => ⟨false, ?_, by simp [h.nonneg]⟩⟩
  · obtain ⟨m, e, heq, hfmt, hval, heven⟩ :=
      Val.ofSignificand_fin false h.le_pow h.exp_ge (mt h.overflow_iff.1 (not_le.2 hy))
    rw [heq]
    refine ⟨hfmt, fun d hd => ?_⟩
    obtain ⟨s, m', e', rfl, -⟩ := Val.inFormat_iff.1 hd
    obtain ⟨hle, htie⟩ := h.nearest_fin hd
    rw [signed_false] at hval
    rw [← hval] at hle htie
    exact ⟨hle, fun he hne => ⟨false, m, e, rfl, heven (htie he (Rat.cast_injective.ne hne))⟩⟩
  · rw [Val.ofSignificand, if_pos (h.overflow_iff.2 hy)]

end

/-! ### `Val.round` -/

/-- How many bits of `m` rounding cuts off, negative when it appends zeros. -/
def dropBits (m : Nat) (e : Int) : Int := max ((m.log2 : Int) - 52) (-1074 - e)

/-- What is left of `m`, rounded to even. -/
def keepBits (m : Nat) (drop : Int) (sticky : Bool) : Nat :=
  if drop ≤ 0 then m <<< (-drop).toNat else shiftRoundEven m drop.toNat sticky

theorem Val.round_zero (neg : Bool) (e : Int) (st : Bool) : Val.round neg 0 e st = .fin neg 0 (-1074) := rfl

theorem Val.round_of_ne_zero {m : Nat} (hm : m ≠ 0) (neg : Bool) (e : Int) (st : Bool) :
    Val.round neg m e st =
      .ofSignificand neg (keepBits m (dropBits m e) st) (e + dropBits m e) := if_neg hm

theorem Val.round_true (m : Nat) (e : Int) (st : Bool) :
    Val.round true m e st = (Val.round false m e st).neg := by
  by_cases hm : m = 0
  · subst hm; rfl
  · rw [round_of_ne_zero hm, round_of_ne_zero hm, ofSignificand, ofSignificand]
    split <;> split <;> rfl

section
variable {z : ℝ} {m : Nat} {st : Bool}

/-- `hst`: where something was cut off before, there are bits left to cut off. -/
theorem keepBits_nearest (h : Truncates z m st) {drop : Int} (hst : st = true → 0 < drop) :
    NearestMultiple (2 ^ drop) z (keepBits m drop st) := by
  unfold keepBits
  split
  next hd =>
    obtain rfl : st = false := Bool.eq_false_iff.2 fun h => absurd (hst h) (not_lt.2 hd)
    refine .of_eq (by positivity) ?_
    rw [h.eq, Nat.shiftLeft_eq, Nat.cast_mul, Nat.cast_pow, Nat.cast_ofNat, mul_assoc, ← zpow_natCast,
      ← zpow_add₀ two_ne_zero, show ((-drop).toNat : ℤ) + drop = 0 by omega, zpow_zero, mul_one]
  next hd =>
    rw [show (2 : ℝ) ^ drop = 2 ^ drop.toNat by rw [← zpow_natCast, Int.toNat_of_nonneg (by omega)]]
    exact shiftRoundEven_nearest h (by omega)

theorem Truncates.isSignificand (h : Truncates z m st) (hm : m ≠ 0) (hst : st = true → 2 ^ 54 ≤ m)
    (e : Int) :
    IsSignificand (z * 2 ^ e) (keepBits m (dropBits m e) st) (e + dropBits m e) := by
  obtain ⟨hlo, hhi⟩ := h.log2_bounds hm
  have he : (0 : ℝ) < 2 ^ e := by positivity
  have hdrop : dropBits m e = max ((m.log2 : Int) - 52) (-1074 - e) := rfl
  generalize dropBits m e = drop at hdrop ⊢
  refine ⟨by omega, mul_nonneg (m.cast_nonneg.trans h.le) he.le, ?_, fun hg => ?_, ?_⟩
  · calc z * 2 ^ e < 2 ^ ((m.log2 : ℤ) + 1) * 2 ^ e := mul_lt_mul_of_pos_right hhi he
      _ = 2 ^ ((m.log2 : ℤ) + 1 + e) := (zpow_add₀ two_ne_zero _ _).symm
      _ ≤ 2 ^ (53 + (e + drop)) := zpow_le_zpow_right₀ one_le_two (by omega)
      _ = 2 ^ 53 * 2 ^ (e + drop) := zpow_add₀ two_ne_zero _ _
  · calc (2 : ℝ) ^ 52 * 2 ^ (e + drop) = 2 ^ (52 + (e + drop)) := (zpow_add₀ two_ne_zero 52 _).symm
      _ = 2 ^ ((m.log2 : ℤ) + e) := by congr 1; omega
      _ = 2 ^ (m.log2 : ℤ) * 2 ^ e := zpow_add₀ two_ne_zero _ _
      _ ≤ z * 2 ^ e := mul_le_mul_of_nonneg_right hlo he.le
  · rw [add_comm e, zpow_add₀ two_ne_zero]
    refine (keepBits_nearest h fun hs => ?_).scale he
    have := (Nat.le_log2 hm).2 (hst hs)
    omega

theorem Val.rounds_zero (neg : Bool) : Val.rounds 0 (.fin neg 0 (-1074)) := by
  have h0 : ((Val.fin neg 0 (-1074)).toRat : ℝ) = 0 := by rw [toRat_fin]; simp
  refine ⟨fun _ => ⟨⟨by decide, by decide, by decide⟩, fun d _ => ⟨?_, fun _ _ => ⟨_, _, _, rfl, rfl⟩⟩⟩,
    fun h => absurd h (not_le.2 (by rw [abs_zero]; exact overflowBound_pos))⟩
  rw [h0, sub_zero, abs_zero]
  exact abs_nonneg _

/-- `Val.round` rounds the exact number that its arguments stand for. -/
theorem Truncates.rounds (h : Truncates z m st) (hst : st = true → 2 ^ 54 ≤ m) (neg : Bool) (e : Int) :
    Val.rounds (signed neg (z * 2 ^ e)) (.round neg m e st) := by
  by_cases hm : m = 0
  · subst hm
    obtain rfl : st = false := Bool.eq_false_iff.2 fun h => absurd (hst h) (by decide)
    rw [h.eq, Nat.cast_zero, zero_mul, signed_zero, Val.round_zero]
    exact Val.rounds_zero neg
  · have hpos : Val.rounds (z * 2 ^ e) (.round false m e st) := by
      rw [Val.round_of_ne_zero hm]; exact (h.isSignificand hm hst e).rounds
    cases neg with
    | false => exact hpos
    | true => rw [Val.round_true]; exact Val.rounds_neg hpos

/-- Without a sticky bit it rounds `m * 2^e`. -/
theorem Val.round_rounds (neg : Bool) (m : Nat) (e : Int) :
    Val.rounds (signed neg (m * 2 ^ e)) (.round neg m e false) :=
  (Truncates.natCast m).rounds nofun neg e

end

/-! ### The operators -/

theorem pow_log2_add_le_shiftLeft {m : Nat} (hm : m ≠ 0) (k : Nat) : 2 ^ (m.log2 + k) ≤ m <<< k := by
  rw [pow_add, Nat.shiftLeft_eq]
  exact Nat.mul_le_mul_right _ (Nat.log2_self_le hm)

theorem shiftLeft_lt_pow_log2_add (m k : Nat) : m <<< k < 2 ^ (m.log2 + 1 + k) := by
  rw [pow_add, Nat.shiftLeft_eq]
  exact Nat.mul_lt_mul_of_pos_right Nat.lt_log2_self (by positivity)

theorem Val.add_fin (s t : Bool) (m n : Nat) (e f : Int) :
    (Val.fin s m e).add (.fin t n f) =
      .round (if scaled s m (e - min e f).toNat + scaled t n (f - min e f).toNat = 0 then s && t
          else decide (scaled s m (e - min e f).toNat + scaled t n (f - min e f).toNat < 0))
        (scaled s m (e - min e f).toNat + scaled t n (f - min e f).toNat).natAbs (min e f) false := rfl

theorem Val.mul_fin (s t : Bool) (m n : Nat) (e f : Int) :
    (Val.fin s m e).mul (.fin t n f) = .round (s != t) (m * n) (e + f) false := rfl

theorem Val.div_fin {n : Nat} (hn : n ≠ 0) (s t : Bool) (m : Nat) (e f : Int) :
    (Val.fin s m e).div (.fin t n f) =
      if m = 0 then .fin (s != t) 0 (-1074) else .roundQuot (s != t) m n (e - f) := if_neg hn

section
variable {s t : Bool} {m n : Nat} {e f : Int}

theorem Val.add_fin_rounds :
    Val.rounds ((Val.fin s m e).toRat + (Val.fin t n f).toRat : ℝ) ((Val.fin s m e).add (.fin t n f)) := by
  rw [toRat_fin_eq_scaled (min_le_left e f), toRat_fin_eq_scaled (min_le_right e f), ← add_mul,
    ← Int.cast_add, add_fin]
  generalize scaled s m (e - min e f).toNat + scaled t n (f - min e f).toNat = i
  generalize min e f = k
  generalize hneg : (if i = 0 then s && t else decide (i < 0)) = neg
  have hi : signed neg i.natAbs = i := signed_natAbs fun h0 => by rw [← hneg, if_neg h0]
  rw [← hi, ← signed_mul_right]
  exact round_rounds neg i.natAbs k

theorem Val.mul_fin_rounds :
    Val.rounds ((Val.fin s m e).toRat * (Val.fin t n f).toRat : ℝ) ((Val.fin s m e).mul (.fin t n f)) := by
  have : (m * 2 ^ e * (n * 2 ^ f) : ℝ) = (m * n : Nat) * 2 ^ (e + f) := by
    rw [mul_mul_mul_comm, ← zpow_add₀ two_ne_zero, Nat.cast_mul]
  rw [toRat_fin, toRat_fin, signed_mul, this, mul_fin]
  exact round_rounds (s != t) (m * n) (e + f)

/-- The dividend is widened until the quotient has more bits than the format. -/
theorem Val.roundQuot_rounds (neg : Bool) (hm : m ≠ 0) (hn : n ≠ 0) :
    Val.rounds (signed neg (m / n * 2 ^ e)) (.roundQuot neg m n e) := by
  unfold roundQuot
  dsimp only
  generalize hk : n.log2 + 57 - m.log2 = k
  have hz : (m : ℝ) / n * 2 ^ e = (m <<< k : Nat) / n * 2 ^ (e - k) := by
    rw [Nat.shiftLeft_eq, zpow_sub₀ two_ne_zero, zpow_natCast, Nat.cast_mul, Nat.cast_pow, Nat.cast_ofNat]
    field_simp
  rw [hz]
  refine (Truncates.div hn).rounds (fun _ => ?_) neg _
  rw [Nat.le_div_iff_mul_le (Nat.pos_of_ne_zero hn)]
  calc 2 ^ 54 * n ≤ 2 ^ 54 * 2 ^ (n.log2 + 1) := Nat.mul_le_mul_left _ Nat.lt_log2_self.le
    _ = 2 ^ (54 + (n.log2 + 1)) := (pow_add _ _ _).symm
    _ ≤ 2 ^ (m.log2 + k) := Nat.pow_le_pow_right two_pos (by omega)
    _ ≤ m <<< k := pow_log2_add_le_shiftLeft hm k

theorem Val.div_fin_rounds (hn : n ≠ 0) :
    Val.rounds ((Val.fin s m e).toRat / (Val.fin t n f).toRat : ℝ) ((Val.fin s m e).div (.fin t n f)) := by
  have : (m * 2 ^ e / (n * 2 ^ f) : ℝ) = m / n * 2 ^ (e - f) := by
    rw [mul_div_mul_comm, zpow_sub₀ two_ne_zero]
  rw [toRat_fin, toRat_fin, signed_div, this, div_fin hn]
  split
  next hm => subst hm; simpa using rounds_zero (s != t)
  next hm => exact roundQuot_rounds (s != t) hm hn

end

/-- Settles O59: each operator is one `Val.round` of the exact result. -/
theorem arithmeticRoundsToNearest : Obligations.ArithmeticRoundsToNearest := by
  intro a b ha hb
  obtain ⟨s, m, e, rfl, -⟩ := Val.inFormat_iff.1 ha
  obtain ⟨t, n, f, rfl, -⟩ := Val.inFormat_iff.1 hb
  refine ⟨Val.add_fin_rounds, ?_, Val.mul_fin_rounds, fun hb0 => Val.div_fin_rounds ?_⟩
  · rw [sub_eq_add_neg, ← Rat.cast_neg, ← Val.toRat_neg]
    exact Val.add_fin_rounds
  · rintro rfl
    exact hb0 (by simp [Val.toRat])

/-! ### The square root -/

/-- The halving keeps the root between `r` and `r + 2^k`. -/
theorem isqrtFrom_bounds {n : Nat} (k r : Nat) (hlo : r * r ≤ n) (hhi : n < (r + 2 ^ k) * (r + 2 ^ k)) :
    isqrtFrom n k r * isqrtFrom n k r ≤ n ∧ n < (isqrtFrom n k r + 1) * (isqrtFrom n k r + 1) := by
  induction k generalizing r with
  | zero => exact ⟨hlo, hhi⟩
  | succ k ih =>
    unfold isqrtFrom
    split
    next h => exact ih _ h (by rwa [add_assoc, ← two_mul, ← pow_succ'])
    next h => exact ih _ hlo (not_le.1 h)

theorem isqrtFrom_eq_sqrt {n k : Nat} (h : n < 2 ^ k * 2 ^ k) : isqrtFrom n k 0 = n.sqrt :=
  Nat.eq_sqrt.2 (isqrtFrom_bounds k 0 (Nat.zero_le n) (by simpa using h))

/-- By how many bits the operand is widened. -/
def sqrtShift (m : Nat) (e : Int) : Nat :=
  if (e - (110 - m.log2 : Nat)) % 2 = 0 then 110 - m.log2 else 110 - m.log2 - 1

theorem sqrtShift_even {m : Nat} {e : Int} (hL : m.log2 < 110) : (e - sqrtShift m e) % 2 = 0 := by
  unfold sqrtShift; split <;> omega

theorem log2_add_sqrtShift {m : Nat} {e : Int} (hL : m.log2 < 110) :
    109 ≤ m.log2 + sqrtShift m e ∧ m.log2 + sqrtShift m e ≤ 110 := by
  unfold sqrtShift; split <;> omega

theorem Val.sqrt_fin {m : Nat} (hm : m ≠ 0) (e : Int) :
    (Val.fin false m e).sqrt =
      .round false (isqrtFrom (m <<< sqrtShift m e) 56 0) ((e - sqrtShift m e) / 2)
        (m <<< sqrtShift m e !=
          isqrtFrom (m <<< sqrtShift m e) 56 0 * isqrtFrom (m <<< sqrtShift m e) 56 0) :=
  (if_neg hm).trans (if_neg Bool.false_ne_true)

/-- The operand is widened by an even power of two until the root has more bits than the format. -/
theorem Val.sqrt_fin_rounds {m : Nat} {e : Int} (hm : m ≠ 0) (hlt : m < 2 ^ 53) :
    Val.rounds √(m * 2 ^ e : ℝ) (Val.fin false m e).sqrt := by
  have hL : m.log2 < 53 := (Nat.log2_lt hm).2 hlt
  have heven := sqrtShift_even (m := m) (e := e) (by omega)
  obtain ⟨hlo, hhi⟩ := log2_add_sqrtShift (m := m) (e := e) (by omega)
  rw [sqrt_fin hm]
  generalize sqrtShift m e = k at heven hlo hhi ⊢
  obtain ⟨j, hj⟩ : ∃ j, e = k + 2 * j := ⟨(e - k) / 2, by omega⟩
  have hroot : √(m * 2 ^ e : ℝ) = √(m <<< k : Nat) * 2 ^ j := by
    rw [hj, zpow_add₀ two_ne_zero, ← mul_assoc, Real.sqrt_mul (by positivity), mul_comm 2 j, zpow_mul,
      zpow_ofNat, Real.sqrt_sq (by positivity), Nat.shiftLeft_eq, Nat.cast_mul, zpow_natCast, Nat.cast_pow,
      Nat.cast_ofNat]
  have hn : m <<< k < 2 ^ 56 * 2 ^ 56 := by
    rw [← pow_add]
    exact (shiftLeft_lt_pow_log2_add m k).trans_le (Nat.pow_le_pow_right two_pos (by omega))
  have hn' : 2 ^ 54 * 2 ^ 54 ≤ m <<< k := by
    rw [← pow_add]
    exact (Nat.pow_le_pow_right two_pos (by omega)).trans (pow_log2_add_le_shiftLeft hm k)
  rw [hroot, isqrtFrom_eq_sqrt hn, show (e - k) / 2 = j by omega]
  exact (Truncates.sqrt _).rounds (fun _ => Nat.le_sqrt.2 hn') false j

/-- No square root overflows. -/
theorem Val.sqrt_lt_overflowBound {m : Nat} {e : Int} (hm : m < 2 ^ 53) (he : e ≤ 971) :
    √(m * 2 ^ e : ℝ) < Val.overflowBound := by
  have hU : (1 : ℝ) ≤ 2 ^ (971 : ℤ) := one_le_zpow₀ one_le_two (by decide)
  have hm' : (m : ℝ) ≤ 2 ^ 53 := by exact_mod_cast hm.le
  have hx : (m : ℝ) * 2 ^ e ≤ 2 ^ 53 * 2 ^ (971 : ℤ) :=
    mul_le_mul hm' (zpow_le_zpow_right₀ one_le_two he) (by positivity) (by positivity)
  rw [overflowBound_eq]
  generalize (2 : ℝ) ^ (971 : ℤ) = U at hU hx ⊢
  have hUU : U ≤ U * U := le_mul_of_one_le_left (by linarith) hU
  rw [Real.sqrt_lt' (mul_pos (by norm_num) (by linarith)), mul_pow, sq U]
  linarith

/-- Settles O60: the root of a finite operand is one `Val.round` of the exact root, and never overflows. -/
theorem sqrtRoundsToNearest : Obligations.SqrtRoundsToNearest := by
  intro a ha h0
  obtain ⟨s, m, e, rfl, hm, -, he⟩ := Val.inFormat_iff.1 ha
  by_cases hm0 : m = 0
  · subst hm0
    rw [Val.toRat_fin, Nat.cast_zero, zero_mul, signed_zero, Real.sqrt_zero]
    exact (Val.rounds_zero s).1 (by rw [abs_zero]; exact Val.overflowBound_pos)
  · obtain rfl : s = false := Bool.eq_false_iff.2 fun hs => by
      subst hs
      have : 0 < (m : ℚ) * 2 ^ e := by positivity
      simp only [Val.toRat, if_true] at h0
      linarith
    rw [Val.toRat_fin]
    refine (Val.sqrt_fin_rounds hm0 hm).1 ?_
    rw [abs_of_nonneg (Real.sqrt_nonneg _)]
    exact Val.sqrt_lt_overflowBound hm he

end Sys2Proof
end

section
/-! PROOFS. The uniform generator (41_uniform.md R85 to R90): the scramble and the core update lose nothing
on a finite set of words, so they are bijections, and SEED tells its substituted operands apart. -/

namespace Sys2Proof.Machine

/-! ### Finitely many words and states -/

theorem finite_bitVec (n : Nat) : Finite (BitVec n) :=
  Finite.of_injective BitVec.toFin fun _ _ => BitVec.eq_of_toFin_eq

theorem finite_words : Finite Words := by
  obtain ⟨code, inj⟩ := exists_wordsCode
  exact Finite.of_injective code inj

/-! ### The scramble -/

theorem twiddle_injective : Function.Injective twiddle := twiddleRound_injective.iterate 9

theorem twiddle_bijective : Function.Bijective twiddle :=
  have := finite_bitVec 32
  twiddle_injective.bijective_of_finite

/-- Settles O22: a round is injective and fixes zero, so nine rounds are and do; the worked values are
computed. -/
theorem twiddleIsABijection : Obligations.TwiddleIsABijection :=
  ⟨fun _ => rfl, twiddle_bijective, Function.iterate_fixed twiddleRound_zero 9,
    fun _ => twiddle_ne_zero, by decide⟩

/-! ### The core update -/

/-- `S[1..3]` stay in the new state, and the new word is then two xor-shifts of `S[0]` away (R88). -/
theorem nextWords_injective : Function.Injective nextWords := by
  rintro ⟨a, b, c, d⟩ ⟨a', b', c', d'⟩ h
  simp only [nextWords, Words.mk.injEq] at h
  obtain ⟨rfl, rfl, rfl, hnew⟩ := h
  have hmix := xorShiftRight_injective (k := 8) (by decide) (BitVec.xor_right_inj _ |>.1 hnew)
  rw [xorShiftLeft_injective (k := 11) (by decide) hmix]

theorem nextWords_bijective : Function.Bijective nextWords :=
  have := finite_words
  nextWords_injective.bijective_of_finite

theorem nextWords_zero : nextWords ⟨0, 0, 0, 0⟩ = ⟨0, 0, 0, 0⟩ := by decide

/-- Settles O23: the update is injective and fixes the all-zero state; the worked updates are computed. -/
theorem updateIsABijection : Obligations.UpdateIsABijection :=
  ⟨fun _ _ _ _ => rfl, fun _ => rfl, nextWords_bijective,
    fun _ => ⟨fun h => nextWords_injective (h.trans nextWords_zero.symm), fun h => h ▸ nextWords_zero⟩,
    by decide, by decide⟩

/-! ### SEED -/

theorem burnIn_injective : Function.Injective burnIn := nextWords_injective.iterate 16

/-- Settles O25: the burn-in and the scramble of each word lose nothing, so only the substitution can. -/
theorem seedIsInjective : Obligations.SeedIsInjective := by
  intro x y z w x' y' z' w'
  refine ⟨fun h => ?_, fun h => by simp only [seedWords, h]⟩
  have hscrambled := burnIn_injective h
  generalize seedSubst x y z w = v at hscrambled ⊢
  generalize seedSubst x' y' z' w' = v' at hscrambled ⊢
  obtain ⟨a, b, c, d⟩ := v
  obtain ⟨a', b', c', d'⟩ := v'
  simpa only [Words.mk.injEq, twiddle_injective.eq_iff] using hscrambled

/-- Settles O21: the four defaults are not zero. -/
theorem seedSubstitution : Obligations.SeedSubstitution := fun x y z w =>
  ⟨rfl, substZero_ne_zero (by decide) x, substZero_ne_zero (by decide) y,
    substZero_ne_zero (by decide) z, substZero_ne_zero (by decide) w⟩

/-- Settles O24: operands below 2^32 are well-formed, and SEED of well-formed operands is
`exec_seed_of_wellFormed`. -/
theorem seedCompletes : Obligations.SeedCompletes := by
  intro x y z w s hx hy hz hw
  have hwf : (Instr.seed x y z w).wellFormed = true := by
    simp only [Instr.wellFormed, Bool.and_eq_true, fitsU32_iff]
    exact ⟨⟨⟨hx, hy⟩, hz⟩, hw⟩
  rw [exec_seed_of_wellFormed hwf]
  rfl

/-! ### NEXT_U32 -/

/-- Without a seed NEXT_U32 faults (60_exceptions.md R155). -/
theorem exec_nextU32_unseeded {s : State} (h : s.gen = .unseeded) :
    exec .nextU32 s = .next (s.raise .notSeeded) := by
  rw [exec, execNextU32, State.ifSeeded_unseeded h]

/-- A seeded NEXT_U32 answers one draw (R90). -/
theorem exec_nextU32_seeded {s : State} {w : Words} (h : s.gen = .seeded w) :
    exec .nextU32 s = .next (s.answerOne (sampleU32 (s.source w))) := by
  rw [exec, execNextU32, State.ifSeeded_seeded h]

/-- Settles O27: the draw writes the words of the draw state alone. -/
theorem nextU32Completes : Obligations.NextU32Completes :=
  fun _ => ⟨fun _ h => exec_nextU32_seeded h, fun h => exec_nextU32_unseeded h⟩

end Sys2Proof.Machine
end

section
/-! PROOFS. The uniforms (41_uniform.md R91, R92, R95): a uniform is exactly `r / 2^32`, since neither the
conversion of `r` nor the product with `2^-32` has anything to round. -/

namespace Sys2Proof

/-! ### Results that need no rounding -/

/-- `v` is the finite datum of value `x` with a zero sign bit. -/
def Val.IsUnsigned (x : ℚ) (v : Val) : Prop :=
  ∃ m e, v = .fin false m e ∧ v.inFormat ∧ v.toRat = x

theorem Val.IsUnsigned.isFinite {x : ℚ} {v : Val} (h : v.IsUnsigned x) : v.isFinite = true := by
  obtain ⟨m, e, rfl, -, -⟩ := h
  rfl

theorem Val.IsUnsigned.toRat_eq {x : ℚ} {v : Val} (h : v.IsUnsigned x) : v.toRat = x := by
  obtain ⟨-, -, -, -, hval⟩ := h
  exact hval

/-- The sign bit of the pattern is that of the datum (40_numerics.md R70). -/
theorem Val.IsUnsigned.bits_sign {x : ℚ} {v : Val} (h : v.IsUnsigned x) (free : W64) :
    (v.bits free).getLsbD 63 = false := by
  obtain ⟨m, e, rfl, -, -⟩ := h
  dsimp only [Val.bits]
  split
  · exact packFields_sign false 0 m
  · exact packFields_sign false _ _

theorem Val.toRat_fin_lt_overflowBound {m : Nat} {e : Int} (h : (Val.fin false m e).inFormat) :
    (m : ℝ) * 2 ^ e < Val.overflowBound := by
  obtain ⟨hm, -, he⟩ := h
  have hm' : (m : ℝ) ≤ 2 ^ 53 - 1 := by
    rw [le_sub_iff_add_le]; exact_mod_cast hm
  calc (m : ℝ) * 2 ^ e ≤ (2 ^ 53 - 1) * 2 ^ (971 : ℤ) :=
        mul_le_mul hm' (zpow_le_zpow_right₀ one_le_two he) (by positivity) (by norm_num)
    _ < (2 ^ 53 - 1 / 2) * 2 ^ (971 : ℤ) := mul_lt_mul_of_pos_right (by norm_num) (by positivity)
    _ = Val.overflowBound := Val.overflowBound_eq.symm

/-- The datum nearest to the value of a datum has that value. -/
theorem Val.nearest.toRat_eq {d r : Val} (h : Val.nearest (d.toRat : ℝ) r) (hd : d.inFormat) :
    r.toRat = d.toRat := by
  obtain ⟨-, hmin⟩ := h
  obtain ⟨hle, -⟩ := hmin d hd
  rw [sub_self, abs_zero] at hle
  exact_mod_cast sub_eq_zero.1 (abs_nonpos_iff.1 hle)

/-- Rounding keeps the sign. -/
theorem Val.sign_of_round_eq_fin {neg s st : Bool} {m m' : Nat} {e e' : Int}
    (h : Val.round neg m e st = .fin s m' e') : s = neg := by
  by_cases hm : m = 0
  · subst hm
    cases h
    rfl
  · rw [round_of_ne_zero hm, ofSignificand] at h
    generalize (if _ = 2 ^ 53 then _ else e + dropBits m e) = exp at h
    split at h
    · cases h
    · exact (Val.fin.inj h).1.symm

/-- Rounding gives a number of the format back (40_numerics.md R71). -/
theorem Val.round_isUnsigned {m n : Nat} {e f : Int} (hd : (Val.fin false n f).inFormat)
    (h : (m : ℝ) * 2 ^ e = n * 2 ^ f) :
    (Val.round false m e false).IsUnsigned (Val.fin false n f).toRat := by
  have hval : ((Val.fin false n f).toRat : ℝ) = m * 2 ^ e := by rw [toRat_fin, signed_false, h]
  obtain ⟨hnearest, -⟩ := round_rounds false m e
  have habs : |signed false ((m : ℝ) * 2 ^ e)| < overflowBound := by
    rw [abs_signed _ (by positivity), h]
    exact toRat_fin_lt_overflowBound hd
  have hr := hnearest habs
  rw [signed_false, ← hval] at hr
  obtain ⟨s, m', e', heq, -⟩ := inFormat_iff.1 hr.1
  obtain rfl := sign_of_round_eq_fin heq
  exact ⟨m', e', heq, hr.1, hr.toRat_eq hd⟩

/-! ### The uniform of a drawn word -/

/-- `f64_of_u32` is exact (40_numerics.md R69). -/
theorem Val.ofNat_isUnsigned {n : Nat} (h : n < 2 ^ 53) : (Val.ofNat n).IsUnsigned n := by
  have hexact := round_isUnsigned (m := n) (n := n) (e := 0) (f := 0) ⟨h, by decide, by decide⟩ rfl
  rwa [show (Val.fin false n 0).toRat = n by simp [Val.toRat]] at hexact

/-- The constant `2^-32` (40_numerics.md R76). -/
theorem Val.scale_eq : Val.scale = .fin false (2 ^ 52) (-84) := by decide

/-- Scaling by `2^-32` moves the exponent alone, which has room for it. -/
theorem Val.IsUnsigned.mul_scale {n : Nat} {v : Val} (h : v.IsUnsigned n) (hn : n < 2 ^ 53) :
    (v.mul .scale).IsUnsigned (n / 2 ^ 32) := by
  obtain ⟨m, e, rfl, -, hval⟩ := h
  have hval' : (m : ℝ) * 2 ^ e = n := by
    have := congrArg (Rat.cast (K := ℝ)) hval
    rwa [toRat_fin, signed_false, Rat.cast_natCast] at this
  have hprod : ((m * 2 ^ 52 : Nat) : ℝ) * 2 ^ (e + -84) = n * 2 ^ (-32 : ℤ) := by
    rw [Nat.cast_mul, zpow_add₀ two_ne_zero, mul_mul_mul_comm, hval']
    norm_num
  have hexact := round_isUnsigned ⟨hn, by decide, by decide⟩ hprod
  rw [scale_eq, mul_fin]
  simpa [Val.toRat, div_eq_mul_inv] using hexact

theorem Val.isFinite_iff {a : Val} : a.isFinite = true ↔ ∃ s m e, a = .fin s m e := by
  cases a <;> simp [Val.isFinite]

section
variable {a b : Val}

/-- `<` of finite data compares their values (40_numerics.md R75). -/
theorem Val.lt_iff (ha : a.isFinite = true) (hb : b.isFinite = true) :
    a.lt b = true ↔ a.toRat < b.toRat := by
  obtain ⟨s, m, e, rfl⟩ := isFinite_iff.1 ha
  obtain ⟨t, n, f, rfl⟩ := isFinite_iff.1 hb
  rw [← Rat.cast_lt (K := ℝ), toRat_fin_eq_scaled (min_le_left e f),
    toRat_fin_eq_scaled (min_le_right e f), mul_lt_mul_iff_left₀ (by positivity), Int.cast_lt]
  exact decide_eq_true_iff

/-- `==` of finite data compares their values (40_numerics.md R75). -/
theorem Val.eq_iff (ha : a.isFinite = true) (hb : b.isFinite = true) :
    a.eq b = true ↔ a.toRat = b.toRat := by
  obtain ⟨s, m, e, rfl⟩ := isFinite_iff.1 ha
  obtain ⟨t, n, f, rfl⟩ := isFinite_iff.1 hb
  rw [← Rat.cast_inj (α := ℝ), toRat_fin_eq_scaled (min_le_left e f),
    toRat_fin_eq_scaled (min_le_right e f), mul_left_inj' (by positivity), Int.cast_inj]
  exact decide_eq_true_iff

/-- `<=` of finite data compares their values (40_numerics.md R75). -/
theorem Val.le_iff (ha : a.isFinite = true) (hb : b.isFinite = true) :
    a.le b = true ↔ a.toRat ≤ b.toRat := by
  rw [Val.le, Bool.or_eq_true, lt_iff ha hb, eq_iff ha hb, le_iff_lt_or_eq]

end

/-- The constants `0.0` and `1.0` (40_numerics.md R76). -/
theorem Val.zero_eq : Val.zero = .fin false 0 (-1074) := by decide
theorem Val.one_eq : Val.one = .fin false (2 ^ 52) (-52) := by decide

theorem Val.toRat_zero : Val.zero.toRat = 0 := by rw [zero_eq]; simp [toRat]
theorem Val.toRat_one : Val.one.toRat = 1 := by rw [one_eq]; norm_num [toRat]

/-- A datum at least 0 and below 1, with a zero sign bit (41_uniform.md R95). -/
structure InUnitRange (d : W64) : Prop where
  zero_le : Val.zero.le (.ofBits d) = true
  lt_one : (Val.ofBits d).lt .one = true
  finite : (Val.ofBits d).isFinite = true
  sign : d.getLsbD 63 = false

namespace Machine

/-- A uniform is exactly `r / 2^32` (R91). -/
theorem uniformOf_isUnsigned (r : U32) : (uniformOf r).IsUnsigned (r.toNat / 2 ^ 32) := by
  have hr : r.toNat < 2 ^ 53 := r.isLt.trans (by decide)
  exact (Val.ofNat_isUnsigned hr).mul_scale hr

theorem ofBits_uniformOf (r : U32) (n : Nat) :
    Val.ofBits ((uniformOf r).bits (nanAt n)) = uniformOf r :=
  Val.ofBits_bits_nanAt Val.mul_canonical n

/-- Every uniform is in range (R95), since a drawn word is below `2^32`. -/
theorem uniformOf_inUnitRange (r : U32) (n : Nat) :
    InUnitRange ((uniformOf r).bits (nanAt n)) := by
  have hu := uniformOf_isUnsigned r
  have hlt : (r.toNat : ℚ) / 2 ^ 32 < 1 := by
    rw [div_lt_one (by positivity)]
    exact_mod_cast r.isLt
  refine ⟨?_, ?_, ?_, hu.bits_sign _⟩ <;> rw [ofBits_uniformOf]
  · rw [Val.le_iff (by rw [Val.zero_eq]; rfl) hu.isFinite, Val.toRat_zero, hu.toRat_eq]
    positivity
  · rwa [Val.lt_iff hu.isFinite (by rw [Val.one_eq]; rfl), Val.toRat_one, hu.toRat_eq]
  · exact hu.isFinite

end Machine

end Sys2Proof
end

section
/-! PROOFS. NEXT_UNIFORM and FILL_UNIFORM (41_uniform.md R91, R92, R95), and a FILL whose sampler always
returns. -/

namespace Sys2Proof.Machine

/-! ### A FILL that cannot hang -/

/-- A FILL of a sampler that always returns makes its draws one after the other. -/
theorem fill_of_returns {f : Source → Option (W64 × Source)} {out : Source → W64}
    {next : Source → Source} (h : ∀ c, f c = some (out c, next c)) (n : Nat) (c : Source) :
    fill f n c = ((List.range n).map fun k => out (next^[k] c), some (next^[n] c)) := by
  induction n generalizing c with
  | zero => rfl
  | succ n ih =>
    rw [fill_succ_some (h c), ih, List.range_succ_eq_map, List.map_cons, List.map_map]
    rfl

/-- One update of the generator in the draw state (41_uniform.md R88). -/
def Source.drawOne (c : Source) : Source := { c with words := nextWords c.words }

theorem Source.iterate_drawOne (k : Nat) (c : Source) :
    Source.drawOne^[k] c = { c with words := nextWords^[k] c.words } := by
  induction k generalizing c with
  | zero => rfl
  | succ k ih => rw [Function.iterate_succ_apply, ih]; rfl

/-- The uniform that a draw from this state returns (R91). -/
def uniformBits (c : Source) : W64 := (uniformOf (drawn c.words)).bits (nanAt c.draws)

theorem sampleUniform_eq (c : Source) : sampleUniform c = some (uniformBits c, c.drawOne) := rfl

theorem uniformBits_inUnitRange (c : Source) : InUnitRange (uniformBits c) :=
  uniformOf_inUnitRange _ _

/-! ### The commands -/

/-- A seeded NEXT_UNIFORM answers one draw (R91). -/
theorem exec_nextUniform_seeded {s : State} {w : Words} (h : s.gen = .seeded w) :
    exec .nextUniform s =
      .next ((s.withSource (s.source w).drawOne).finish (uniformBits (s.source w))) := by
  rw [exec, execNextUniform, State.ifSeeded_seeded h, sampleUniform_eq, State.answerOne]

/-- A seeded FILL_UNIFORM answers all its draws (R92). -/
theorem exec_fillUniform_seeded {n : W64} {m : U32} {s : State} {w : Words}
    (hn : u32Operand n = some m) (h : s.gen = .seeded w) :
    exec (.fillUniform n) s =
      .next ((s.withSource (Source.drawOne^[m.toNat] (s.source w))).emit
        (((List.range m.toNat).map fun k => uniformBits (Source.drawOne^[k] (s.source w))).map
          dataBeat ++ [okBeat (m.setWidth 64)])) := by
  simp only [exec, execFillUniform, hn, State.ifSeeded_seeded h, fill_of_returns sampleUniform_eq,
    State.answerFill]

/-- Settles O28: the datum is the uniform of the drawn word, exact and unsigned
(`uniformOf_isUnsigned`). -/
theorem nextUniformCompletes : Obligations.NextUniformCompletes := by
  intro s w hw
  have hu := uniformOf_isUnsigned (drawn w)
  refine ⟨uniformBits (s.source w), exec_nextUniform_seeded hw, ?_, hu.bits_sign _, ?_⟩ <;>
    rw [uniformBits, ofBits_uniformOf]
  · exact hu.isFinite
  · exact hu.toRat_eq

/-- Settles O30: the k-th draw is made after `k` updates (`Source.iterate_drawOne`). -/
theorem fillUniformCompletes : Obligations.FillUniformCompletes := by
  intro n s w hn hw
  have hm : (n.setWidth 32).toNat = n.toNat := by
    rw [BitVec.toNat_setWidth, Nat.mod_eq_of_lt hn]
  have hwide : (n.setWidth 32).setWidth 64 = n := by
    apply BitVec.eq_of_toNat_eq
    rw [BitVec.toNat_setWidth, hm, Nat.mod_eq_of_lt n.isLt]
  rw [exec_fillUniform_seeded (u32Operand_eq_some.2 ⟨(fitsU32_iff n).2 hn, rfl⟩) hw, hm, hwide]
  simp only [Source.iterate_drawOne, uniformBits, drawn, List.map_map, Function.iterate_succ_apply']
  rw [State.emit, ← List.append_assoc]
  rfl

/-- What FILL_UNIFORM sends: a fault's DONE beat, or uniforms and then a DONE beat (R92). -/
theorem exec_fillUniform_beats {n : W64} {s t : State} (h : exec (.fillUniform n) s = .next t) :
    (∃ st, st ≠ .ok ∧ t = s.raise st) ∨
    ∃ (ys : List W64) (d : W64), (∀ y ∈ ys, InUnitRange y) ∧
      t.rsp = s.rsp ++ (ys.map dataBeat ++ [okBeat d]) := by
  cases hn : u32Operand n with
  | none =>
    simp only [exec, execFillUniform, hn] at h
    cases h
    exact .inl ⟨.badOperand, by decide, rfl⟩
  | some m =>
    cases hg : s.gen with
    | unseeded =>
      simp only [exec, execFillUniform, hn, State.ifSeeded_unseeded hg] at h
      cases h
      exact .inl ⟨.notSeeded, by decide, rfl⟩
    | seeded w =>
      cases (exec_fillUniform_seeded hn hg).symm.trans h
      refine .inr ⟨_, m.setWidth 64, fun y hy => ?_, rfl⟩
      obtain ⟨k, -, rfl⟩ := List.mem_map.1 hy
      exact uniformBits_inUnitRange _

/-- What NEXT_UNIFORM sends: a fault's DONE beat, or a DONE beat with a uniform (R91). -/
theorem exec_nextUniform_beats {s t : State} (h : exec .nextUniform s = .next t) :
    (∃ st, st ≠ .ok ∧ t = s.raise st) ∨
    ∃ u, InUnitRange u ∧ t.rsp = s.rsp ++ [okBeat u] := by
  cases hg : s.gen with
  | unseeded =>
    rw [exec, execNextUniform, State.ifSeeded_unseeded hg] at h
    cases h
    exact .inl ⟨.notSeeded, by decide, rfl⟩
  | seeded w =>
    cases (exec_nextUniform_seeded hg).symm.trans h
    exact .inr ⟨_, uniformBits_inUnitRange _, rfl⟩

/-- A fault sends no beat with status `OK` (30_encoding.md R51). -/
theorem status_ne_ok_of_mem_raise {s : State} {st : Status} {b : Beat} (hst : st ≠ .ok)
    (hb : b ∈ (s.raise st).rsp.drop s.rsp.length) : b.status ≠ .ok := by
  rw [State.raise_rsp, List.drop_left, List.mem_singleton] at hb
  exact hb ▸ hst

/-- Every beat of NEXT_UNIFORM and every DATA beat of FILL_UNIFORM that is `OK` carries a uniform. -/
theorem uniform_beat_inUnitRange {i : Instr} {s t : State} {b : Beat}
    (hi : i = .nextUniform ∨ ∃ n, i = .fillUniform n) (h : exec i s = .next t)
    (hb : b ∈ t.rsp.drop s.rsp.length) (hok : b.status = .ok)
    (hkind : b.kind = .data ∨ i = .nextUniform) : InUnitRange b.data := by
  obtain rfl | ⟨n, rfl⟩ := hi
  · obtain ⟨st, hst, rfl⟩ | ⟨u, hu, hrsp⟩ := exec_nextUniform_beats h
    · exact absurd hok (status_ne_ok_of_mem_raise hst hb)
    · rw [hrsp, List.drop_left, List.mem_singleton] at hb
      exact hb ▸ hu
  · have hdata : b.kind = .data := hkind.resolve_right nofun
    obtain ⟨st, hst, rfl⟩ | ⟨ys, d, hys, hrsp⟩ := exec_fillUniform_beats h
    · exact absurd hok (status_ne_ok_of_mem_raise hst hb)
    · rw [hrsp, List.drop_left, List.mem_append, List.mem_singleton] at hb
      obtain hb | rfl := hb
      · obtain ⟨y, hy, rfl⟩ := List.mem_map.1 hb
        exact hys y hy
      · cases hdata

/-- Settles O29: what these beats carry is in range (`uniform_beat_inUnitRange`). -/
theorem uniformRange : Obligations.UniformRange := by
  intro i s t hi h b hb hok hkind
  obtain ⟨hzero, hone, hfinite, hsign⟩ := uniform_beat_inUnitRange hi h hb hok hkind
  exact ⟨hzero, hone, hfinite, hsign⟩

end Sys2Proof.Machine
end

section
/-! PROOFS. What a command other than PLAN and RD does to the draw state and answers is a function of the
draw state (41_uniform.md R94): two states that agree in it stay in agreement, along the parts of `exec`. -/

namespace Sys2Proof.Machine

/-- The states agree in what draws and filters read (41_uniform.md R94). -/
structure SameStream (s s' : State) : Prop where
  gen : s.gen = s'.gen
  cache : s.cache = s'.cache
  stages : s.stages = s'.stages
  draws : s.draws = s'.draws
  known : s.known = s'.known

/-- From `s` and from `s'` the same draw state was left and the same beats were sent. -/
structure SameAnswer (s s' t t' : State) : Prop where
  gen : t.gen = t'.gen
  cache : t.cache = t'.cache
  stages : t.stages = t'.stages
  draws : t.draws = t'.draws
  beats : ∃ bs, t.rsp = s.rsp ++ bs ∧ t'.rsp = s'.rsp ++ bs

section
variable {s s' : State}

theorem SameStream.source (h : SameStream s s') (w : Words) : s.source w = s'.source w := by
  simp only [State.source, h.cache, h.stages, h.draws]

theorem SameStream.raise (h : SameStream s s') (st : Status) :
    SameAnswer s s' (s.raise st) (s'.raise st) :=
  ⟨h.gen, h.cache, h.stages, h.draws, _, rfl, rfl⟩

theorem SameStream.hang (h : SameStream s s') (ys : List W64) :
    SameAnswer s s' (s.hang ys) (s'.hang ys) :=
  ⟨h.gen, h.cache, h.stages, h.draws, _, rfl, rfl⟩

theorem SameStream.finish (h : SameStream s s') (d : W64) :
    SameAnswer s s' (s.finish d) (s'.finish d) :=
  ⟨h.gen, h.cache, h.stages, h.draws, _, rfl, rfl⟩

theorem SameStream.answerOne (h : SameStream s s') (r : Option (W64 × Source)) :
    SameAnswer s s' (s.answerOne r) (s'.answerOne r) := by
  obtain _ | ⟨y, c⟩ := r
  · exact h.hang []
  · exact ⟨rfl, rfl, rfl, rfl, _, rfl, rfl⟩

theorem SameStream.answerFill (h : SameStream s s') (n : U32) (r : List W64 × Option Source) :
    SameAnswer s s' (s.answerFill n r) (s'.answerFill n r) := by
  obtain ⟨ys, _ | c⟩ := r
  · exact h.hang ys
  · exact ⟨rfl, rfl, rfl, rfl, _, rfl, rfl⟩

theorem SameStream.ifSeeded (h : SameStream s s') {k k' : Words → State}
    (hk : ∀ w, SameAnswer s s' (k w) (k' w)) :
    SameAnswer s s' (s.ifSeeded k) (s'.ifSeeded k') := by
  cases hg : s.gen with
  | unseeded =>
    rw [State.ifSeeded_unseeded hg, State.ifSeeded_unseeded (h.gen ▸ hg)]
    exact h.raise .notSeeded
  | seeded w =>
    rw [State.ifSeeded_seeded hg, State.ifSeeded_seeded (h.gen ▸ hg)]
    exact hk w

theorem SameStream.ifPlanned (h : SameStream s s') {k k' : State} (hk : SameAnswer s s' k k') :
    SameAnswer s s' (s.ifPlanned k) (s'.ifPlanned k') := by
  unfold State.ifPlanned
  rw [h.stages]
  split
  · exact h.raise .noCascade
  · exact hk

theorem SameStream.ofCount (h : SameStream s s') {n : W64} {k k' : U32 → State}
    (hk : ∀ m, SameAnswer s s' (k m) (k' m)) :
    SameAnswer s s'
      (match u32Operand n with
        | none => s.raise .badOperand
        | some m => k m)
      (match u32Operand n with
        | none => s'.raise .badOperand
        | some m => k' m) := by
  cases u32Operand n with
  | none => exact h.raise .badOperand
  | some m => exact hk m

/-- Every command that reads neither `NMAX` nor a register by its index answers by the draw state. -/
theorem SameStream.exec (h : SameStream s s') {i : Instr} {t t' : State}
    (hplan : ∀ a b c d, i ≠ .plan a b c d) (hrd : ∀ x, i ≠ .rd x) (ht : exec i s = .next t)
    (ht' : exec i s' = .next t') : SameAnswer s s' t t' := by
  cases i <;> simp only [Machine.exec, execSeed, execNextU32, execNextUniform, execFillUniform,
    execNextNormal, execFillNormal, execStep, execNumPoles, execPlan, execPlan1, execNextColored,
    execFillColored, execRd, Host.Outcome.next.injEq, ← h.source, ← h.known, ← h.draws] at ht ht' <;>
    subst ht ht'
  case plan => exact absurd rfl (hplan _ _ _ _)
  case rd => exact absurd rfl (hrd _)
  case seed =>
    split
    · exact ⟨rfl, rfl, h.stages, h.draws, _, rfl, rfl⟩
    · exact h.raise _
  case nextU32 | nextUniform | nextNormal => exact h.ifSeeded fun _ => h.answerOne _
  case fillUniform | fillNormal => exact h.ofCount fun m => h.ifSeeded fun _ => h.answerFill m _
  case nextColored => exact h.ifSeeded fun _ => h.ifPlanned (h.answerOne _)
  case fillColored =>
    exact h.ofCount fun m => h.ifSeeded fun _ => h.ifPlanned (h.answerFill m _)
  case step x =>
    refine h.ifPlanned ⟨h.gen, h.cache, ?_, ?_, _, rfl, ?_⟩ <;>
      simp [h.stages, h.draws]
  case numPoles =>
    split
    · split
      · exact h.raise _
      · split
        · exact h.finish _
        · exact h.raise _
    · exact h.raise _
  case plan1 =>
    split
    · exact ⟨h.gen, h.cache, rfl, congrArg (· + 3) h.draws, _, rfl, rfl⟩
    · exact h.raise _

end

/-- Settles O56: the states agree in the draw state, so the answers agree (`SameStream.exec`). -/
theorem streamDependsOnlyOnTheDrawState : Obligations.StreamDependsOnlyOnTheDrawState := by
  intro i s s' t t' hplan hrd hgen hcache hstages hdraws hknown ht ht'
  have hsame : SameStream s s' := ⟨hgen, hcache, hstages, hdraws, hknown⟩
  obtain ⟨hgen', hcache', hstages', hdraws', bs, hrsp, hrsp'⟩ := hsame.exec hplan hrd ht ht'
  exact ⟨hgen', hcache', hstages', hdraws', by rw [hrsp, hrsp', List.drop_left, List.drop_left]⟩

end Sys2Proof.Machine
end

section
/-! PROOFS. NEXT_NORMAL and FILL_NORMAL (42_gaussian.md R101 to R105, R107): the rejection loop counted in
draws, what one call of `next_normal` does, the calls of a FILL, and how often a command flips the cache. -/

namespace Sys2Proof.Machine

/-! ### The rejection loop, counted in draws -/

/-- Trial `k` from `w` is the first accepted one (R101); each trial before it made two draws (R104). -/
structure AcceptsAt (w : Words) (k : Nat) : Prop where
  earlier : ∀ j < k, rejected (nextWords^[2 * j] w) = true
  accepted : rejected (nextWords^[2 * k] w) = false

/-- A trial is two draws. -/
theorem iterate_afterTrial (k : Nat) (w : Words) : afterTrial^[k] w = nextWords^[2 * k] w := by
  rw [Function.iterate_mul]
  rfl

/-- A trial from a state `m` draws on ends two draws later. -/
theorem afterTrial_iterate (m : Nat) (w : Words) :
    afterTrial (nextWords^[m] w) = nextWords^[m + 2] w := by
  rw [afterTrial, ← Function.iterate_succ_apply' nextWords, ← Function.iterate_succ_apply' nextWords]

theorem AcceptsAt.unique {w : Words} {j k : Nat} (hj : AcceptsAt w j) (hk : AcceptsAt w k) :
    j = k := by
  obtain hlt | heq | hlt := lt_trichotomy j k
  · exact absurd (hk.earlier j hlt) (by simp [hj.accepted])
  · exact heq
  · exact absurd (hj.earlier k hlt) (by simp [hk.accepted])

/-- What the search finds is the state at the first accepted trial. -/
theorem acceptsAt_of_firstAccepted {n : Nat} {w v : Words} (h : firstAccepted n w = some v) :
    ∃ k, AcceptsAt w k ∧ v = nextWords^[2 * k] w := by
  obtain ⟨k, -, rfl, hacc, hrej⟩ := firstAccepted_eq_some.1 h
  simp only [iterate_afterTrial] at hacc hrej ⊢
  exact ⟨k, ⟨hrej, hacc⟩, rfl⟩

/-- The search fails exactly when no trial is ever accepted (70_reset_and_hazards.md R181). -/
theorem firstAccepted_trialBound_eq_none_iff {w : Words} :
    firstAccepted trialBound w = none ↔ ∀ k, rejected (nextWords^[2 * k] w) = true := by
  simp only [firstAccepted_trialBound_eq_none, iterate_afterTrial]

/-- The model's bound on the search hides no accepted trial. -/
theorem AcceptsAt.firstAccepted {w : Words} {k : Nat} (h : AcceptsAt w k) :
    Machine.firstAccepted trialBound w = some (nextWords^[2 * k] w) := by
  cases hfound : Machine.firstAccepted trialBound w with
  | none =>
    have hrej := firstAccepted_trialBound_eq_none_iff.1 hfound k
    simp [h.accepted] at hrej
  | some v =>
    obtain ⟨j, hj, rfl⟩ := acceptsAt_of_firstAccepted hfound
    rw [hj.unique h]

/-- The rejection test (R101). -/
theorem rejected_iff (w : Words) :
    rejected w = true ↔ Val.one.le (trialRsq w) = true ∨ (trialRsq w).eq .zero = true := by
  rw [rejected, Bool.or_eq_true]

/-! ### One call of `next_normal` -/

theorem sampleNormal_of_full {c : Source} {d : W64} (h : c.cache = .full d) (k : Known) :
    sampleNormal k c = some (d, { c with cache := .empty }) := by
  rw [sampleNormal, h]

theorem sampleNormal_of_empty {c : Source} (h : c.cache = .empty) (k : Known) :
    sampleNormal k c = (firstAccepted trialBound c.words).map (acceptTrial k c) := by
  rw [sampleNormal, h]

/-- A call on an Empty cache never returns exactly when no trial is ever accepted (R105). -/
theorem sampleNormal_eq_none_iff {c : Source} (h : c.cache = .empty) (k : Known) :
    sampleNormal k c = none ↔ ∀ j, rejected (nextWords^[2 * j] c.words) = true := by
  rw [sampleNormal_of_empty h, Option.map_eq_none_iff, firstAccepted_trialBound_eq_none_iff]

/-- A call that returns takes a Full cache's deviate or accepts a trial. -/
theorem sampleNormal_eq_some_cases {k : Known} {c c' : Source} {y : W64}
    (h : sampleNormal k c = some (y, c')) :
    (c.cache = .full y ∧ c' = { c with cache := .empty }) ∨
    c.cache = .empty ∧ ∃ j, AcceptsAt c.words j ∧
      (y, c') = acceptTrial k c (nextWords^[2 * j] c.words) := by
  obtain hfull | ⟨w, hempty, hw, he⟩ := sampleNormal_cases h
  · exact .inl hfull
  · obtain ⟨j, hj, rfl⟩ := acceptsAt_of_firstAccepted hw
    exact .inr ⟨hempty, j, hj, he⟩

/-! ### NEXT_NORMAL -/

/-- A seeded NEXT_NORMAL answers one call (R102). -/
theorem exec_nextNormal_seeded {s : State} {w : Words} (h : s.gen = .seeded w) :
    exec .nextNormal s = .next (s.answerOne (sampleNormal s.known (s.source w))) := by
  rw [exec, execNextNormal, State.ifSeeded_seeded h]

/-- A seeded NEXT_NORMAL hangs, or answers the sample its call returned. -/
theorem exec_nextNormal_seeded_cases {s t : State} {w : Words} (hw : s.gen = .seeded w)
    (h : exec .nextNormal s = .next t) :
    (sampleNormal s.known (s.source w) = none ∧ t = s.hang []) ∨
    ∃ y c, sampleNormal s.known (s.source w) = some (y, c) ∧ t = (s.withSource c).finish y := by
  cases (exec_nextNormal_seeded hw).symm.trans h
  exact State.answerOne_cases s _

/-- NEXT_NORMAL leaves a block hung that was not only if its call did not return. -/
theorem exec_nextNormal_of_hung {s t : State} {w : Words} (hw : s.gen = .seeded w)
    (hhung : s.hung = false) (h : exec .nextNormal s = .next t) (ht : t.hung = true) :
    sampleNormal s.known (s.source w) = none ∧ t = s.hang [] := by
  obtain hhang | ⟨y, c, -, rfl⟩ := exec_nextNormal_seeded_cases hw h
  · exact hhang
  · simp [hhung] at ht

/-- A draw state that differs from the block's in the cache alone. -/
theorem State.withSource_source_cache {s : State} {w : Words} (hw : s.gen = .seeded w) (x : Cache) :
    s.withSource { s.source w with cache := x } = { s with cache := x } := by
  rw [State.withSource, State.source, ← hw]

/-- A hang before the first sample sends no beat (70_reset_and_hazards.md R181). -/
theorem State.hang_nil (s : State) : s.hang [] = { s with hung := true } := by
  simp [State.hang, State.emit]

/-- Settles O31: the call returns the cached deviate (`sampleNormal_of_full`). -/
theorem nextNormalFromAFullCache : Obligations.NextNormalFromAFullCache := by
  intro s w d hw hfull
  have hcall := sampleNormal_of_full (c := s.source w) hfull s.known
  rw [exec_nextNormal_seeded hw, hcall, State.answerOne, State.withSource_source_cache hw]
  rfl

/-- Settles O32: the search finds the first accepted trial (`AcceptsAt.firstAccepted`), and the call does
with it what `acceptTrial` says. -/
theorem nextNormalFromAnEmptyCache : Obligations.NextNormalFromAnEmptyCache := by
  refine ⟨rejected_iff, ?_⟩
  intro s w0 k hw hempty hrej hacc w v1 v2 rsq ln fac
  have hcall : sampleNormal s.known (s.source w0) = some (acceptTrial s.known (s.source w0) w) := by
    rw [sampleNormal_of_empty hempty, State.source_words, AcceptsAt.firstAccepted ⟨hrej, hacc⟩,
      Option.map_some]
  rw [exec_nextNormal_seeded hw, hcall, ← afterTrial_iterate]
  rfl

/-- Settles O33: the command hangs exactly when its call does not return (`sampleNormal_eq_none_iff`). -/
theorem hangsExactlyWhenNoTrialIsAccepted : Obligations.HangsExactlyWhenNoTrialIsAccepted := by
  intro s w hw hempty hhung
  have hnone := sampleNormal_eq_none_iff (c := s.source w) hempty s.known
  refine ⟨⟨?_, ?_⟩, ?_⟩
  · rintro ⟨t, h, ht⟩
    obtain ⟨hcall, -⟩ := exec_nextNormal_of_hung hw hhung h ht
    exact hnone.1 hcall
  · intro hrej
    exact ⟨s.hang [], by rw [exec_nextNormal_seeded hw, hnone.2 hrej, State.answerOne], rfl⟩
  · intro t h ht
    obtain ⟨-, rfl⟩ := exec_nextNormal_of_hung hw hhung h ht
    exact s.hang_nil

/-- Settles O35: a call that returns empties a Full cache or accepts a trial
(`sampleNormal_eq_some_cases`). -/
theorem normalDrawAccounting : Obligations.NormalDrawAccounting := by
  intro s t w hw h _ ht
  obtain ⟨-, rfl⟩ | ⟨y, c, hcall, rfl⟩ := exec_nextNormal_seeded_cases hw h
  · simp at ht
  obtain ⟨hfull, rfl⟩ | ⟨hempty, k, hk, he⟩ := sampleNormal_eq_some_cases hcall
  · have hne : s.cache ≠ .empty := by rw [← State.source_cache s w, hfull]; nofun
    exact ⟨fun _ => ⟨hw.symm, rfl⟩, fun hempty => absurd hempty hne⟩
  · obtain ⟨-, rfl⟩ := Prod.mk.inj he
    exact ⟨fun hne => absurd hempty hne, fun _ => ⟨nofun, k, hk.earlier, hk.accepted,
      congrArg Generator.seeded (afterTrial_iterate (2 * k) w)⟩⟩

/-! ### FILL_NORMAL -/

theorem toNat_of_u32Operand {n : W64} {m : U32} (h : u32Operand n = some m) :
    m.toNat = n.toNat := by
  obtain ⟨hfits, rfl⟩ := u32Operand_eq_some.1 h
  rw [BitVec.toNat_setWidth, Nat.mod_eq_of_lt ((fitsU32_iff n).1 hfits)]

/-- Widened again, a u32 operand is its operand word (30_encoding.md R48). -/
theorem setWidth_of_u32Operand {n : W64} {m : U32} (h : u32Operand n = some m) :
    m.setWidth 64 = n := by
  apply BitVec.eq_of_toNat_eq
  rw [BitVec.toNat_setWidth, toNat_of_u32Operand h, Nat.mod_eq_of_lt n.isLt]

/-- A seeded FILL_NORMAL answers its calls in generation order (R103). -/
theorem exec_fillNormal_seeded {n : W64} {m : U32} {s : State} {w : Words}
    (hn : u32Operand n = some m) (h : s.gen = .seeded w) :
    exec (.fillNormal n) s =
      .next (s.answerFill m (fill (sampleNormal s.known) m.toNat (s.source w))) := by
  simp only [exec, execFillNormal, hn, State.ifSeeded_seeded h]

/-- A FILL whose calls all return sends their samples, `c k` being the draw state before call `k`. -/
theorem fill_of_calls {f : Source → Option (W64 × Source)} {n : Nat} {y : Nat → W64}
    {c : Nat → Source} (h : ∀ k < n, f (c k) = some (y k, c (k + 1))) :
    fill f n (c 0) = ((List.range n).map y, some (c n)) := by
  induction n generalizing y c with
  | zero => rfl
  | succ n ih =>
    have hrest : fill f n (c 1) = ((List.range n).map (y ∘ Nat.succ), some (c (n + 1))) :=
      ih (c := c ∘ Nat.succ) fun k hk => h (k + 1) (Nat.succ_lt_succ hk)
    rw [fill_succ_some (h 0 n.succ_pos), hrest, List.range_succ_eq_map, List.map_cons, List.map_map]

/-- Settles O37: the calls are those of the FILL (`fill_of_calls`), and none of them steps a stage. -/
theorem fillNormalCompletes : Obligations.FillNormalCompletes := by
  intro n s w y c hlt hw h0 hcalls
  have hn : u32Operand n = some (n.setWidth 32) := u32Operand_eq_some.2 ⟨(fitsU32_iff n).2 hlt, rfl⟩
  have hsource : s.source w = c 0 := h0.symm
  have hfill : fill (sampleNormal s.known) n.toNat (s.source w) =
      ((List.range n.toNat).map y, some (c n.toNat)) := hsource ▸ fill_of_calls hcalls
  have hstages : (c n.toNat).stages = s.stages :=
    ((sampleNormal_moves s.known).fill (congrArg Prod.snd hfill)).stages
  rw [exec_fillNormal_seeded hn hw, toNat_of_u32Operand hn, hfill, State.answerFill,
    setWidth_of_u32Operand hn, State.withSource, State.emit, hstages, List.map_map,
    ← List.append_assoc]
  rfl

/-! ### How often a command flips the cache -/

/-- `t` is `s` after a response that ends in a DONE beat with status `OK` (30_encoding.md R51). -/
def Completed (s t : State) : Prop :=
  ∃ (bs : List Beat) (d : W64), t.rsp = s.rsp ++ bs ++ [okBeat d]

/-- A fault's DONE beat is not `OK`. -/
theorem not_completed_raise {s : State} {st : Status} (hst : st ≠ .ok) :
    ¬ Completed s (s.raise st) := by
  rintro ⟨bs, d, hrsp⟩
  have hlast : faultBeat st = okBeat d := List.singleton_inj.1 (List.append_inj_right' hrsp rfl)
  exact hst (congrArg Beat.status hlast)

/-- A hang sends no DONE beat. -/
theorem not_completed_hang (s : State) (ys : List W64) : ¬ Completed s (s.hang ys) := by
  rintro ⟨bs, d, hrsp⟩
  rw [State.hang_rsp, List.append_assoc] at hrsp
  have hmem : okBeat d ∈ ys.map dataBeat := by simp [List.append_cancel_left hrsp]
  simp [dataBeat, okBeat] at hmem

/-- The cache went from `c` to `c'` by `n` flips between Empty and Full (R107). -/
def Cache.Flipped (n : Nat) (c c' : Cache) : Prop := c'.isFull = not^[n] c.isFull

theorem iterate_not (n : Nat) (b : Bool) : not^[n] b = (b ^^ decide (n % 2 = 1)) := by
  induction n with
  | zero => simp
  | succ n ih =>
    rw [Function.iterate_succ_apply', ih]
    obtain h | h := Nat.mod_two_eq_zero_or_one n <;> simp [Nat.add_mod, h]

/-- Every call of the sampler that returns flips the cache. -/
def FlipsCache (f : Source → Option (W64 × Source)) : Prop :=
  ∀ c y c', f c = some (y, c') → Cache.Flipped 1 c.cache c'.cache

theorem sampleNormal_flipsCache (k : Known) : FlipsCache (sampleNormal k) := by
  intro c y c' h
  obtain ⟨hfull, rfl⟩ | ⟨w, hempty, -, he⟩ := sampleNormal_cases h
  · simp [Cache.Flipped, hfull, Cache.isFull]
  · obtain ⟨-, rfl⟩ := Prod.mk.inj he
    simp [Cache.Flipped, hempty, Cache.isFull]

/-- The cascade does not touch the cache (45_colored.md R135). -/
theorem sampleColored_flipsCache (k : Known) : FlipsCache (sampleColored k) := by
  intro c y c' h
  obtain ⟨g, d, hnormal, hfilter⟩ := sampleColored_eq_some.1 h
  obtain ⟨-, rfl⟩ := Prod.mk.inj hfilter
  exact sampleNormal_flipsCache k c g d hnormal

/-- A FILL flips the cache once for each of its calls. -/
theorem FlipsCache.fill {f : Source → Option (W64 × Source)} (hf : FlipsCache f) {n : Nat}
    {c c' : Source} (h : (Machine.fill f n c).2 = some c') : Cache.Flipped n c.cache c'.cache := by
  induction n generalizing c with
  | zero =>
    cases h
    rfl
  | succ n ih =>
    cases hcall : f c with
    | none => simp [fill_succ_none hcall] at h
    | some r =>
      obtain ⟨y, d⟩ := r
      rw [fill_succ_some hcall] at h
      have hfirst : d.cache.isFull = !c.cache.isFull := hf c y d hcall
      rw [Cache.Flipped, ih h, hfirst, Function.iterate_succ_apply]

/-- If the response of `t` says that the command completed, it flipped the cache `n` times. -/
def FlipsIfCompleted (n : Nat) (s t : State) : Prop :=
  Completed s t → Cache.Flipped n s.cache t.cache

section
variable {n : Nat} {s : State} {f : Source → Option (W64 × Source)}

theorem FlipsIfCompleted.raise {st : Status} (hst : st ≠ .ok) : FlipsIfCompleted n s (s.raise st) :=
  fun h => absurd h (not_completed_raise hst)

theorem FlipsIfCompleted.hang (ys : List W64) : FlipsIfCompleted n s (s.hang ys) :=
  fun h => absurd h (not_completed_hang s ys)

theorem FlipsIfCompleted.of_cache_eq {t : State} (h : t.cache = s.cache) : FlipsIfCompleted 0 s t :=
  fun _ => congrArg Cache.isFull h

theorem FlipsIfCompleted.ifSeeded {k : Words → State} (h : ∀ w, FlipsIfCompleted n s (k w)) :
    FlipsIfCompleted n s (s.ifSeeded k) := by
  obtain ⟨-, e⟩ | ⟨w, -, e⟩ := State.ifSeeded_cases s k <;> rw [e]
  · exact .raise (by decide)
  · exact h w

theorem FlipsIfCompleted.ifPlanned {k : State} (h : FlipsIfCompleted n s k) :
    FlipsIfCompleted n s (s.ifPlanned k) := by
  obtain ⟨-, e⟩ | ⟨-, e⟩ := State.ifPlanned_cases s k <;> rw [e]
  · exact .raise (by decide)
  · exact h

theorem FlipsCache.answerOne (hf : FlipsCache f) (w : Words) :
    FlipsIfCompleted 1 s (s.answerOne (f (s.source w))) := by
  obtain ⟨-, e⟩ | ⟨y, c, hc, e⟩ := State.answerOne_cases s (f (s.source w)) <;> rw [e]
  · exact .hang []
  · exact fun _ => hf _ y c hc

theorem FlipsCache.answerFill (hf : FlipsCache f) (m : U32) (w : Words) :
    FlipsIfCompleted m.toNat s (s.answerFill m (Machine.fill f m.toNat (s.source w))) := by
  obtain ⟨-, e⟩ | ⟨c, hc, e⟩ :=
    State.answerFill_cases s m (Machine.fill f m.toNat (s.source w)) <;> rw [e]
  · exact .hang _
  · exact fun _ => hf.fill hc

end

/-- Every command but SEED that completes flips the cache once for each of its calls of `next_normal`. -/
theorem exec_flips {i : Instr} {s t : State} (hseed : ∀ x y z w, i ≠ .seed x y z w)
    (h : exec i s = .next t) : FlipsIfCompleted (normalCalls i) s t := by
  have he := exec_effect h
  cases i with
  | seed => exact absurd rfl (hseed _ _ _ _)
  | nextU32 | nextUniform | fillUniform =>
    obtain ⟨-, hcache, -⟩ := uniform_keeps he
    exact .of_cache_eq hcache
  | step =>
    obtain ⟨-, hcache, -⟩ := step_keeps he
    exact .of_cache_eq hcache
  | plan | plan1 => exact .of_cache_eq (plan_keeps he).2
  | numPoles | rd => exact .of_cache_eq (he.sameRegisters id).cache
  | nextNormal =>
    cases h
    exact .ifSeeded (sampleNormal_flipsCache _).answerOne
  | nextColored =>
    cases h
    exact .ifSeeded fun w => .ifPlanned ((sampleColored_flipsCache _).answerOne w)
  | fillNormal n =>
    cases h
    split
    · exact .raise (by decide)
    · next m hm =>
      rw [normalCalls, ← toNat_of_u32Operand hm]
      exact .ifSeeded ((sampleNormal_flipsCache _).answerFill m)
  | fillColored n =>
    cases h
    split
    · exact .raise (by decide)
    · next m hm =>
      rw [normalCalls, ← toNat_of_u32Operand hm]
      exact .ifSeeded fun w => .ifPlanned ((sampleColored_flipsCache _).answerFill m w)

/-- A SEED that completes leaves the cache Empty (41_uniform.md R89). -/
theorem exec_seed_empties {x y z w : W64} {s t : State} (h : exec (.seed x y z w) s = .next t)
    (hdone : Completed s t) : t.cache = .empty := by
  cases h
  split at hdone
  · rfl
  · exact absurd hdone (not_completed_raise (by decide))

/-- Settles O36: SEED apart, a command makes as many flips as calls (`exec_flips`), and their parity
decides (`iterate_not`). -/
theorem cacheParity : Obligations.CacheParity := by
  intro i s t bs d h hrsp
  have hdone : Completed s t := ⟨bs, d, hrsp⟩
  refine ⟨fun hseed => ?_, ?_⟩
  · exact (exec_flips hseed h hdone).trans (iterate_not _ _)
  · rintro x y z w rfl
    rw [exec_seed_empties h hdone, Cache.isFull]

end Sys2Proof.Machine
end

section
/-! PROOFS. The single-pole section (43_single_pole.md R110 to R114): what each stage of a STEP is given and
leaves, and the coefficients of a pole whose corners are equal. -/

namespace Sys2Proof

/-! ### Quotients of equal data -/

/-- A finite datum that is not zero, divided by itself, is exactly 1.0 (40_numerics.md R71): the widened
quotient is `2^57`, which rounding shortens without a remainder. -/
theorem Val.div_self_fin {m : Nat} (hm : m ≠ 0) (s : Bool) (e : Int) :
    (Val.fin s m e).div (.fin s m e) = .one := by
  have hwiden : m.log2 + 57 - m.log2 = 57 := Nat.add_sub_cancel_left _ _
  have hquot : (m <<< 57) / m = 2 ^ 57 := by
    rw [Nat.shiftLeft_eq, Nat.mul_div_cancel_left _ (Nat.pos_of_ne_zero hm)]
  have hrem : (m <<< 57) % m = 0 := by rw [Nat.shiftLeft_eq, Nat.mul_mod_right]
  rw [Val.div_fin hm, if_neg hm, bne_self_eq_false, sub_self, Val.roundQuot]
  rw [hwiden, hquot, hrem]
  decide

/-- The pattern of `1.0` (40_numerics.md R76). -/
theorem Val.bits_one (free : W64) : Val.one.bits free = 0x3FF0000000000000 := by
  rw [Val.one_eq]
  exact show packFields false 1023 0 = 0x3FF0000000000000 by decide

namespace Machine

/-! ### Planning one stage -/

section
variable (n : Nat) (flow fhigh fsample : Val)

/-- The pattern of `c1` stands for the value of R110. -/
theorem ofBits_initPole_c1 : Val.ofBits (initPole n flow fhigh fsample).c1 =
    poleC1 (poleW flow fsample) (poleW fhigh fsample) :=
  Val.ofBits_bits_nanAt (Val.neg_canonical Val.div_canonical) (n + 1)

/-- The pattern of `d0` stands for the value of R110. -/
theorem ofBits_initPole_d0 : Val.ofBits (initPole n flow fhigh fsample).d0 =
    poleD0 (poleW flow fsample) :=
  Val.ofBits_bits_nanAt Val.div_canonical (n + 2)

end

/-- Equal corners make numerator and denominator of `c0` the same datum. -/
theorem poleC0_self {w : Val} {neg : Bool} {m : Nat} {e : Int} (h : Val.one.add w = .fin neg m e)
    (hm : m ≠ 0) : poleC0 w w = .one := by
  rw [poleC0, h, Val.div_self_fin hm]

/-- Equal corners make the numerators of `c1` and `d0` the same datum. -/
theorem poleC1_self (w : Val) : poleC1 w w = (poleD0 w).neg := rfl

/-- Settles O43: with one `w` for both corners `c0` is a quotient of equal data, and `c1` is the negated
formula of `d0`. -/
theorem equalCornersPassThrough : Obligations.EqualCornersPassThrough := by
  intro n f fsample neg m e hden hm
  have hc0 : poleC0 (poleW f fsample) (poleW f fsample) = .one := poleC0_self hden hm
  refine ⟨?_, ?_, rfl, rfl⟩
  · calc (initPole n f f fsample).c0
        = (poleC0 (poleW f fsample) (poleW f fsample)).bits (nanAt n) := rfl
      _ = Val.one.bits (nanAt n) := by rw [hc0]
      _ = 0x3FF0000000000000 := Val.bits_one _
  · rw [ofBits_initPole_c1, ofBits_initPole_d0, poleC1_self]

/-! ### STEP -/

/-- STEP of a planned cascade runs the cascade and answers its output (R113). -/
theorem exec_step_planned {s : State} (h : s.stages ≠ []) (x : W64) :
    exec (.step x) s = .next ((s.stepped x).finish (cascadeStep s.draws x s.stages).1) := by
  rw [exec, execStep, State.ifPlanned, if_neg h]

/-- What each stage is given, in index order, and last what the last stage gives (R114). -/
def cascadeInputs : Nat → W64 → List Stage → List W64
  | _, v, [] => [v]
  | n, v, st :: rest => v :: cascadeInputs (n + 1) (stageStep n st v).1 rest

@[simp] theorem cascadeInputs_length (n : Nat) (v : W64) (l : List Stage) :
    (cascadeInputs n v l).length = l.length + 1 := by
  induction l generalizing n v with
  | nil => rfl
  | cons st rest ih => simp [cascadeInputs, ih]

/-- The first stage is given the sample. -/
theorem cascadeInputs_zero (n : Nat) (v : W64) (l : List Stage) :
    (cascadeInputs n v l)[0]? = some v := by
  cases l <;> rfl

/-- The output of the last stage is that of the cascade. -/
theorem cascadeInputs_getLast? (n : Nat) (v : W64) (l : List Stage) :
    (cascadeInputs n v l).getLast? = some (cascadeStep n v l).1 := by
  induction l generalizing n v with
  | nil => rfl
  | cons st rest ih => rw [cascadeInputs, List.getLast?_cons, ih, cascadeStep_cons]; rfl

/-- Stage `k` does one `stage_step` (R112) on what it is given, with the NaN draw of its place, and its
output is given to stage `k + 1`. -/
theorem cascadeStep_getElem? {n k : Nat} {v u : W64} {l : List Stage} {st : Stage}
    (hst : l[k]? = some st) (hu : (cascadeInputs n v l)[k]? = some u) :
    (cascadeStep n v l).2[k]? = some (stageStep (n + k) st u).2 ∧
      (cascadeInputs n v l)[k + 1]? = some (stageStep (n + k) st u).1 := by
  induction l generalizing n k v with
  | nil => cases hst
  | cons a rest ih =>
    cases k with
    | zero =>
      obtain rfl : a = st := Option.some.inj hst
      obtain rfl : v = u := Option.some.inj hu
      exact ⟨rfl, cascadeInputs_zero _ _ rest⟩
    | succ k =>
      rw [show n + (k + 1) = n + 1 + k by omega]
      exact ih hst hu

/-- Settles O41: the inputs are `cascadeInputs`, and each stage is one `stageStep` (`cascadeStep_getElem?`). -/
theorem stepCompletes : Obligations.StepCompletes := by
  intro s x hs
  refine ⟨cascadeInputs s.draws x s.stages, (cascadeStep s.draws x s.stages).1,
    (cascadeStep s.draws x s.stages).2, exec_step_planned hs x, cascadeStep_length _ _ _,
    cascadeInputs_length _ _ _, cascadeInputs_zero _ _ _, cascadeInputs_getLast? _ _ _, ?_⟩
  intro k st v hst hv
  exact cascadeStep_getElem? hst hv

end Machine

end Sys2Proof
end

section
/-! PROOFS. The binary64 laws the planner rests on (40_numerics.md R71, R75, R82): the floor of a datum, a
result that needs no rounding, and that rounding keeps the order of exact results. -/

namespace Sys2Proof

/-! ### The floor -/

/-- `floor_int` is the floor of the exact value (40_numerics.md R82): a whole number where the exponent is
not negative, else the quotient by a power of two. -/
theorem Val.floorInt_fin (s : Bool) (m : Nat) (e : Int) :
    (Val.fin s m e).floorInt = some ⌊(Val.fin s m e).toRat⌋ := by
  rw [← Rat.floor_cast (α := ℝ), floorInt]
  congr 1
  split
  next he => rw [toRat_fin_eq_scaled he, sub_zero, zpow_zero, mul_one, Int.floor_intCast]
  next he =>
    have hquot : ((Val.fin s m e).toRat : ℝ) = (scaled s m 0 : ℤ) / ((2 ^ (-e).toNat : Nat) : ℝ) := by
      rw [toRat_fin_eq_scaled le_rfl, sub_self, Int.toNat_zero, div_eq_mul_inv, Nat.cast_pow,
        Nat.cast_ofNat, ← zpow_natCast, ← zpow_neg, Int.toNat_of_nonneg (by omega), neg_neg]
    rw [hquot, Int.floor_div_natCast, Int.floor_intCast, Int.fdiv_eq_ediv_of_nonneg _ (by positivity)]

theorem Val.floorInt_eq_some_iff (v : Val) (n : Int) :
    v.floorInt = some n ↔ v.isFinite = true ∧ n = ⌊v.toRat⌋ := by
  cases v with
  | nan => simp [floorInt, isFinite]
  | inf s => simp [floorInt, isFinite]
  | fin s m e => rw [floorInt_fin, Option.some.injEq]; simp [isFinite, eq_comm]

/-! ### Finite results -/

theorem Val.inFormat.isFinite {v : Val} (h : v.inFormat) : v.isFinite = true := by
  obtain ⟨s, m, e, rfl, -⟩ := inFormat_iff.1 h
  rfl

theorem Val.isFinite_neg (a : Val) : a.neg.isFinite = a.isFinite := by cases a <;> rfl

/-- A finite datum of the format's own form can be represented. -/
theorem Val.Canonical.inFormat {v : Val} (h : v.Canonical) (hf : v.isFinite = true) : v.inFormat := by
  obtain ⟨s, m, e, rfl⟩ := isFinite_iff.1 hf
  simp only [Val.Canonical] at h
  exact ⟨by omega, by omega, by omega⟩

/-- A rounded result is finite exactly when the exact one is below the overflow bound. -/
theorem Val.rounds.isFinite_iff {x : ℝ} {r : Val} (h : Val.rounds x r) :
    r.isFinite = true ↔ |x| < Val.overflowBound := by
  obtain ⟨hfin, hinf⟩ := h
  refine ⟨fun hr => not_le.1 fun hx => ?_, fun hx => (hfin hx).1.isFinite⟩
  obtain ⟨neg, rfl, -⟩ := hinf hx
  cases hr

theorem Val.rounds.nearest {x : ℝ} {r : Val} (h : Val.rounds x r) (hr : r.isFinite = true) :
    Val.nearest x r :=
  h.1 (h.isFinite_iff.1 hr)

theorem Val.inFormat.abs_lt_overflowBound {d : Val} (hd : d.inFormat) :
    |(d.toRat : ℝ)| < Val.overflowBound := by
  obtain ⟨s, m, e, rfl, -⟩ := inFormat_iff.1 hd
  rw [toRat_fin, abs_signed _ (by positivity)]
  exact toRat_fin_lt_overflowBound hd

/-- A result that can be represented is not rounded. -/
theorem Val.rounds.exact {d r : Val} (h : Val.rounds (d.toRat : ℝ) r) (hd : d.inFormat) :
    r.isFinite = true ∧ r.toRat = d.toRat := by
  have hr : r.isFinite = true := h.isFinite_iff.2 hd.abs_lt_overflowBound
  exact ⟨hr, (h.nearest hr).toRat_eq hd⟩

/-- A datum of the format that is not above the exact result is not above the rounded one. -/
theorem Val.nearest.le_of_le {x : ℝ} {d r : Val} (h : Val.nearest x r) (hd : d.inFormat)
    (hx : (d.toRat : ℝ) ≤ x) : d.toRat ≤ r.toRat := by
  obtain ⟨-, hmin⟩ := h
  obtain ⟨hle, -⟩ := hmin d hd
  by_contra hlt
  have hlt' : (r.toRat : ℝ) < d.toRat := by exact_mod_cast not_le.1 hlt
  rw [abs_of_neg (by linarith), abs_of_nonpos (by linarith)] at hle
  linarith

/-- A finite sum has finite operands, as an infinity or a NaN among them stays (R73). -/
theorem Val.isFinite_of_add {a b : Val} (h : (a.add b).isFinite = true) :
    a.isFinite = true ∧ b.isFinite = true := by
  cases a with
  | nan => cases h
  | inf s =>
    cases b with
    | nan => cases h
    | inf t => rw [Val.add] at h; split at h <;> cases h
    | fin t n f => cases h
  | fin s m e =>
    cases b with
    | nan => cases h
    | inf t => cases h
    | fin t n f => exact ⟨rfl, rfl⟩

/-- A finite product with a finite factor has a finite other factor. -/
theorem Val.isFinite_of_mul {a b : Val} (hb : b.isFinite = true) (h : (a.mul b).isFinite = true) :
    a.isFinite = true := by
  obtain ⟨t, n, f, rfl⟩ := isFinite_iff.1 hb
  cases a with
  | nan => cases h
  | inf s => rw [Val.mul] at h; split at h <;> cases h
  | fin s m e => rfl

theorem Val.isFinite_of_sub {a b : Val} (h : (a.sub b).isFinite = true) :
    a.isFinite = true ∧ b.isFinite = true := by
  rw [← isFinite_neg b]
  exact isFinite_of_add h

/-! ### Rounding depends on the exact result alone, and keeps the order -/

theorem NearestMultiple.unique {u y : ℝ} {p q : Nat} (hp : NearestMultiple u y p)
    (hq : NearestMultiple u y q) (hu : 0 < u) : p = q := by
  by_contra hne
  have hp' : |(p : ℝ) * u - y| = u / 2 :=
    le_antisymm hp.near (by exact_mod_cast hq.le_of_ne hu (j := p) (by exact_mod_cast hne))
  have hq' : |(q : ℝ) * u - y| = u / 2 :=
    le_antisymm hq.near (by exact_mod_cast hp.le_of_ne hu (j := q) (by exact_mod_cast Ne.symm hne))
  have hgap : |(p : ℝ) - q| * u ≤ 1 * u := by
    rw [← abs_of_pos hu, ← abs_mul, sub_mul, abs_of_pos hu]
    linarith [abs_sub_le ((p : ℝ) * u) y (q * u), abs_sub_comm y (q * u)]
  have hone : |(p : ℤ) - q| ≤ 1 := by exact_mod_cast le_of_mul_le_mul_right hgap hu
  have hpe := hp.even hp'
  have hqe := hq.even hq'
  rw [abs_le] at hone
  omega

/-- The unit of a significand is that of the binade of the number. -/
theorem IsSignificand.exp_le {y : ℝ} {p q : Nat} {g h : Int} (hp : IsSignificand y p g)
    (hq : IsSignificand y q h) : h ≤ g := by
  by_contra hlt
  have hge := hp.exp_ge
  have hnormal := hq.normal (by omega)
  have hunit : (2 : ℝ) * 2 ^ g ≤ 2 ^ h := two_mul_zpow_le (by omega)
  linarith [hp.lt]

theorem IsSignificand.unique {y : ℝ} {p q : Nat} {g h : Int} (hp : IsSignificand y p g)
    (hq : IsSignificand y q h) : p = q ∧ g = h := by
  obtain rfl : g = h := le_antisymm (hq.exp_le hp) (hp.exp_le hq)
  exact ⟨hp.nearest.unique hq.nearest (by positivity), rfl⟩

/-- However the exact magnitude is written, it is rounded to the same datum. -/
theorem Val.round_congr {m n : Nat} {e f : Int} (h : (m : ℝ) * 2 ^ e = n * 2 ^ f) (neg : Bool) :
    Val.round neg m e false = Val.round neg n f false := by
  by_cases hm : m = 0
  · subst hm
    obtain rfl : n = 0 := by simpa [zpow_ne_zero] using h.symm
    rfl
  · have hn : n ≠ 0 := by
      rintro rfl
      simp [hm, zpow_ne_zero] at h
    have hsig := (Truncates.natCast m).isSignificand hm nofun e
    rw [h] at hsig
    obtain ⟨hq, hg⟩ := hsig.unique ((Truncates.natCast n).isSignificand hn nofun f)
    rw [round_of_ne_zero hm, round_of_ne_zero hn, hq, hg]

/-- `r` is `x` rounded once by `Val.round`, however `x` is written as a sign, a natural number and a power
of two. -/
def Val.IsRoundOf (x : ℝ) (r : Val) : Prop :=
  ∃ (neg : Bool) (m : Nat) (e : Int), x = signed neg (m * 2 ^ e) ∧ r = .round neg m e false

theorem Val.IsRoundOf.rounds {x : ℝ} {r : Val} (h : Val.IsRoundOf x r) : Val.rounds x r := by
  obtain ⟨neg, m, e, rfl, rfl⟩ := h
  exact round_rounds neg m e

theorem signed_lt_zero_iff {y : ℝ} (hy : 0 < y) (neg : Bool) : signed neg y < 0 ↔ neg = true := by
  cases neg with
  | false => simp [hy.le]
  | true => simp [hy]

/-- The value of a rounded result is a function of the exact one; a zero may have either sign. -/
theorem Val.IsRoundOf.toRat_unique {x : ℝ} {r r' : Val} (h : Val.IsRoundOf x r)
    (h' : Val.IsRoundOf x r') : r.toRat = r'.toRat := by
  obtain ⟨s, m, e, hx, rfl⟩ := h
  obtain ⟨t, n, f, hx', rfl⟩ := h'
  have hmag : (m : ℝ) * 2 ^ e = n * 2 ^ f := by
    rw [← abs_signed s (y := m * 2 ^ e) (by positivity), ← hx, hx', abs_signed t (by positivity)]
  rw [round_congr hmag s]
  by_cases hn : n = 0
  · subst hn
    simp [round_zero, toRat]
  · have hpos : (0 : ℝ) < n * 2 ^ f := by positivity
    have hsign : s = t := Bool.eq_iff_iff.2 (by
      rw [← signed_lt_zero_iff hpos s, ← hmag, ← hx, hx', signed_lt_zero_iff hpos])
    rw [hsign]

/-- The nearer of two numbers is on the same side of their midpoint. -/
theorem add_le_two_mul_of_abs_le {q r x : ℝ} (hlt : q < r) (h : |r - x| ≤ |q - x|) : q + r ≤ 2 * x := by
  have hr := le_abs_self (r - x)
  rcases abs_cases (q - x) with ⟨hq, -⟩ | ⟨hq, -⟩ <;> linarith

theorem two_mul_le_add_of_abs_le {q r y : ℝ} (hlt : q < r) (h : |q - y| ≤ |r - y|) : 2 * y ≤ q + r := by
  rw [abs_sub_comm q, abs_sub_comm r] at h
  have hq := le_abs_self (y - q)
  rcases abs_cases (y - r) with ⟨hr, -⟩ | ⟨hr, -⟩ <;> linarith

/-- Rounding keeps the order of exact results (40_numerics.md R71): in the other order both exact results
would be at the midpoint of the rounded ones. -/
theorem Val.IsRoundOf.toRat_le {x y : ℝ} {r q : Val} (hr : Val.IsRoundOf x r) (hq : Val.IsRoundOf y q)
    (hxy : x ≤ y) (hrf : r.isFinite = true) (hqf : q.isFinite = true) : r.toRat ≤ q.toRat := by
  rcases hxy.eq_or_lt with rfl | hlt
  · exact (hr.toRat_unique hq).le
  · obtain ⟨hrfmt, hrmin⟩ := hr.rounds.nearest hrf
    obtain ⟨hqfmt, hqmin⟩ := hq.rounds.nearest hqf
    by_contra hgt
    have hgt' : (q.toRat : ℝ) < r.toRat := by exact_mod_cast not_le.1 hgt
    have hx := add_le_two_mul_of_abs_le hgt' (hrmin q hqfmt).1
    have hy := two_mul_le_add_of_abs_le hgt' (hqmin r hrfmt).1
    linarith

theorem Val.add_isRoundOf {a b : Val} (ha : a.isFinite = true) (hb : b.isFinite = true) :
    Val.IsRoundOf (a.toRat + b.toRat) (a.add b) := by
  obtain ⟨s, m, e, rfl⟩ := isFinite_iff.1 ha
  obtain ⟨t, n, f, rfl⟩ := isFinite_iff.1 hb
  refine ⟨_, _, _, ?_, add_fin s t m n e f⟩
  rw [toRat_fin_eq_scaled (min_le_left e f), toRat_fin_eq_scaled (min_le_right e f), ← add_mul,
    ← Int.cast_add, signed_mul_right, signed_natAbs fun h0 => if_neg h0]

theorem Val.mul_isRoundOf {a b : Val} (ha : a.isFinite = true) (hb : b.isFinite = true) :
    Val.IsRoundOf (a.toRat * b.toRat) (a.mul b) := by
  obtain ⟨s, m, e, rfl⟩ := isFinite_iff.1 ha
  obtain ⟨t, n, f, rfl⟩ := isFinite_iff.1 hb
  refine ⟨_, _, _, ?_, mul_fin s t m n e f⟩
  rw [toRat_fin, toRat_fin, signed_mul, mul_mul_mul_comm, ← zpow_add₀ two_ne_zero, Nat.cast_mul]

/-- A finite sum does not fall when its operands do not (40_numerics.md R71). -/
theorem Val.add_toRat_le {a b a' b' : Val} (ha : a.toRat ≤ a'.toRat) (hb : b.toRat ≤ b'.toRat)
    (h : (a.add b).isFinite = true) (h' : (a'.add b').isFinite = true) :
    (a.add b).toRat ≤ (a'.add b').toRat := by
  obtain ⟨haf, hbf⟩ := isFinite_of_add h
  obtain ⟨haf', hbf'⟩ := isFinite_of_add h'
  refine (add_isRoundOf haf hbf).toRat_le (add_isRoundOf haf' hbf') ?_ h h'
  exact_mod_cast add_le_add ha hb

theorem Val.sub_toRat_le {a b a' b' : Val} (ha : a.toRat ≤ a'.toRat) (hb : b'.toRat ≤ b.toRat)
    (h : (a.sub b).isFinite = true) (h' : (a'.sub b').isFinite = true) :
    (a.sub b).toRat ≤ (a'.sub b').toRat :=
  add_toRat_le ha (by rw [toRat_neg, toRat_neg]; exact neg_le_neg hb) h h'

end Sys2Proof
end

section
/-! PROOFS. `cfg_valid` (44_planner.md R120) in exact values: the one comparison with an operator in it is
exact, for `2.0 * fknee` needs no rounding unless it overflows. -/

namespace Sys2Proof

/-! ### Doubling -/

theorem Val.two_eq : Val.two = .fin false (2 ^ 52) (-51) := by decide

theorem Val.toRat_two : Val.two.toRat = 2 := by rw [two_eq]; norm_num [toRat]

theorem Val.twoPi_eq : Val.twoPi = .ofBits 0x401921FB54442D18 := by decide

theorem Val.twoPi_eq_fin : Val.twoPi = .fin false 7074237752028440 (-50) := by decide

theorem Val.one_le_toRat_twoPi : 1 ≤ Val.twoPi.toRat := by rw [twoPi_eq_fin]; norm_num [toRat]

theorem Val.two_mul_isRoundOf {a : Val} (ha : a.isFinite = true) :
    Val.IsRoundOf (2 * a.toRat : ℝ) (Val.two.mul a) := by
  have h := mul_isRoundOf (a := .two) (by rw [two_eq]; rfl) ha
  rwa [toRat_two, Rat.cast_ofNat] at h

/-- `2.0 * a` is exact where the largest exponent leaves room for it. -/
theorem Val.two_mul_exact {s : Bool} {m : Nat} {e : Int} (h : (Val.fin s m (e + 1)).inFormat) :
    (Val.two.mul (.fin s m e)).isFinite = true ∧
      (Val.two.mul (.fin s m e)).toRat = 2 * (Val.fin s m e).toRat := by
  have hval : (2 * (Val.fin s m e).toRat : ℝ) = (Val.fin s m (e + 1)).toRat := by
    rw [toRat_fin, toRat_fin, zpow_add_one₀ two_ne_zero, ← mul_assoc, signed_mul_right s _ 2, mul_comm]
  have hr := (two_mul_isRoundOf (a := .fin s m e) rfl).rounds
  rw [hval] at hr
  obtain ⟨hfin, heq⟩ := hr.exact h
  exact ⟨hfin, heq.trans (by exact_mod_cast hval.symm)⟩

/-- Twice the largest binade is out of the format. -/
theorem Val.overflowBound_le_two_mul {m : Nat} (hm : 2 ^ 52 ≤ m) :
    Val.overflowBound ≤ 2 * (m * 2 ^ (971 : ℤ)) := by
  have hm' : (2 : ℝ) ^ 52 ≤ m := by exact_mod_cast hm
  rw [overflowBound_eq, ← mul_assoc]
  exact mul_le_mul_of_nonneg_right (by linarith) (by positivity)

theorem Val.inf_lt_fin {b : Val} (hb : b.isFinite = true) (s : Bool) : (Val.inf s).lt b = s := by
  obtain ⟨t, n, f, rfl⟩ := isFinite_iff.1 hb
  rfl

/-- A finite datum above zero has a zero sign bit. -/
theorem Val.eq_fin_false_of_pos {a : Val} (h : 0 < a.toRat) : ∃ m e, a = .fin false m e := by
  cases a with
  | nan => simp [toRat] at h
  | inf s => simp [toRat] at h
  | fin s m e =>
    cases s with
    | false => exact ⟨m, e, rfl⟩
    | true =>
      have : 0 ≤ (m : ℚ) * 2 ^ e := by positivity
      simp only [toRat, if_true] at h
      linarith

/-- `2.0 * a < b` compares the exact values, though the product may overflow: then no finite datum is
above it. -/
theorem Val.two_mul_lt_iff {a b : Val} (ha : a.Canonical) (hpos : 0 < a.toRat) (hb : b.inFormat) :
    (Val.two.mul a).lt b = true ↔ 2 * a.toRat < b.toRat := by
  obtain ⟨m, e, rfl⟩ := eq_fin_false_of_pos hpos
  have hround := (two_mul_isRoundOf (a := .fin false m e) rfl).rounds
  by_cases he : e < 971
  · obtain ⟨hfin, hval⟩ := two_mul_exact (s := false) (m := m) (e := e) (by
      simp only [Canonical, inFormat] at ha ⊢; omega)
    rw [lt_iff hfin hb.isFinite, hval]
  · obtain ⟨rfl, hm⟩ : e = 971 ∧ 2 ^ 52 ≤ m := by simp only [Canonical] at ha; omega
    have hover : Val.overflowBound ≤ 2 * ((Val.fin false m 971).toRat : ℝ) := by
      rw [toRat_fin]; exact overflowBound_le_two_mul hm
    have hb' : (b.toRat : ℝ) < 2 * (Val.fin false m 971).toRat :=
      (le_abs_self _).trans_lt (hb.abs_lt_overflowBound.trans_le hover)
    obtain ⟨neg, hinf, hneg⟩ := hround.2 (hover.trans (le_abs_self _))
    have hx : ¬ (2 * ((Val.fin false m 971).toRat : ℝ) < 0) :=
      not_lt.2 (overflowBound_pos.le.trans hover)
    rw [hinf, inf_lt_fin hb.isFinite, hneg]
    exact iff_of_false hx (not_lt.2 (by exact_mod_cast hb'.le))

theorem Val.zero_lt_iff {a : Val} (ha : a.isFinite = true) : Val.zero.lt a = true ↔ 0 < a.toRat := by
  rw [lt_iff (by rw [zero_eq]; rfl) ha, toRat_zero]

theorem Val.ofBits_inFormat {b : W64} (h : (Val.ofBits b).isFinite = true) : (Val.ofBits b).inFormat :=
  (ofBits_canonical b).inFormat h

namespace Machine

/-! ### Valid configurations -/

/-- What `cfg_valid` tests (44_planner.md R120), in exact values. -/
structure ValidFrequencies (fmin fknee fsample : Val) : Prop where
  fmin_finite : fmin.isFinite = true
  fknee_finite : fknee.isFinite = true
  fsample_finite : fsample.isFinite = true
  fmin_pos : 0 < fmin.toRat
  fmin_lt_fknee : fmin.toRat < fknee.toRat
  two_fknee_lt_fsample : 2 * fknee.toRat < fsample.toRat
  omega_finite : (Val.twoPi.mul fknee).isFinite = true

theorem ValidFrequencies.fknee_pos {fmin fknee fsample : Val} (h : ValidFrequencies fmin fknee fsample) :
    0 < fknee.toRat :=
  h.fmin_pos.trans h.fmin_lt_fknee

theorem ValidFrequencies.fsample_pos {fmin fknee fsample : Val}
    (h : ValidFrequencies fmin fknee fsample) : 0 < fsample.toRat :=
  (mul_pos two_pos h.fknee_pos).trans h.two_fknee_lt_fsample

theorem cfgValid_iff {fmin fknee fsample : W64} :
    cfgValid (.ofBits fmin) (.ofBits fknee) (.ofBits fsample) = true ↔
      ValidFrequencies (.ofBits fmin) (.ofBits fknee) (.ofBits fsample) := by
  simp only [cfgValid, Bool.and_eq_true]
  constructor
  · rintro ⟨⟨⟨⟨⟨⟨hmin, hknee⟩, hsample⟩, hpos⟩, hlt⟩, htwo⟩, homega⟩
    rw [Val.zero_lt_iff hmin] at hpos
    rw [Val.lt_iff hmin hknee] at hlt
    rw [Val.two_mul_lt_iff (Val.ofBits_canonical _) (hpos.trans hlt) (Val.ofBits_inFormat hsample)] at htwo
    exact ⟨hmin, hknee, hsample, hpos, hlt, htwo, homega⟩
  · rintro ⟨hmin, hknee, hsample, hpos, hlt, htwo, homega⟩
    rw [Val.zero_lt_iff hmin, Val.lt_iff hmin hknee,
      Val.two_mul_lt_iff (Val.ofBits_canonical _) (hpos.trans hlt) (Val.ofBits_inFormat hsample)]
    exact ⟨⟨⟨⟨⟨⟨hmin, hknee⟩, hsample⟩, hpos⟩, hlt⟩, htwo⟩, homega⟩

/-- Settles O20: the comparisons of finite data compare their values, and `2.0 * fknee` is exact or
overflows above every `fsample`. -/
theorem cfgValidOrdersTheFrequencies : Obligations.CfgValidOrdersTheFrequencies := by
  intro fmin fknee fsample
  rw [cfgValid_iff, ← Val.twoPi_eq]
  exact ⟨fun ⟨hmin, hknee, hsample, hpos, hlt, htwo, homega⟩ =>
      ⟨hmin, hknee, hsample, hpos, hlt, htwo, homega⟩,
    fun ⟨hmin, hknee, hsample, hpos, hlt, htwo, homega⟩ =>
      ⟨hmin, hknee, hsample, hpos, hlt, htwo, homega⟩⟩

end Machine

end Sys2Proof
end

section
/-! PROOFS. NUM_POLES, PLAN and PLAN1 (44_planner.md R121 to R128): when each completes, and with which
state. -/

namespace Sys2Proof.Machine

/-! ### NUM_POLES -/

section
variable {fmin fknee fsample slope : W64} {s t : State}

theorem numPoles_eq_some_iff {k : Known} {d : Nat} {n : Int} :
    numPoles k d fmin fknee fsample = some n ↔
      (poleSum k (.ofBits fmin) (.ofBits fknee) d fsample).isFinite = true ∧
        n = ⌊(poleSum k (.ofBits fmin) (.ofBits fknee) d fsample).toRat⌋ :=
  Val.floorInt_eq_some_iff _ n

theorem fitsI32_iff (n : Int) : fitsI32 n = true ↔ -2 ^ 31 ≤ n ∧ n ≤ 2 ^ 31 - 1 := by
  rw [fitsI32, Bool.and_eq_true, decide_eq_true_iff, decide_eq_true_iff]

/-- NUM_POLES of a count that fits answers it (R122). -/
theorem exec_numPoles_of_count {n : Int}
    (hcfg : cfgValid (.ofBits fmin) (.ofBits fknee) (.ofBits fsample) = true)
    (hn : numPoles s.known s.draws fmin fknee fsample = some n) (hfit : fitsI32 n = true) :
    exec (.numPoles fmin fknee fsample) s = .next (s.finish (.ofInt 64 n)) := by
  simp only [exec, execNumPoles, hcfg, hn, hfit, if_true]

/-! ### PLAN -/

/-- The state after a PLAN of `n` stages. -/
def planResult (s : State) (slope fmin fknee fsample : W64) (n : Nat) : State :=
  (s.planned
    (planStages s.known s.draws (.ofBits slope) (.ofBits fsample)
      (logOmega s.known s.draws (.ofBits fmin)) (logOmega s.known s.draws (.ofBits fknee)) n)
    (5 * n)).finish (.ofNat 64 n)

/-- The conditions under which PLAN replaces the cascade by `n` stages (R125). -/
structure Plans (s : State) (slope fmin fknee fsample : W64) (n : Nat) : Prop where
  slope_finite : (Val.ofBits slope).isFinite = true
  cfg : cfgValid (.ofBits fmin) (.ofBits fknee) (.ofBits fsample) = true
  count : numPoles s.known s.draws fmin fknee fsample = some (n : Int)
  pos : 1 ≤ n
  le_nmax : n ≤ s.nmax

theorem Plans.exec_plan {n : Nat} (h : Plans s slope fmin fknee fsample n) :
    exec (.plan slope fmin fknee fsample) s = .next (planResult s slope fmin fknee fsample n) := by
  obtain ⟨hslope, hcfg, hn, hpos, hmax⟩ := h
  have hrange : (1 : Int) ≤ n ∧ (n : Int) ≤ s.nmax := by omega
  simp only [exec, execPlan, hslope, hcfg, hn, Bool.and_self, if_true, if_pos hrange, Int.toNat_natCast,
    BitVec.ofInt_natCast, planResult]

/-- PLAN faults or replaces the cascade; nothing else (R125). -/
theorem exec_plan_cases (h : exec (.plan slope fmin fknee fsample) s = .next t) :
    (∃ st, st ≠ .ok ∧ t = s.raise st) ∨
      ∃ n, Plans s slope fmin fknee fsample n ∧ t = planResult s slope fmin fknee fsample n := by
  have hexec := h
  simp only [exec, execPlan, Host.Outcome.next.injEq] at h
  split at h
  next hvalid =>
    obtain ⟨hslope, hcfg⟩ := Bool.and_eq_true_iff.1 hvalid
    split at h
    next => exact .inl ⟨_, by decide, h.symm⟩
    next n hn =>
      split at h
      next hrange =>
        obtain ⟨m, rfl⟩ := Int.eq_ofNat_of_zero_le (show 0 ≤ n by omega)
        have hplans : Plans s slope fmin fknee fsample m := ⟨hslope, hcfg, hn, by omega, by omega⟩
        exact .inr ⟨m, hplans, Host.Outcome.next.inj (hexec.symm.trans hplans.exec_plan)⟩
      next => exact .inl ⟨_, by decide, h.symm⟩
  next => exact .inl ⟨_, by decide, h.symm⟩

end

/-- Stage `j` of the loop comes from the exponent that has advanced `j` times, with the five NaN draws of
its place (R124). -/
theorem planLoop_eq_map (k : Known) (dp h fsample : Val) (n r : Nat) (p : Val) :
    planLoop k dp h fsample n r p = (List.range r).map fun j =>
      planStage k (n + 5 * j) ((fun q : Val => q.add dp)^[j] p)
        (((fun q : Val => q.add dp)^[j] p).add h) fsample := by
  induction r generalizing n p with
  | zero => rfl
  | succ r ih =>
    rw [planLoop, ih, List.range_succ_eq_map, List.map_cons, List.map_map]
    refine congrArg₂ List.cons rfl (List.map_congr_left fun j _ => ?_)
    rw [Function.comp_apply, Function.iterate_succ_apply, show n + 5 * (j + 1) = n + 5 + 5 * j by omega]

/-- Settles O46: the loop's stages in creation order (`planLoop_eq_map`). -/
theorem planCompletes : Obligations.PlanCompletes := by
  intro s slope fmin fknee fsample n hslope hcfg hn hpos hmax wmin wmax a dp h p0 corner
  have hplans : Plans s slope fmin fknee fsample n := ⟨hslope, hcfg, hn, hpos, hmax⟩
  rw [hplans.exec_plan, planResult, planStages, planLoop_eq_map]
  rfl

/-- Settles O48: a PLAN that answers `OK` has replaced the cascade, and the count it answers is at most
`NMAX`, so NUM_POLES answers it too. -/
theorem planAnswersTheNumPolesCount : Obligations.PlanAnswersTheNumPolesCount := by
  intro s t slope fmin fknee fsample d h hrsp
  rcases exec_plan_cases h with ⟨st, hst, rfl⟩ | ⟨n, hplans, rfl⟩
  · rw [State.raise_rsp, List.append_cancel_left_eq] at hrsp
    cases hrsp
    exact absurd rfl hst
  · obtain ⟨-, hcfg, hn, hpos, hmax⟩ := hplans
    have hle := hmax.trans s.nmax_le
    rw [planResult, State.finish_rsp, State.planned_rsp, List.append_cancel_left_eq] at hrsp
    obtain rfl : BitVec.ofNat 64 n = d := by cases hrsp; rfl
    refine ⟨?_, ?_⟩
    · rw [BitVec.toNat_ofNat, Nat.mod_eq_of_lt (by omega)]
      exact (planLoop_length _ _ _ _ _ _ _).symm
    · have hfit : fitsI32 (n : Int) = true := (fitsI32_iff n).2 (by omega)
      rw [exec_numPoles_of_count hcfg hn hfit, BitVec.ofInt_natCast]
      rfl

/-- Settles O45: `floor_int` is the floor of the exact value (`Val.floorInt_fin`), and so is the count. -/
theorem numPolesCompletes : Obligations.NumPolesCompletes := by
  refine ⟨Val.floorInt_eq_some_iff, ?_⟩
  intro s fmin fknee fsample hcfg wmin wmax v hv hlo hhi
  exact exec_numPoles_of_count hcfg (numPoles_eq_some_iff.2 ⟨hv, rfl⟩) ((fitsI32_iff _).2 ⟨hlo, hhi⟩)

/-! ### PLAN1 -/

theorem exec_plan1_of_valid {s : State} {fmin fknee fsample : W64}
    (hcfg : cfgValid (.ofBits fmin) (.ofBits fknee) (.ofBits fsample) = true) :
    exec (.plan1 fmin fknee fsample) s =
      .next ((s.planned [initPole s.draws (.ofBits fmin) (.ofBits fknee) (.ofBits fsample)] 3).finish 1) := by
  rw [exec, execPlan1, if_pos hcfg]

/-- Settles O47: the one stage is `init_pole` of the operands. -/
theorem plan1Completes : Obligations.Plan1Completes :=
  fun _ _ _ _ hcfg => exec_plan1_of_valid hcfg

end Sys2Proof.Machine
end

section
/-! PROOFS. The stage count is monotone (44_planner.md R123): every operator of R121 keeps the order of its
operands, and the arguments of `fn_log10` are those LOG10-MONO speaks of. -/

namespace Sys2Proof.Machine

/-! ### The arguments of `fn_log10` -/

theorem twoPi_mul_isRoundOf {a : Val} (ha : a.isFinite = true) :
    Val.IsRoundOf (Val.twoPi.toRat * a.toRat) (Val.twoPi.mul a) :=
  Val.mul_isRoundOf (by rw [Val.twoPi_eq_fin]; rfl) ha

/-- `(2.0*PI) * a` is not below a positive `a`, so it does not underflow to zero. -/
theorem le_twoPi_mul {a : Val} (ha : a.inFormat) (hpos : 0 < a.toRat)
    (hfin : (Val.twoPi.mul a).isFinite = true) : a.toRat ≤ (Val.twoPi.mul a).toRat := by
  refine ((twoPi_mul_isRoundOf ha.isFinite).rounds.nearest hfin).le_of_le ha ?_
  exact_mod_cast le_mul_of_one_le_left hpos.le Val.one_le_toRat_twoPi

theorem twoPi_mul_finite_of_le {a b : Val} (ha : a.isFinite = true) (hb : b.isFinite = true)
    (hpos : 0 < a.toRat) (hab : a.toRat ≤ b.toRat) (hfin : (Val.twoPi.mul b).isFinite = true) :
    (Val.twoPi.mul a).isFinite = true := by
  have hpi : 0 ≤ Val.twoPi.toRat := zero_le_one.trans Val.one_le_toRat_twoPi
  rw [(twoPi_mul_isRoundOf hb).rounds.isFinite_iff] at hfin
  rw [(twoPi_mul_isRoundOf ha).rounds.isFinite_iff]
  refine lt_of_le_of_lt ?_ hfin
  have hx : 0 ≤ Val.twoPi.toRat * a.toRat := mul_nonneg hpi hpos.le
  have hxy : Val.twoPi.toRat * a.toRat ≤ Val.twoPi.toRat * b.toRat := mul_le_mul_of_nonneg_left hab hpi
  exact_mod_cast abs_le_abs_of_nonneg hx hxy

theorem ValidFrequencies.fmin_omega_finite {fmin fknee fsample : Val}
    (h : ValidFrequencies fmin fknee fsample) : (Val.twoPi.mul fmin).isFinite = true :=
  twoPi_mul_finite_of_le h.fmin_finite h.fknee_finite h.fmin_pos h.fmin_lt_fknee.le h.omega_finite

/-- `log10((2.0*PI)*f)` keeps the order of two frequencies where LOG10-MONO says so of its arguments, which
are positive, finite and in the order of the frequencies. -/
theorem logOmega_le {k : Known} {d : Nat} {a b : W64}
    (hmono : Log10MonoAt (fnLog10 k) ((Val.twoPi.mul (.ofBits a)).bits (nanAt d))
      ((Val.twoPi.mul (.ofBits b)).bits (nanAt d)))
    (ha : (Val.ofBits a).isFinite = true) (hb : (Val.ofBits b).isFinite = true)
    (hpos : 0 < (Val.ofBits a).toRat) (hab : (Val.ofBits a).toRat ≤ (Val.ofBits b).toRat)
    (hfin : (Val.twoPi.mul (.ofBits b)).isFinite = true) :
    (logOmega k d (.ofBits a)).le (logOmega k d (.ofBits b)) = true := by
  have hfin' := twoPi_mul_finite_of_le ha hb hpos hab hfin
  have hpos' := hpos.trans_le (le_twoPi_mul (Val.ofBits_inFormat ha) hpos hfin')
  have hle : (Val.twoPi.mul (.ofBits a)).toRat ≤ (Val.twoPi.mul (.ofBits b)).toRat := by
    refine (twoPi_mul_isRoundOf ha).toRat_le (twoPi_mul_isRoundOf hb) ?_ hfin' hfin
    exact_mod_cast mul_le_mul_of_nonneg_left hab (zero_le_one.trans Val.one_le_toRat_twoPi)
  rw [Log10MonoAt, Val.ofBits_bits_nanAt Val.mul_canonical, Val.ofBits_bits_nanAt Val.mul_canonical] at hmono
  exact hmono ((Val.zero_lt_iff hfin').2 hpos') ((Val.le_iff hfin' hfin).2 hle) hfin

/-! ### The count -/

/-- `((wmax - wmin) * 2.0) + fs` does not fall when `wmax` and `fs` do not and `wmin` does not rise. -/
theorem poleSum_toRat_le {k : Known} {d : Nat} {fmin fknee fmin' fknee' : Val} {fsample fsample' : W64}
    (hmin : (logOmega k d fmin').le (logOmega k d fmin) = true)
    (hknee : (logOmega k d fknee).le (logOmega k d fknee') = true)
    (hsample : (Val.ofBits (fnLog10 k fsample)).le (.ofBits (fnLog10 k fsample')) = true)
    (h : (poleSum k fmin fknee d fsample).isFinite = true)
    (h' : (poleSum k fmin' fknee' d fsample').isFinite = true) :
    (poleSum k fmin fknee d fsample).toRat ≤ (poleSum k fmin' fknee' d fsample').toRat := by
  have htwo : Val.two.isFinite = true := by rw [Val.two_eq]; rfl
  obtain ⟨hprod, hfs⟩ := Val.isFinite_of_add h
  obtain ⟨hprod', hfs'⟩ := Val.isFinite_of_add h'
  have hsub := Val.isFinite_of_mul htwo hprod
  have hsub' := Val.isFinite_of_mul htwo hprod'
  obtain ⟨hwmax, hwmin⟩ := Val.isFinite_of_sub hsub
  obtain ⟨hwmax', hwmin'⟩ := Val.isFinite_of_sub hsub'
  rw [Val.le_iff hwmin' hwmin] at hmin
  rw [Val.le_iff hwmax hwmax'] at hknee
  rw [Val.le_iff hfs hfs'] at hsample
  have hdiff := Val.sub_toRat_le hknee hmin hsub hsub'
  refine Val.add_toRat_le ?_ hsample h h'
  refine (Val.mul_isRoundOf hsub htwo).toRat_le (Val.mul_isRoundOf hsub' htwo) ?_ hprod hprod'
  rw [Val.toRat_two]
  exact_mod_cast mul_le_mul_of_nonneg_right hdiff zero_le_two

/-- Settles O49: the three logarithms keep the order of their arguments, each rounded operator keeps the
order of its operands, and so does the floor. -/
theorem stageCountIsMonotone : Obligations.StageCountIsMonotone := by
  intro k d fmin fknee fsample fmin' fknee' fsample' n n' hcfg hcfg' hmin hknee hsample omega hlogMin
    hlogKnee hlogSample hn hn'
  have c := cfgValid_iff.1 hcfg
  have c' := cfgValid_iff.1 hcfg'
  obtain ⟨hv, rfl⟩ := numPoles_eq_some_iff.1 hn
  obtain ⟨hv', rfl⟩ := numPoles_eq_some_iff.1 hn'
  have hwmin := logOmega_le hlogMin c'.fmin_finite c.fmin_finite c'.fmin_pos
    ((Val.le_iff c'.fmin_finite c.fmin_finite).1 hmin) c.fmin_omega_finite
  have hwmax := logOmega_le hlogKnee c.fknee_finite c'.fknee_finite c.fknee_pos
    ((Val.le_iff c.fknee_finite c'.fknee_finite).1 hknee) c'.omega_finite
  have hfs := hlogSample ((Val.zero_lt_iff c.fsample_finite).2 c.fsample_pos) hsample c'.fsample_finite
  exact Int.floor_mono (poleSum_toRat_le hwmin hwmax hfs hv hv')

end Sys2Proof.Machine
end

section
/-! PROOFS. NEXT_COLORED and FILL_COLORED (45_colored.md R135 to R138), and what the three kinds of deviate
have in common: a FILL is its single command repeated, and two FILLs in a row are one (R138; 41_uniform.md
R92, 42_gaussian.md R103). -/

namespace Sys2Proof.Machine

/-! ### The three kinds of deviate -/

/-- The kinds of deviate that have a single command and a FILL. -/
inductive Deviate where
  | uniform | normal | colored

/-- The command that returns one deviate. -/
def Deviate.single : Deviate → Instr
  | .uniform => .nextUniform
  | .normal => .nextNormal
  | .colored => .nextColored

/-- The command that sends `n` deviates. -/
def Deviate.fillOf : Deviate → W64 → Instr
  | .uniform => .fillUniform
  | .normal => .fillNormal
  | .colored => .fillColored

/-- The call that both commands make (R91, R101, R135). -/
def Deviate.sampler (k : Known) : Deviate → Source → Option (W64 × Source)
  | .uniform => sampleUniform
  | .normal => sampleNormal k
  | .colored => sampleColored k

/-- The state has what the kind needs beside a seed (60_exceptions.md R156). -/
def Deviate.Ready (D : Deviate) (s : State) : Prop := D = .colored → s.stages ≠ []

/-- Calls of any kind only draw, use the cache and step the cascade. -/
theorem Deviate.sampler_moves (D : Deviate) (k : Known) : Moves (D.sampler k) ColoredMove where
  refl := (sampleColored_moves k).refl
  trans := (sampleColored_moves k).trans
  call := by
    intro c y c' h
    cases D with
    | uniform => exact (sampleUniform_moves.call h).toNormal.toColored
    | normal => exact ((sampleNormal_moves k).call h).toColored
    | colored => exact (sampleColored_moves k).call h

/-- A call leaves as many stages as there were, so that the next one can be made. -/
theorem Deviate.Ready.of_call {D : Deviate} {k : Known} {s t : State} {w : Words} {y : W64}
    {c : Source} (h : D.Ready s) (hcall : D.sampler k (s.source w) = some (y, c))
    (ht : t.stages = c.stages) : D.Ready t := by
  intro hD
  have hlen : t.stages.length = s.stages.length :=
    ht ▸ ((D.sampler_moves k).call hcall).stages.length
  exact List.ne_nil_of_length_pos (hlen ▸ List.length_pos_iff.2 (h hD))

/-! ### Answers one after the other -/

/-- A state is its own with its own draw state. -/
theorem State.withSource_source {s : State} {w : Words} (hw : s.gen = .seeded w) :
    s.withSource (s.source w) = s :=
  State.withSource_source_cache hw s.cache

/-- Of two answers in a row the beats add up, and the later draw state stays. -/
theorem State.withSource_emit_again (s : State) (c d : Source) (bs bs' : List Beat) :
    (((s.withSource c).emit bs).withSource d).emit bs' = (s.withSource d).emit (bs ++ bs') := by
  simp [State.emit, State.withSource]

theorem dataBeat_injective : Function.Injective dataBeat := fun _ _ h => congrArg Beat.data h

/-! ### The commands -/

section
variable {D : Deviate} {s t : State} {w : Words} {n : W64}

/-- A seeded single command answers one call (R91, R102, R136). -/
theorem Deviate.exec_single (hw : s.gen = .seeded w) (h : D.Ready s) :
    exec D.single s = .next (s.answerOne (D.sampler s.known (s.source w))) := by
  cases D with
  | uniform => rw [single, exec, execNextUniform, State.ifSeeded_seeded hw, sampler]
  | normal => exact exec_nextNormal_seeded hw
  | colored =>
    rw [single, exec, execNextColored, State.ifSeeded_seeded hw, State.ifPlanned, if_neg (h rfl),
      sampler]

/-- A seeded FILL with a 32-bit count answers its calls in generation order (R92, R103, R137). -/
theorem Deviate.exec_fillOf {m : U32} (hn : u32Operand n = some m) (hw : s.gen = .seeded w)
    (h : D.Ready s) :
    exec (D.fillOf n) s = .next (s.answerFill m (fill (D.sampler s.known) m.toNat (s.source w))) := by
  cases D with
  | uniform => simp only [fillOf, exec, execFillUniform, hn, State.ifSeeded_seeded hw, sampler]
  | normal => exact exec_fillNormal_seeded hn hw
  | colored =>
    simp only [fillOf, exec, execFillColored, hn, State.ifSeeded_seeded hw, State.ifPlanned,
      if_neg (h rfl), sampler]

/-- A FILL faults, or its count, the seed and the cascade are there (60_exceptions.md R153, R155, R156). -/
theorem Deviate.exec_fillOf_cases (D : Deviate) (n : W64) (s : State) :
    (∃ st, st ≠ .ok ∧ exec (D.fillOf n) s = .next (s.raise st)) ∨
    ∃ m w, u32Operand n = some m ∧ s.gen = .seeded w ∧ D.Ready s := by
  cases hn : u32Operand n with
  | none =>
    refine .inl ⟨.badOperand, by decide, ?_⟩
    cases D <;> simp only [fillOf, exec, execFillUniform, execFillNormal, execFillColored, hn]
  | some m =>
    cases hw : s.gen with
    | unseeded =>
      refine .inl ⟨.notSeeded, by decide, ?_⟩
      cases D <;> simp only [fillOf, exec, execFillUniform, execFillNormal, execFillColored, hn,
        State.ifSeeded_unseeded hw]
    | seeded w =>
      by_cases hready : D.Ready s
      · exact .inr ⟨m, w, rfl, rfl, hready⟩
      · obtain ⟨rfl, hstages⟩ := Classical.not_imp.1 hready
        refine .inl ⟨.noCascade, by decide, ?_⟩
        simp only [fillOf, exec, execFillColored, hn, State.ifSeeded_seeded hw, State.ifPlanned,
          if_pos (not_not.1 hstages)]

/-- A FILL whose calls all return sends their samples, then DONE with its count, and leaves the draw state
of the last call. -/
theorem Deviate.exec_fillOf_of_fill {ys : List W64} {c : Source} (hn : n.toNat < 2 ^ 32)
    (hw : s.gen = .seeded w) (h : D.Ready s)
    (hfill : fill (D.sampler s.known) n.toNat (s.source w) = (ys, some c)) :
    exec (D.fillOf n) s = .next ((s.withSource c).emit (ys.map dataBeat ++ [okBeat n])) := by
  have hm : u32Operand n = some (n.setWidth 32) := u32Operand_eq_some.2 ⟨(fitsU32_iff n).2 hn, rfl⟩
  rw [Deviate.exec_fillOf hm hw h, toNat_of_u32Operand hm, hfill, State.answerFill,
    setWidth_of_u32Operand hm]

/-- A FILL that completes with the data `ys` made that many calls, which all returned. -/
theorem Deviate.fill_of_exec_fillOf {ys : List W64} (h : exec (D.fillOf n) s = .next t)
    (hrsp : t.rsp = s.rsp ++ ys.map dataBeat ++ [okBeat n]) :
    ∃ w c, s.gen = .seeded w ∧ D.Ready s ∧
      fill (D.sampler s.known) n.toNat (s.source w) = (ys, some c) ∧
      t = (s.withSource c).emit (ys.map dataBeat ++ [okBeat n]) := by
  have hdone : Completed s t := ⟨_, _, hrsp⟩
  obtain ⟨st, hst, he⟩ | ⟨m, w, hm, hw, hready⟩ := D.exec_fillOf_cases n s
  · cases he.symm.trans h
    exact absurd hdone (not_completed_raise hst)
  · cases (Deviate.exec_fillOf hm hw hready).symm.trans h
    rw [toNat_of_u32Operand hm] at hrsp hdone ⊢
    obtain ⟨-, e⟩ | ⟨c, hc, e⟩ :=
      State.answerFill_cases s m (fill (D.sampler s.known) n.toNat (s.source w))
    · exact absurd (e ▸ hdone) (not_completed_hang s _)
    · rw [e, setWidth_of_u32Operand hm] at hrsp ⊢
      have hbeats := List.append_cancel_left (hrsp.trans (List.append_assoc _ _ _))
      have hys : (fill (D.sampler s.known) n.toNat (s.source w)).1 = ys :=
        dataBeat_injective.list_map (List.append_cancel_right hbeats)
      exact ⟨w, c, hw, hready, Prod.ext hys hc, by rw [hys]⟩

end

/-! ### Single commands in a row -/

/-- No command ends a hang (70_reset_and_hazards.md R181). -/
theorem exec_hung {i : Instr} {s t : State} (h : exec i s = .next t) (hs : s.hung = true) :
    t.hung = true := by
  obtain ⟨st, -, rfl⟩ | ⟨ys, rfl, -, -⟩ | ⟨ys, d, -, hc⟩ := exec_ends h
  · exact hs
  · rfl
  · exact hc.hung.trans hs

theorem repeatExec_succ {i : Instr} {n : Nat} {s t : State} (h : exec i s = .next t) :
    repeatExec i (n + 1) s = repeatExec i n t := by
  simp only [repeatExec, h]

theorem repeatExec_hung {i : Instr} {n : Nat} {s u : State} (h : repeatExec i n s = some u)
    (hs : s.hung = true) : u.hung = true := by
  induction n generalizing s with
  | zero =>
    cases h
    exact hs
  | succ n ih =>
    obtain ⟨t, ht⟩ := exec_completes i s
    rw [repeatExec_succ ht] at h
    exact ih h (exec_hung ht hs)

/-- Single commands in a row that do not hang make the calls of a FILL, and return its samples. -/
theorem Deviate.fill_of_repeatExec {D : Deviate} {n : Nat} {s u : State} {w : Words}
    (hw : s.gen = .seeded w) (hready : D.Ready s) (h : repeatExec D.single n s = some u)
    (hu : u.hung = false) :
    ∃ ys c, fill (D.sampler s.known) n (s.source w) = (ys, some c) ∧
      u = (s.withSource c).emit (ys.map okBeat) := by
  induction n generalizing s w with
  | zero =>
    cases h
    refine ⟨[], _, rfl, ?_⟩
    rw [State.withSource_source hw]
    simp [State.emit]
  | succ n ih =>
    rw [repeatExec_succ (Deviate.exec_single hw hready)] at h
    cases hcall : D.sampler s.known (s.source w) with
    | none =>
      rw [hcall, State.answerOne] at h
      exact absurd (repeatExec_hung h (State.hang_hung s [])) (by simp [hu])
    | some r =>
      obtain ⟨y, c⟩ := r
      rw [hcall, State.answerOne] at h
      obtain ⟨ys, d, hfill, rfl⟩ := ih (w := c.words) rfl (hready.of_call hcall rfl) h
      refine ⟨y :: ys, d, ?_, State.withSource_emit_again s c d _ _⟩
      have hrest : fill (D.sampler s.known) n c = (ys, some d) := hfill
      rw [fill_succ_some hcall, hrest]

/-! ### FILL_COLORED, and FILLs against single commands and each other -/

/-- Settles O38: each call filters the deviate that `next_normal` gives (`sampleColored_eq_some`), and the
calls are those of the FILL (`fill_of_calls`). -/
theorem fillColoredCompletes : Obligations.FillColoredCompletes := by
  intro n s w g c e hn hw hstages h0 hcalls
  have hsampled : ∀ k < n.toNat, sampleColored s.known (c k) =
      some ((cascadeStep (e k).draws (g k) (e k).stages).1, c (k + 1)) := by
    intro k hk
    obtain ⟨hnormal, hnext⟩ := hcalls k hk
    exact sampleColored_eq_some.2 ⟨g k, e k, hnormal, by rw [hnext, filterSample]⟩
  have hsource : s.source w = c 0 := h0.symm
  have hfill := fill_of_calls hsampled
  rw [← hsource] at hfill
  have hexec := Deviate.exec_fillOf_of_fill (D := .colored) hn hw (fun _ => hstages) hfill
  rw [State.emit, ← List.append_assoc, List.map_map] at hexec
  exact hexec

/-- Settles O39: single commands in a row make the calls of the FILL (`Deviate.fill_of_repeatExec`). -/
theorem fillIsRepeatedSingleDraws : Obligations.FillIsRepeatedSingleDraws := by
  intro single fillOf n s u hkind hn hgen _ hrepeat hu
  obtain ⟨D, rfl, rfl, hready⟩ :
      ∃ D : Deviate, single = D.single ∧ fillOf = D.fillOf ∧ D.Ready s := by
    obtain ⟨rfl, rfl⟩ | ⟨rfl, rfl⟩ | ⟨rfl, rfl, hstages⟩ := hkind
    · exact ⟨.uniform, rfl, rfl, nofun⟩
    · exact ⟨.normal, rfl, rfl, nofun⟩
    · exact ⟨.colored, rfl, rfl, fun _ => hstages⟩
  cases hw : s.gen with
  | unseeded => exact absurd hw hgen
  | seeded w =>
    obtain ⟨ys, c, hfill, rfl⟩ := Deviate.fill_of_repeatExec hw hready hrepeat hu
    have hlen := fill_length (congrArg Prod.snd hfill)
    rw [hfill] at hlen
    refine ⟨ys, hlen, rfl, ?_⟩
    rw [Deviate.exec_fillOf_of_fill hn hw hready hfill, State.emit, ← List.append_assoc]
    rfl

/-- Settles O40: the calls of the two FILLs in a row are those of the one (`fill_append`). -/
theorem fillsConcatenate : Obligations.FillsConcatenate := by
  intro fillOf m n s t u xs ys hkind hlt hs ht hs' hu
  obtain ⟨D, rfl⟩ : ∃ D : Deviate, fillOf = D.fillOf := by
    obtain rfl | rfl | rfl := hkind
    · exact ⟨.uniform, rfl⟩
    · exact ⟨.normal, rfl⟩
    · exact ⟨.colored, rfl⟩
  obtain ⟨w, c, hw, hready, hfirst, rfl⟩ := Deviate.fill_of_exec_fillOf hs ht
  obtain ⟨w', d, hw', -, hsecond, rfl⟩ := Deviate.fill_of_exec_fillOf hs' hu
  cases hw'
  have hsum : (m + n).toNat = m.toNat + n.toNat := BitVec.toNat_add_of_lt (by omega)
  have hfill : fill (D.sampler s.known) (m + n).toNat (s.source w) = (xs ++ ys, some d) := by
    have hrest : fill (D.sampler s.known) n.toNat c = (ys, some d) := hsecond
    rw [hsum, fill_append (congrArg Prod.snd hfirst), hfirst, hrest]
  rw [Deviate.exec_fillOf_of_fill (by omega) hw hready hfill, State.emit, ← List.append_assoc]
  rfl

/-! ### NEXT_COLORED -/

/-- NEXT_COLORED filters the deviate that `next_normal` gives (R135, R136). -/
theorem exec_nextColored_of_normal {s : State} {w : Words} {g : W64} {c : Source}
    (hw : s.gen = .seeded w) (hstages : s.stages ≠ [])
    (hnormal : sampleNormal s.known (s.source w) = some (g, c)) :
    exec .nextColored s =
      .next ((s.withSource (filterSample g c).2).finish (filterSample g c).1) := by
  have hcall : Deviate.colored.sampler s.known (s.source w) = some (filterSample g c) :=
    sampleColored_eq_some.2 ⟨g, c, hnormal, rfl⟩
  have hexec := Deviate.exec_single (D := .colored) hw fun _ => hstages
  rwa [hcall] at hexec

/-- Settles O50: `next_normal` leaves the stages (`sampleNormal_moves`), so those filtered are the block's. -/
theorem nextColoredCompletes : Obligations.NextColoredCompletes := by
  intro s w g c hw hstages hnormal
  have hkept : c.stages = s.stages := ((sampleNormal_moves s.known).call hnormal).stages
  rw [exec_nextColored_of_normal hw hstages hnormal, ← hkept]
  rfl

/-- A NEXT_NORMAL that completes answers the sample its call returned. -/
theorem exec_nextNormal_of_completed {s t : State} (h : exec .nextNormal s = .next t)
    (hdone : Completed s t) :
    ∃ w y c, s.gen = .seeded w ∧ sampleNormal s.known (s.source w) = some (y, c) ∧
      t = (s.withSource c).finish y := by
  cases hw : s.gen with
  | unseeded =>
    rw [exec, execNextNormal, State.ifSeeded_unseeded hw] at h
    cases h
    exact absurd hdone (not_completed_raise (by decide))
  | seeded w =>
    obtain ⟨-, rfl⟩ | ⟨y, c, hcall, ht⟩ := exec_nextNormal_seeded_cases hw h
    · exact absurd hdone (not_completed_hang s [])
    · exact ⟨w, y, c, rfl, hcall, ht⟩

/-- The datum of a response of one beat. -/
theorem State.eq_of_finish_rsp {s : State} {d y : W64} (h : (s.finish d).rsp = s.rsp ++ [okBeat y]) :
    d = y :=
  congrArg Beat.data (List.singleton_inj.1 (List.append_cancel_left h))

/-- Settles O51: STEP runs on the draw state that NEXT_NORMAL leaves, and that is `filterSample`. -/
theorem coloredIsNormalThenStep : Obligations.ColoredIsNormalThenStep := by
  intro s t u g y hstages hnormal ht hstep hu
  have hdone : Completed s t := ⟨[], g, by rw [List.append_nil]; exact ht⟩
  obtain ⟨w, g', c, hw, hcall, rfl⟩ := exec_nextNormal_of_completed hnormal hdone
  obtain rfl : g' = g := State.eq_of_finish_rsp (s := s.withSource c) ht
  have hkept : c.stages = s.stages := ((sampleNormal_moves s.known).call hcall).stages
  have hplanned : ((s.withSource c).finish g').stages ≠ [] := hkept.trans_ne hstages
  cases (exec_step_planned hplanned g').symm.trans hstep
  obtain rfl := State.eq_of_finish_rsp (s := State.stepped _ g') hu
  rw [exec_nextColored_of_normal hw hstages hcall]
  rfl

end Sys2Proof.Machine
end

section
/-! PROOFS. The faults (60_exceptions.md R151): a fault changes `ERR` and sends its beat, nothing else, and
no step stops the machine. Then the first check of all, the command word (R152). -/

namespace Sys2Proof.Machine

/-! ### What a fault does -/

/-- Taking a fault, written out (R151). -/
theorem State.raise_eq (s : State) {st : Status} (h : st ≠ .ok) :
    s.raise st = { s with err := s.err ||| (1 <<< st.code.toNat), rsp := s.rsp ++ [⟨.done, st, 0⟩] } := by
  cases st with
  | ok => exact absurd rfl h
  | _ => rfl

/-- A beat with another status than `OK` tells the fault the command took, and is its only beat: a hang and
a completion send nothing but `OK` (30_encoding.md R50). -/
theorem Ends.eq_raise_of_mem {i : Instr} {s t : State} {bs : List Beat} {b : Beat} (h : Ends i s t)
    (hrsp : t.rsp = s.rsp ++ bs) (hb : b ∈ bs) (hst : b.status ≠ .ok) : t = s.raise b.status := by
  obtain ⟨st, -, rfl⟩ | ⟨ys, rfl, -, -⟩ | ⟨ys, d, -, hdone⟩ := h
  · obtain rfl := List.append_cancel_left hrsp
    obtain rfl := List.mem_singleton.1 hb
    rfl
  · obtain rfl := List.append_cancel_left hrsp
    obtain ⟨y, -, rfl⟩ := List.mem_map.1 hb
    exact absurd rfl hst
  · obtain rfl := List.append_cancel_left (hdone.rsp.symm.trans hrsp)
    obtain hb | hb := List.mem_append.1 hb
    · obtain ⟨y, -, rfl⟩ := List.mem_map.1 hb
      exact absurd rfl hst
    · obtain rfl := List.mem_singleton.1 hb
      exact absurd rfl hst

/-- Settles O13: the command has raised the fault of its DONE beat (`Ends.eq_raise_of_mem`). -/
theorem faultChangesOnlyErr : Obligations.FaultChangesOnlyErr := by
  intro i s t bs st d h hrsp hst
  have hraise : t = s.raise st :=
    (exec_ends h).eq_raise_of_mem (b := ⟨.done, st, d⟩) (hrsp.trans (List.append_assoc _ _ _))
      (by simp) hst
  exact hraise.trans (s.raise_eq hst)

/-! ### No step stops the machine -/

theorem step_completes (s : State) : ∃ t, step s = .next t := by
  obtain ⟨-, e⟩ | ⟨-, b, bs, -, ⟨-, e⟩ | ⟨-, e⟩⟩ | ⟨-, -, -, -, e⟩ |
    ⟨-, -, -, -, ⟨-, e⟩ | ⟨c, rest, -, e⟩⟩ := step_cases s
  case inr.inr.inr.inr =>
    obtain ⟨t, ht⟩ := accept_completes c { s.tick with cmdq := rest }
    exact ⟨t, e.trans ht⟩
  all_goals exact ⟨_, e⟩

theorem runSteps_of_step {n : Nat} {s t : State} (h : step s = .next t) :
    runSteps (n + 1) s = runSteps n t := by
  simp only [runSteps, h]

/-- Settles O12, by induction on the number of steps. -/
theorem noStepFaultsOrRefuses : Obligations.NoStepFaultsOrRefuses := by
  intro n
  induction n with
  | zero => exact fun s => ⟨s, rfl⟩
  | succ n ih =>
    intro s
    obtain ⟨u, hstep⟩ := step_completes s
    obtain ⟨t, hrun⟩ := ih u
    exact ⟨t, (runSteps_of_step hstep).trans hrun⟩

/-! ### The command word -/

/-- One command of each of the thirteen. -/
def oneOfEach : List Instr :=
  [.seed 0 0 0 0, .nextU32, .nextUniform, .fillUniform 0, .nextNormal, .fillNormal 0, .step 0,
    .numPoles 0 0 0, .plan 0 0 0 0, .plan1 0 0 0, .nextColored, .fillColored 0, .rd 0]

/-- The `match` values are the command words of the thirteen opcodes (30_encoding.md R52). -/
theorem mem_matchValues_iff {cw : U32} : cw ∈ matchValues ↔ ∃ i : Instr, cw = cwOf i.opcode := by
  have hlist : matchValues = oneOfEach.map fun i => cwOf i.opcode := by decide
  constructor
  · intro h
    obtain ⟨i, -, e⟩ := List.mem_map.1 (hlist ▸ h)
    exact ⟨i, e.symm⟩
  · rintro ⟨i, rfl⟩
    cases i <;> exact List.mem_of_elem_eq_true rfl

/-- The command word alone decides whether a command is one of the thirteen (30_encoding.md R47, R53). -/
theorem decode_ok_iff_mem_matchValues {c : Command} :
    (∃ i, decode c = .ok i) ↔ c.cw ∈ matchValues := by
  rw [mem_matchValues_iff]
  constructor
  · rintro ⟨i, h⟩
    obtain ⟨hcw, -⟩ := decode_eq_ok_iff_decodeOpcode.1 h
    exact ⟨i, hcw⟩
  · rintro ⟨i, hcw⟩
    have hsel : ∃ j, decodeOpcode i.opcode.toNat c = some j := by cases i <;> exact ⟨_, rfl⟩
    obtain ⟨j, hj⟩ := hsel
    exact ⟨j, decode_of_opcode i.opcode hcw hj⟩

theorem decode_error_iff_not_ok {c : Command} :
    (∃ r, decode c = .error r) ↔ ¬ ∃ i, decode c = .ok i := by
  cases decode c <;> simp

theorem accept_of_decode_error {c : Command} {r : DecodeReject} (h : decode c = .error r) (s : State) :
    accept c s = .next (s.raise .illegalCmd) := by
  simp only [accept, h]

/-- Settles O4: a command word outside the thirteen does not decode, and then the fault comes before
everything else. -/
theorem illegalWordsFault : Obligations.IllegalWordsFault := by
  intro c
  have hiff : (∃ r, decode c = .error r) ↔ c.cw ∉ matchValues := by
    rw [decode_error_iff_not_ok, decode_ok_iff_mem_matchValues]
  refine ⟨hiff, fun hcw s => ?_⟩
  obtain ⟨r, hr⟩ := hiff.2 hcw
  exact accept_of_decode_error hr s

end Sys2Proof.Machine
end

section
/-! PROOFS. The faults that look at the state: the preconditions (60_exceptions.md R155, R156), the planner's
own causes (R157), and registers without a value (R154). -/

namespace Sys2Proof.Machine

/-! ### No seed, no cascade -/

section
variable {s : State} {n : W64}

/-- Without a seed every kind of deviate faults (R155). -/
theorem Deviate.exec_single_unseeded (D : Deviate) (h : s.gen = .unseeded) :
    exec D.single s = .next (s.raise .notSeeded) := by
  cases D <;> simp only [single, exec, execNextUniform, execNextNormal, execNextColored,
    State.ifSeeded_unseeded h]

/-- A FILL with a 32-bit count too, before it looks at the count (R155, R158). -/
theorem Deviate.exec_fillOf_unseeded (D : Deviate) (hn : fitsU32 n = true) (h : s.gen = .unseeded) :
    exec (D.fillOf n) s = .next (s.raise .notSeeded) := by
  have hm := u32Operand_eq_some.2 ⟨hn, rfl⟩
  cases D <;> simp only [fillOf, exec, execFillUniform, execFillNormal, execFillColored, hm,
    State.ifSeeded_unseeded h]

theorem State.ifPlanned_nil (h : s.stages = []) (k : State) : s.ifPlanned k = s.raise .noCascade :=
  if_pos h

theorem exec_step_unplanned (h : s.stages = []) (x : W64) :
    exec (.step x) s = .next (s.raise .noCascade) := by
  rw [exec, execStep, State.ifPlanned_nil h]

theorem exec_nextColored_unplanned {w : Words} (hw : s.gen = .seeded w) (h : s.stages = []) :
    exec .nextColored s = .next (s.raise .noCascade) := by
  rw [exec, execNextColored, State.ifSeeded_seeded hw, State.ifPlanned_nil h]

theorem exec_fillColored_unplanned {w : Words} (hn : fitsU32 n = true) (hw : s.gen = .seeded w)
    (h : s.stages = []) : exec (.fillColored n) s = .next (s.raise .noCascade) := by
  have hm := u32Operand_eq_some.2 ⟨hn, rfl⟩
  simp only [exec, execFillColored, hm, State.ifSeeded_seeded hw, State.ifPlanned_nil h]

end

/-- Settles O16: NEXT_U32 and the two commands of each kind of deviate. -/
theorem drawsNeedASeed : Obligations.DrawsNeedASeed := by
  intro s h t
  have single (D : Deviate) : exec D.single s = .next t := D.exec_single_unseeded h
  refine ⟨exec_nextU32_unseeded h, single .uniform, single .normal, single .colored, fun n hn => ?_⟩
  have fillOf (D : Deviate) : exec (D.fillOf n) s = .next t :=
    D.exec_fillOf_unseeded ((fitsU32_iff n).2 hn) h
  exact ⟨fillOf .uniform, fillOf .normal, fillOf .colored⟩

/-- Settles O17: the cascade is asked for after the seed, and before any call. -/
theorem filtersNeedACascade : Obligations.FiltersNeedACascade := fun _ h =>
  ⟨exec_step_unplanned h, fun _ hw => ⟨exec_nextColored_unplanned hw h,
    fun n hn => exec_fillColored_unplanned ((fitsU32_iff n).2 hn) hw h⟩⟩

/-! ### The planner -/

section
variable {s : State} {slope fmin fknee fsample : W64}

theorem exec_numPoles_of_invalid
    (hcfg : cfgValid (.ofBits fmin) (.ofBits fknee) (.ofBits fsample) = false) :
    exec (.numPoles fmin fknee fsample) s = .next (s.raise .invalidConfig) := by
  simp only [exec, execNumPoles, hcfg, Bool.false_eq_true, if_false]

theorem exec_plan1_of_invalid
    (hcfg : cfgValid (.ofBits fmin) (.ofBits fknee) (.ofBits fsample) = false) :
    exec (.plan1 fmin fknee fsample) s = .next (s.raise .invalidConfig) := by
  simp only [exec, execPlan1, hcfg, Bool.false_eq_true, if_false]

/-- PLAN tests the slope and the frequencies together (R125). -/
theorem exec_plan_of_invalid (h : ((Val.ofBits slope).isFinite
      && cfgValid (.ofBits fmin) (.ofBits fknee) (.ofBits fsample)) = false) :
    exec (.plan slope fmin fknee fsample) s = .next (s.raise .invalidConfig) := by
  simp only [exec, execPlan, h, Bool.false_eq_true, if_false]

/-- NUM_POLES of a sum that is not finite has no count (R121). -/
theorem exec_numPoles_of_no_count (hn : numPoles s.known s.draws fmin fknee fsample = none) :
    exec (.numPoles fmin fknee fsample) s = .next (s.raise .invalidConfig) := by
  simp only [exec, execNumPoles, hn, ite_self]

theorem exec_plan_of_no_count (hn : numPoles s.known s.draws fmin fknee fsample = none) :
    exec (.plan slope fmin fknee fsample) s = .next (s.raise .invalidConfig) := by
  simp only [exec, execPlan, hn, ite_self]

/-- NUM_POLES of a count that is no signed 32-bit integer (R122). -/
theorem exec_numPoles_of_misfit {n : Int}
    (hcfg : cfgValid (.ofBits fmin) (.ofBits fknee) (.ofBits fsample) = true)
    (hn : numPoles s.known s.draws fmin fknee fsample = some n) (hfit : fitsI32 n = false) :
    exec (.numPoles fmin fknee fsample) s = .next (s.raise .npoles) := by
  simp only [exec, execNumPoles, hcfg, hn, hfit, if_true, Bool.false_eq_true, if_false]

/-- PLAN of fewer stages than one or of more than `NMAX` (R125). -/
theorem exec_plan_of_out_of_range {n : Int} (hslope : (Val.ofBits slope).isFinite = true)
    (hcfg : cfgValid (.ofBits fmin) (.ofBits fknee) (.ofBits fsample) = true)
    (hn : numPoles s.known s.draws fmin fknee fsample = some n) (hrange : ¬(1 ≤ n ∧ n ≤ s.nmax)) :
    exec (.plan slope fmin fknee fsample) s = .next (s.raise .npoles) := by
  simp only [exec, execPlan, hslope, hcfg, hn, Bool.and_self, if_true, if_neg hrange]

end

/-- Settles O19, cause by cause. -/
theorem plannerFaults : Obligations.PlannerFaults := by
  intro s slope fmin fknee fsample bad many valid count
  refine ⟨fun hcfg => ?_, fun hslope => ?_, fun _ hn => ?_, fun n hcfg hn => ⟨fun hslope hrange => ?_,
    fun hrange => ?_⟩⟩
  · exact ⟨exec_numPoles_of_invalid hcfg, exec_plan_of_invalid (Bool.and_eq_false_imp.2 fun _ => hcfg),
      exec_plan1_of_invalid hcfg⟩
  · exact exec_plan_of_invalid (by rw [hslope, Bool.false_and])
  · exact ⟨exec_numPoles_of_no_count hn, exec_plan_of_no_count hn⟩
  · exact exec_plan_of_out_of_range hslope hcfg hn (by omega)
  · have hmisfit : ¬ fitsI32 n = true := fun hfit => by have := (fitsI32_iff n).1 hfit; omega
    exact exec_numPoles_of_misfit hcfg hn (Bool.eq_false_iff.2 hmisfit)

/-! ### RD of a register without a value -/

/-- RD finds a mapped register under its index (10_state.md R28). -/
theorem indexOperand_bind_regAt {nmax : Nat} {r : Reg} (hmax : nmax ≤ 4096) (h : r.Mapped nmax) :
    (indexOperand (.ofNat 64 r.index)).bind (regAt nmax) = some r := by
  rw [indexOperand_ofNat (Reg.index_lt hmax h), Option.bind_some, regAt_index hmax h]

/-- Settles O53: the register is mapped and holds no value. -/
theorem rdOfNoValueFaults : Obligations.RdOfNoValueFaults := by
  intro s r h
  obtain ⟨hmapped, hnone⟩ : r.Mapped s.nmax ∧ s.readReg r = none := by
    obtain ⟨i, rfl, hgen⟩ | ⟨rfl, hcache⟩ | ⟨k, f, rfl, hstage, hmax⟩ := h
    · exact ⟨trivial, by simp only [State.readReg, hgen]⟩
    · exact ⟨trivial, by simp only [State.readReg, hcache]⟩
    · exact ⟨hmax, by rw [State.readReg, List.getElem?_eq_none hstage, Option.map_none]⟩
  exact exec_rd_of_readReg_none (indexOperand_bind_regAt s.nmax_le hmapped) hnone

end Sys2Proof.Machine
end

section
/-! PROOFS. `E_BAD_OPERAND` (60_exceptions.md R153): its two causes, must-be-zero bits and unmapped indices,
and that no command answers it without one of them. -/

namespace Sys2Proof.Machine

/-! ### Unmapped indices -/

/-- The indices below 2^16 that name no register (10_state.md R28). -/
def Unmapped (nmax idx : Nat) : Prop :=
  9 ≤ idx ∧ idx < 0x100 ∨ 0x100 ≤ idx ∧ (5 ≤ (idx - 0x100) % 8 ∨ nmax ≤ (idx - 0x100) / 8)

theorem fieldAt_eq_none_iff {n : Nat} : fieldAt n = none ↔ 5 ≤ n := by
  match n with
  | 0 | 1 | 2 | 3 | 4 => simp [fieldAt]
  | n + 5 => simp [fieldAt]

/-- Below 0x100 the register map names the nine registers of 10_state.md R28. -/
theorem regAt_eq_none_iff_of_lt {nmax : Nat} {idx : BitVec 16} (h : idx.toNat < 0x0100) :
    regAt nmax idx = none ↔ 9 ≤ idx.toNat := by
  unfold regAt
  split_ifs <;> simp only [false_iff, true_iff] <;> omega

theorem regAt_eq_none_iff {nmax : Nat} {idx : BitVec 16} :
    regAt nmax idx = none ↔ Unmapped nmax idx.toNat := by
  unfold Unmapped
  obtain hlt | hge := Nat.lt_or_ge idx.toNat 0x0100
  · rw [regAt_eq_none_iff_of_lt hlt]
    omega
  · rw [regAt_of_ge hge]
    split_ifs with hk
    · rw [Option.map_eq_none_iff, fieldAt_eq_none_iff]
      omega
    · simp only [true_iff]
      omega

/-- RD finds no register under an index whose must-be-zero bits are zero exactly when it is unmapped. -/
theorem indexOperand_bind_regAt_eq_none_iff {nmax : Nat} {idx : W64} (h : fitsU16 idx = true) :
    (indexOperand idx).bind (regAt nmax) = none ↔ Unmapped nmax idx.toNat := by
  have hnat : (idx.setWidth 16).toNat = idx.toNat := by
    rw [BitVec.toNat_setWidth, Nat.mod_eq_of_lt ((fitsU16_iff idx).1 h)]
  rw [indexOperand_eq_some.2 ⟨h, rfl⟩, Option.bind_some, regAt_eq_none_iff, hnat]

/-! ### Must-be-zero bits -/

/-- A FILL whose count has a must-be-zero bit set (R153). -/
theorem Deviate.exec_fillOf_malformed (D : Deviate) {n : W64} (h : fitsU32 n = false) (s : State) :
    exec (D.fillOf n) s = .next (s.raise .badOperand) := by
  have hn := u32Operand_eq_none.2 h
  cases D <;> simp only [fillOf, exec, execFillUniform, execFillNormal, execFillColored, hn]

/-- One component with a must-be-zero bit set is enough for SEED to fault (R153). -/
theorem exec_seed_malformed {x y z w : W64} (h : (Instr.seed x y z w).wellFormed = false) (s : State) :
    exec (.seed x y z w) s = .next (s.raise .badOperand) := by
  simp only [exec, execSeed]
  split
  next hx hy hz hw =>
    have hfits : (Instr.seed x y z w).wellFormed = true := by
      simp only [Instr.wellFormed, (u32Operand_eq_some.1 hx).1, (u32Operand_eq_some.1 hy).1,
        (u32Operand_eq_some.1 hz).1, (u32Operand_eq_some.1 hw).1, Bool.and_self]
    exact absurd (h.symm.trans hfits) Bool.false_ne_true
  next => rfl

/-- Non-zero must-be-zero bits fault before any state is looked at (R153, R158). -/
theorem exec_malformed {i : Instr} (h : i.wellFormed = false) (s : State) :
    exec i s = .next (s.raise .badOperand) := by
  cases i with
  | seed => exact exec_seed_malformed h s
  | fillUniform => exact Deviate.uniform.exec_fillOf_malformed h s
  | fillNormal => exact Deviate.normal.exec_fillOf_malformed h s
  | fillColored => exact Deviate.colored.exec_fillOf_malformed h s
  | rd => exact exec_rd_of_unmapped (by rw [indexOperand_eq_none.2 h, Option.bind_none])
  | _ => cases h

/-! ### No other cause -/

/-- The beats that `t` adds to the response port of `s` do not carry `E_BAD_OPERAND`. -/
def TakesOperands (s t : State) : Prop :=
  ∃ bs, t.rsp = s.rsp ++ bs ∧ ∀ b ∈ bs, b.status ≠ .badOperand

section
variable {s : State}

theorem TakesOperands.raise {st : Status} (h : st ≠ .badOperand) : TakesOperands s (s.raise st) :=
  ⟨[faultBeat st], rfl, by simpa [faultBeat] using h⟩

theorem TakesOperands.hang (ys : List W64) : TakesOperands s (s.hang ys) :=
  ⟨ys.map dataBeat, rfl, by simp [dataBeat]⟩

theorem TakesOperands.complete {u : State} (h : u.rsp = s.rsp) (ys : List W64) (d : W64) :
    TakesOperands s (u.emit (ys.map dataBeat ++ [okBeat d])) := by
  refine ⟨ys.map dataBeat ++ [okBeat d], by rw [State.emit_rsp, h], ?_⟩
  simp [or_imp, forall_and, dataBeat, okBeat]

theorem TakesOperands.finish {u : State} (h : u.rsp = s.rsp) (d : W64) :
    TakesOperands s (u.finish d) := .complete h [] d

theorem TakesOperands.answerOne (r : Option (W64 × Source)) : TakesOperands s (s.answerOne r) := by
  obtain ⟨-, e⟩ | ⟨y, c, -, e⟩ := State.answerOne_cases s r <;> rw [e]
  · exact .hang []
  · exact .finish rfl y

theorem TakesOperands.answerFill (n : U32) (r : List W64 × Option Source) :
    TakesOperands s (s.answerFill n r) := by
  obtain ⟨-, e⟩ | ⟨c, -, e⟩ := State.answerFill_cases s n r <;> rw [e]
  · exact .hang _
  · exact .complete rfl _ _

/-- A kind of deviate wants for a seed, or then for a cascade, or has both. -/
theorem Deviate.preconditions (D : Deviate) (s : State) :
    s.gen = .unseeded ∨ ∃ w, s.gen = .seeded w ∧ (D = .colored ∧ s.stages = [] ∨ D.Ready s) := by
  cases hw : s.gen with
  | unseeded => exact .inl rfl
  | seeded w =>
    refine .inr ⟨w, rfl, ?_⟩
    unfold Deviate.Ready
    tauto

theorem Deviate.single_takesOperands (D : Deviate) :
    ∃ t, exec D.single s = .next t ∧ TakesOperands s t := by
  obtain hgen | ⟨w, hw, ⟨rfl, hstages⟩ | hready⟩ := D.preconditions s
  · exact ⟨_, D.exec_single_unseeded hgen, .raise (by decide)⟩
  · exact ⟨_, exec_nextColored_unplanned hw hstages, .raise (by decide)⟩
  · exact ⟨_, Deviate.exec_single hw hready, .answerOne _⟩

theorem Deviate.fillOf_takesOperands (D : Deviate) {n : W64} (hn : fitsU32 n = true) :
    ∃ t, exec (D.fillOf n) s = .next t ∧ TakesOperands s t := by
  obtain hgen | ⟨w, hw, ⟨rfl, hstages⟩ | hready⟩ := D.preconditions s
  · exact ⟨_, D.exec_fillOf_unseeded hn hgen, .raise (by decide)⟩
  · exact ⟨_, exec_fillColored_unplanned hn hw hstages, .raise (by decide)⟩
  · exact ⟨_, Deviate.exec_fillOf (u32Operand_eq_some.2 ⟨hn, rfl⟩) hw hready, .answerFill _ _⟩

theorem nextU32_takesOperands : ∃ t, exec .nextU32 s = .next t ∧ TakesOperands s t := by
  cases hgen : s.gen with
  | unseeded => exact ⟨_, exec_nextU32_unseeded hgen, .raise (by decide)⟩
  | seeded w => exact ⟨_, exec_nextU32_seeded hgen, .answerOne _⟩

theorem step_takesOperands (x : W64) : ∃ t, exec (.step x) s = .next t ∧ TakesOperands s t := by
  by_cases h : s.stages = []
  · exact ⟨_, exec_step_unplanned h x, .raise (by decide)⟩
  · exact ⟨_, exec_step_planned h x, .finish rfl _⟩

theorem numPoles_takesOperands (fmin fknee fsample : W64) :
    ∃ t, exec (.numPoles fmin fknee fsample) s = .next t ∧ TakesOperands s t := by
  cases hcfg : cfgValid (.ofBits fmin) (.ofBits fknee) (.ofBits fsample) with
  | false => exact ⟨_, exec_numPoles_of_invalid hcfg, .raise (by decide)⟩
  | true =>
    cases hn : numPoles s.known s.draws fmin fknee fsample with
    | none => exact ⟨_, exec_numPoles_of_no_count hn, .raise (by decide)⟩
    | some n =>
      cases hfit : fitsI32 n with
      | false => exact ⟨_, exec_numPoles_of_misfit hcfg hn hfit, .raise (by decide)⟩
      | true => exact ⟨_, exec_numPoles_of_count hcfg hn hfit, .finish rfl _⟩

theorem plan_takesOperands (slope fmin fknee fsample : W64) :
    ∃ t, exec (.plan slope fmin fknee fsample) s = .next t ∧ TakesOperands s t := by
  cases hvalid : (Val.ofBits slope).isFinite
      && cfgValid (.ofBits fmin) (.ofBits fknee) (.ofBits fsample) with
  | false => exact ⟨_, exec_plan_of_invalid hvalid, .raise (by decide)⟩
  | true =>
    obtain ⟨hslope, hcfg⟩ := Bool.and_eq_true_iff.1 hvalid
    cases hn : numPoles s.known s.draws fmin fknee fsample with
    | none => exact ⟨_, exec_plan_of_no_count hn, .raise (by decide)⟩
    | some n =>
      by_cases hrange : 1 ≤ n ∧ n ≤ s.nmax
      · obtain ⟨m, rfl⟩ := Int.eq_ofNat_of_zero_le (show 0 ≤ n by omega)
        have hplans : Plans s slope fmin fknee fsample m := ⟨hslope, hcfg, hn, by omega, by omega⟩
        exact ⟨_, hplans.exec_plan, .finish rfl _⟩
      · exact ⟨_, exec_plan_of_out_of_range hslope hcfg hn hrange, .raise (by decide)⟩

theorem plan1_takesOperands (fmin fknee fsample : W64) :
    ∃ t, exec (.plan1 fmin fknee fsample) s = .next t ∧ TakesOperands s t := by
  cases hcfg : cfgValid (.ofBits fmin) (.ofBits fknee) (.ofBits fsample) with
  | false => exact ⟨_, exec_plan1_of_invalid hcfg, .raise (by decide)⟩
  | true => exact ⟨_, exec_plan1_of_valid hcfg, .finish rfl _⟩

theorem rd_takesOperands {idx : W64} (h : fitsU16 idx = true) (hmap : ¬ Unmapped s.nmax idx.toNat) :
    ∃ t, exec (.rd idx) s = .next t ∧ TakesOperands s t := by
  obtain ⟨r, hr⟩ := Option.ne_none_iff_exists'.1 (mt (indexOperand_bind_regAt_eq_none_iff h).1 hmap)
  cases hv : s.readReg r with
  | none => exact ⟨_, exec_rd_of_readReg_none hr hv, .raise (by decide)⟩
  | some v => exact ⟨_, exec_rd_of_readReg_some hr hv, .finish rfl v⟩

/-- A command with well-formed operands and, for RD, a mapped index does not answer `E_BAD_OPERAND`
(R153). -/
theorem exec_takesOperands {i : Instr} (h : i.wellFormed = true)
    (hmap : ∀ idx, i = .rd idx → ¬ Unmapped s.nmax idx.toNat) :
    ∃ t, exec i s = .next t ∧ TakesOperands s t := by
  cases i with
  | seed => exact ⟨_, exec_seed_of_wellFormed h s, .finish rfl _⟩
  | nextU32 => exact nextU32_takesOperands
  | nextUniform => exact Deviate.uniform.single_takesOperands
  | nextNormal => exact Deviate.normal.single_takesOperands
  | nextColored => exact Deviate.colored.single_takesOperands
  | fillUniform => exact Deviate.uniform.fillOf_takesOperands h
  | fillNormal => exact Deviate.normal.fillOf_takesOperands h
  | fillColored => exact Deviate.colored.fillOf_takesOperands h
  | step x => exact step_takesOperands x
  | numPoles => exact numPoles_takesOperands _ _ _
  | plan => exact plan_takesOperands _ _ _ _
  | plan1 => exact plan1_takesOperands _ _ _
  | rd idx => exact rd_takesOperands h (hmap idx rfl)

end

/-- Settles O18: must-be-zero bits (`exec_malformed`), unmapped indices (`exec_rd_of_unmapped`), and that
there is no other cause (`exec_takesOperands`). -/
theorem badOperandFaults : Obligations.BadOperandFaults := by
  refine ⟨fun i s h => exec_malformed h s, fun idx s hidx hun => ?_, fun i s t hwf hmap h hrsp => ?_⟩
  · exact exec_rd_of_unmapped
      ((indexOperand_bind_regAt_eq_none_iff ((fitsU16_iff idx).2 hidx)).2 hun)
  · have hmapped : ∀ idx, i = .rd idx → ¬ Unmapped s.nmax idx.toNat := by
      intro idx hi
      have := hmap idx hi
      unfold Unmapped
      omega
    obtain ⟨u, hu, bs, hbs, hok⟩ := exec_takesOperands hwf hmapped
    cases hu.symm.trans h
    obtain rfl := List.append_cancel_left (hbs.symm.trans hrsp)
    exact hok _ (List.mem_singleton_self _) rfl

end Sys2Proof.Machine
end

section
/-! PROOFS. Reset (70_reset_and_hazards.md R171, R172) and the hang that only a reset ends (R181), along
what one clock edge can do (`step_cases`). -/

namespace Sys2Proof.Machine

/-- An edge with `rst` = 1 resets the block, whatever it was doing (R171, R172). -/
theorem step_of_rst {s : State} (h : s.pinsNow.rst = true) : step s = .next s.tick.resetBlock :=
  if_pos h

/-- A block that has been reset takes a command as soon as `rst` is 0 (R171). -/
theorem State.resetBlock_cmdReady {s : State} (h : s.resetBlock.pinsNow.rst = false) :
    s.resetBlock.cmdReady = true :=
  State.cmdReady_iff.2 ⟨h, s.resetBlock_rsp, s.resetBlock_hung⟩

/-- Settles O7: the edge is `State.resetBlock` (`step_of_rst`), and both ports are low while `rst` is 1. -/
theorem resetFromEveryState : Obligations.ResetFromEveryState := by
  intro s hrst
  refine ⟨by simp [State.cmdReady, hrst], by simp [State.rspValid, hrst], step_of_rst hrst, ?_⟩
  intro t ht hlow
  cases (step_of_rst hrst).symm.trans ht
  exact State.resetBlock_cmdReady hlow

/-- At an edge without a reset a hung block sends a beat it has or does nothing: it accepts no command and
draws nothing (R181). -/
theorem step_of_hung {s t : State} (hung : s.hung = true) (hrst : s.pinsNow.rst = false)
    (h : step s = .next t) :
    t.hung = true ∧ t.cmdq = s.cmdq ∧ t.gen = s.gen ∧ t.sent ++ t.rsp = s.sent ++ s.rsp := by
  obtain ⟨hr, -⟩ | ⟨-, b, bs, hrsp, ⟨-, e⟩ | ⟨-, e⟩⟩ | ⟨-, -, -, -, e⟩ | ⟨-, -, hidle, -⟩ :=
    step_cases s
  case inl => simp [hrst] at hr
  case inr.inr.inr => simp [hung] at hidle
  all_goals cases e.symm.trans h
  case inr.inl.inl => exact ⟨hung, rfl, rfl, by simp [hrsp]⟩
  case inr.inl.inr | inr.inr.inl => exact ⟨hung, rfl, rfl, rfl⟩

/-- Settles O34: without `rst` the hang goes on (`step_of_hung`), with it the block is reset
(`step_of_rst`). -/
theorem onlyResetLeavesAHang : Obligations.OnlyResetLeavesAHang := by
  intro s t hung h
  refine ⟨fun hrst => step_of_hung hung hrst h, fun hrst => ?_⟩
  cases (step_of_rst hrst).symm.trans h
  exact State.resetBlock_hung s.tick

end Sys2Proof.Machine
end

section
/-! PROOFS. Non-finite values stick (70_reset_and_hazards.md R179): what `+` and `*` cannot undo passes
from a stage's delays into its output, from there into the next stage, and stays (40_numerics.md R73). -/

namespace Sys2Proof

/-- A finite product has finite factors: an infinity times a zero is a NaN (40_numerics.md R73). -/
theorem Val.isFinite_operands_of_mul {a b : Val} (h : (a.mul b).isFinite = true) :
    a.isFinite = true ∧ b.isFinite = true := by
  have hb : b.isFinite = true := by
    cases b with
    | nan => simp [isFinite] at h
    | inf t =>
      cases a with
      | nan | inf => cases h
      | fin s m e => rw [Val.mul] at h; split at h <;> cases h
    | fin => rfl
  exact ⟨isFinite_of_mul hb h, hb⟩

namespace Machine

/-! ### Values that `+` and `*` cannot undo -/

/-- A sum or a product with an operand in `P` is in `P`. -/
structure Absorbing (P : Val → Prop) : Prop where
  add : ∀ {a b}, P a ∨ P b → P (a.add b)
  mul : ∀ {a b}, P a ∨ P b → P (a.mul b)

/-- A NaN operand makes the result a NaN (40_numerics.md R73). -/
theorem absorbing_nan : Absorbing fun v => v = .nan where
  add := by rintro a b (rfl | rfl) <;> simp
  mul := by rintro a b (rfl | rfl) <;> simp

/-- A NaN or infinite operand makes the result a NaN or an infinity (R73). -/
theorem absorbing_nonFinite : Absorbing fun v => v.isFinite = false where
  add {a b} h := by
    by_contra hfin
    obtain ⟨ha, hb⟩ := Val.isFinite_of_add (Bool.not_eq_false _ ▸ hfin)
    simp [ha, hb] at h
  mul {a b} h := by
    by_contra hfin
    obtain ⟨ha, hb⟩ := Val.isFinite_operands_of_mul (Bool.not_eq_false _ ▸ hfin)
    simp [ha, hb] at h

/-! ### Through the cascade -/

/-- Stage `k` holds a delay in `P`. -/
def Poisoned (P : Val → Prop) (k : Nat) (l : List Stage) : Prop :=
  ∃ st, l[k]? = some st ∧ (P (.ofBits st.x1) ∨ P (.ofBits st.y1))

/-- The outputs of the stages from `k` on are in `P`. -/
def SticksFrom (P : Val → Prop) (k : Nat) (l : List Stage) : Prop :=
  ∀ j st, k ≤ j → l[j]? = some st → P (.ofBits st.y1)

section
variable {P : Val → Prop} {k : Nat} {l : List Stage}

theorem SticksFrom.poisoned (h : SticksFrom P k l) (hk : k < l.length) : Poisoned P k l :=
  ⟨l[k], List.getElem?_eq_getElem hk, .inr (h k _ le_rfl (List.getElem?_eq_getElem hk))⟩

theorem Poisoned.lt_length (h : Poisoned P k l) : k < l.length := by
  obtain ⟨st, hst, -⟩ := h
  obtain ⟨hk, -⟩ := List.getElem?_eq_some_iff.1 hst
  exact hk

theorem Poisoned.ne_nil (h : Poisoned P k l) : l ≠ [] :=
  List.ne_nil_of_length_pos (Nat.zero_lt_of_lt h.lt_length)

theorem sticksFrom_of_length_le (h : l.length ≤ k) : SticksFrom P k l := by
  intro j st hj hst
  obtain ⟨hlt, -⟩ := List.getElem?_eq_some_iff.1 hst
  omega

theorem sticksFrom_zero (h : ∀ st ∈ l, P (.ofBits st.y1)) : SticksFrom P 0 l :=
  fun _ st _ hst => h st (List.mem_of_getElem? hst)

theorem SticksFrom.cons (h : SticksFrom P k l) (st : Stage) : SticksFrom P (k + 1) (st :: l)
  | 0, _, hle, _ => absurd hle (Nat.not_succ_le_zero k)
  | j + 1, st', hle, hst => h j st' (Nat.le_of_succ_le_succ hle) hst

/-- What a stage is given or holds of `P` is in its output (43_single_pole.md R112). -/
theorem Absorbing.stageStep_output (hP : Absorbing P) {st : Stage} {x : W64} (n : Nat)
    (h : P (.ofBits x) ∨ P (.ofBits st.x1) ∨ P (.ofBits st.y1)) :
    P (.ofBits (stageStep n st x).1) := by
  have hout : P (stageOut st x) := by
    obtain hx | hx1 | hy1 := h
    · exact hP.add (.inl (hP.add (.inl (hP.mul (.inr hx)))))
    · exact hP.add (.inl (hP.add (.inr (hP.mul (.inr hx1)))))
    · exact hP.add (.inr (hP.mul (.inr hy1)))
  exact (Val.ofBits_bits_nanAt (stageOut_canonical st x) n).symm ▸ hout

/-- A sample in `P` goes through all the stages and out of the last one (R114). -/
theorem Absorbing.cascadeStep_sample (hP : Absorbing P) {v : W64} (hv : P (.ofBits v)) (n : Nat)
    (l : List Stage) :
    P (.ofBits (cascadeStep n v l).1) ∧
      ∀ st ∈ (cascadeStep n v l).2, P (.ofBits st.x1) ∧ P (.ofBits st.y1) := by
  induction l generalizing n v with
  | nil => exact ⟨hv, by simp⟩
  | cons st rest ih =>
    have hout : P (.ofBits (stageStep n st v).1) := hP.stageStep_output n (.inl hv)
    obtain ⟨hlast, hrest⟩ := ih hout (n + 1)
    exact ⟨hlast, List.forall_mem_cons.2 ⟨⟨hv, hout⟩, hrest⟩⟩

/-- A delay of stage `k` in `P` goes into its output and through all later stages (R112, R114). -/
theorem Absorbing.cascadeStep_poisoned (hP : Absorbing P) (h : Poisoned P k l) (n : Nat) (v : W64) :
    P (.ofBits (cascadeStep n v l).1) ∧ SticksFrom P k (cascadeStep n v l).2 := by
  obtain ⟨st, hst, hdelay⟩ := h
  induction l generalizing n v k with
  | nil => cases hst
  | cons a rest ih =>
    cases k with
    | zero =>
      obtain rfl : a = st := Option.some.inj hst
      have hout : P (.ofBits (stageStep n a v).1) := hP.stageStep_output n (.inr hdelay)
      obtain ⟨hlast, hrest⟩ := hP.cascadeStep_sample hout (n + 1) rest
      exact ⟨hlast, sticksFrom_zero (List.forall_mem_cons.2 ⟨hout, fun st h => (hrest st h).2⟩)⟩
    | succ k =>
      obtain ⟨hlast, hrest⟩ := ih (n + 1) (stageStep n a v).1 hst
      exact ⟨hlast, hrest.cons _⟩

/-- A step of the cascade clears nothing. -/
theorem Absorbing.cascadeStep_sticks (hP : Absorbing P) (h : SticksFrom P k l) (n : Nat) (v : W64) :
    SticksFrom P k (cascadeStep n v l).2 := by
  by_cases hk : k < l.length
  · exact (hP.cascadeStep_poisoned (h.poisoned hk) n v).2
  · exact sticksFrom_of_length_le ((cascadeStep_length n v l).trans_le (not_lt.1 hk))

/-! ### Through the colored samples -/

/-- A colored sample is what the cascade gives when it steps on a deviate (45_colored.md R135). -/
theorem sampleColored_cascade {K : Known} {c c' : Source} {y : W64}
    (h : sampleColored K c = some (y, c')) : ∃ n g, cascadeStep n g c.stages = (y, c'.stages) := by
  obtain ⟨g, d, hnormal, hfilter⟩ := sampleColored_eq_some.1 h
  obtain ⟨rfl, rfl⟩ := Prod.mk.inj hfilter
  exact ⟨d.draws, g, by rw [← ((sampleNormal_moves K).call hnormal).stages]⟩

/-- A draw state whose stage `k` is poisoned gives a sample in `P`, and from stage `k` on
it sticks. -/
theorem Absorbing.sampleColored_poisoned (hP : Absorbing P) {K : Known} {c c' : Source} {y : W64}
    (h : sampleColored K c = some (y, c')) (hc : Poisoned P k c.stages) :
    P (.ofBits y) ∧ SticksFrom P k c'.stages := by
  obtain ⟨n, g, hstep⟩ := sampleColored_cascade h
  simpa [hstep] using hP.cascadeStep_poisoned hc n g

/-- The draw state has moved without clearing anything from stage `k` on. -/
def StickyMove (P : Val → Prop) (k : Nat) (c c' : Source) : Prop :=
  SticksFrom P k c.stages → SticksFrom P k c'.stages

theorem Absorbing.sampleColored_sticky (hP : Absorbing P) (K : Known) :
    Moves (sampleColored K) (StickyMove P k) where
  refl _ := id
  trans h h' := h' ∘ h
  call {c y c'} hf := by
    intro hc
    obtain ⟨n, g, hstep⟩ := sampleColored_cascade hf
    simpa [hstep] using hP.cascadeStep_sticks hc n g

/-- What each call of a sampler keeps holds of every sample of a FILL. -/
theorem fill_samples {f : Source → Option (W64 × Source)} {I : Source → Prop} {Q : W64 → Prop}
    (step : ∀ c y c', f c = some (y, c') → I c → Q y ∧ I c') {n : Nat} {c : Source} (hc : I c) :
    ∀ y ∈ (fill f n c).1, Q y := by
  induction n generalizing c with
  | zero => simp
  | succ n ih =>
    cases hf : f c with
    | none => simp [fill_succ_none hf]
    | some r =>
      obtain ⟨y, d⟩ := r
      obtain ⟨hy, hd⟩ := step c y d hf hc
      rw [fill_succ_some hf]
      exact List.forall_mem_cons.2 ⟨hy, ih hd⟩

/-- Every sample of a FILL from a poisoned cascade is in `P`. -/
theorem Absorbing.fill_sampleColored_samples (hP : Absorbing P) {K : Known} {n : Nat} {c : Source}
    (hc : Poisoned P k c.stages) : ∀ y ∈ (fill (sampleColored K) n c).1, P (.ofBits y) := by
  refine fill_samples (I := fun c => Poisoned P k c.stages) (fun c y c' hf h => ?_) hc
  obtain ⟨hy, hstages⟩ := hP.sampleColored_poisoned hf h
  have hlen : c'.stages.length = c.stages.length := ((sampleColored_moves K).call hf).stages.length
  exact ⟨hy, hstages.poisoned (hlen ▸ h.lt_length)⟩

/-- A FILL from a poisoned cascade that makes a call sticks: the first call spreads, the others keep. -/
theorem Absorbing.fill_sampleColored_sticks (hP : Absorbing P) {K : Known} {n : Nat} {c c' : Source}
    (hn : n ≠ 0) (hc : Poisoned P k c.stages) (h : (fill (sampleColored K) n c).2 = some c') :
    SticksFrom P k c'.stages := by
  obtain ⟨n, rfl⟩ := Nat.exists_eq_succ_of_ne_zero hn
  cases hf : sampleColored K c with
  | none => simp [fill_succ_none hf] at h
  | some r =>
    obtain ⟨y, d⟩ := r
    rw [fill_succ_some hf] at h
    exact (hP.sampleColored_sticky K).fill h (hP.sampleColored_poisoned hf hc).2

end

/-! ### Through the commands -/

section
variable {i : Instr} {s t : State}

/-- A NEXT_COLORED that completes answers the sample its call returned (45_colored.md R136). -/
theorem exec_nextColored_of_completed (h : exec .nextColored s = .next t) (hdone : Completed s t) :
    ∃ w y c, s.gen = .seeded w ∧ sampleColored s.known (s.source w) = some (y, c) ∧
      t = (s.withSource c).finish y := by
  obtain hgen | ⟨w, hw, ⟨-, hstages⟩ | hready⟩ := Deviate.colored.preconditions s
  · cases (Deviate.colored.exec_single_unseeded hgen).symm.trans h
    exact absurd hdone (not_completed_raise (by decide))
  · cases (exec_nextColored_unplanned hw hstages).symm.trans h
    exact absurd hdone (not_completed_raise (by decide))
  · cases (Deviate.exec_single hw hready).symm.trans h
    obtain ⟨-, e⟩ | ⟨y, c, hcall, e⟩ :=
      State.answerOne_cases s (Deviate.colored.sampler s.known (s.source w))
    · exact absurd (e ▸ hdone) (not_completed_hang s [])
    · exact ⟨w, y, c, hw, hcall, e⟩

/-- Before the DONE beat of a command that completed stand DATA beats with status `OK` (30_encoding.md
R50). -/
theorem Ends.data_of_completed {bs : List Beat} {d : W64} (h : Ends i s t)
    (hrsp : t.rsp = s.rsp ++ bs ++ [okBeat d]) : ∃ ys : List W64, bs = ys.map dataBeat := by
  obtain ⟨st, hst, rfl⟩ | ⟨ys, rfl, -, -⟩ | ⟨ys, e, -, hc⟩ := h
  · exact absurd ⟨bs, d, hrsp⟩ (not_completed_raise hst)
  · exact absurd ⟨bs, d, hrsp⟩ (not_completed_hang s ys)
  · have hbeats := hc.rsp.symm.trans hrsp
    rw [← List.append_assoc] at hbeats
    exact ⟨ys, (List.append_cancel_left (List.append_inj_left' hbeats rfl)).symm⟩

/-- The DATA beats of FILL_COLORED carry the samples of its calls (45_colored.md R137). -/
theorem exec_fillColored_data {n : W64} {b : Beat} (h : exec (.fillColored n) s = .next t)
    (hb : b ∈ t.rsp.drop s.rsp.length) (hdata : b.kind = .data) :
    ∃ (m : U32) (w : Words), b.data ∈ (fill (sampleColored s.known) m.toNat (s.source w)).1 := by
  have data_mem {ys : List W64} (hmem : b ∈ ys.map dataBeat) : b.data ∈ ys := by
    obtain ⟨y, hy, rfl⟩ := List.mem_map.1 hmem
    exact hy
  obtain ⟨st, -, he⟩ | ⟨m, w, hm, hw, hready⟩ := Deviate.colored.exec_fillOf_cases n s
  · cases he.symm.trans h
    simp only [State.raise_rsp, List.drop_left, List.mem_singleton] at hb
    subst hb
    cases hdata
  · refine ⟨m, w, data_mem ?_⟩
    cases (Deviate.exec_fillOf hm hw hready).symm.trans h
    obtain ⟨-, e⟩ | ⟨c, -, e⟩ :=
      State.answerFill_cases s m (fill (sampleColored s.known) m.toNat (s.source w))
    · simpa [Deviate.sampler, e] using hb
    · simp only [Deviate.sampler, e, State.emit_rsp, State.withSource_rsp, List.drop_left,
        List.mem_append, List.mem_singleton] at hb
      obtain hb | rfl := hb
      · exact hb
      · cases hdata

variable {R : Source → Source → Prop}

/-- NEXT_COLORED leaves the registers alone or moves the draw state as its call does. -/
theorem Moves.exec_nextColored (hR : Moves (sampleColored s.known) R)
    (h : exec .nextColored s = .next t) : SameRegisters s t ∨ Draws R s t := by
  obtain hgen | ⟨w, hw, ⟨-, hstages⟩ | hready⟩ := Deviate.colored.preconditions s
  · cases (Deviate.colored.exec_single_unseeded hgen).symm.trans h
    exact .inl (.raise s _)
  · cases (exec_nextColored_unplanned hw hstages).symm.trans h
    exact .inl (.raise s _)
  · cases (Deviate.exec_single hw hready).symm.trans h
    exact hR.answerOne hw

/-- FILL_COLORED too. -/
theorem Moves.exec_fillColored {n : W64} (hR : Moves (sampleColored s.known) R)
    (h : exec (.fillColored n) s = .next t) : SameRegisters s t ∨ Draws R s t := by
  obtain ⟨st, -, he⟩ | ⟨m, w, hm, hw, hready⟩ := Deviate.colored.exec_fillOf_cases n s
  · cases he.symm.trans h
    exact .inl (.raise s _)
  · cases (Deviate.exec_fillOf hm hw hready).symm.trans h
    exact hR.answerFill hw m

variable {P : Val → Prop} {k : Nat}

theorem SticksFrom.of_stickyMove (hs : SticksFrom P k s.stages)
    (h : SameRegisters s t ∨ Draws (StickyMove P k) s t) : SticksFrom P k t.stages := by
  obtain h | ⟨w, c, -, hmove, -, -, hstages⟩ := h
  · exact h.stages ▸ hs
  · exact hstages ▸ hmove hs

/-- No command but PLAN and PLAN1 clears what sticks (R179): they alone write a stage otherwise than by a
step of the cascade. -/
theorem Absorbing.exec_sticks (hP : Absorbing P) (h : exec i s = .next t)
    (hplan : ∀ a b c d, i ≠ .plan a b c d) (hplan1 : ∀ a b c, i ≠ .plan1 a b c)
    (hs : SticksFrom P k s.stages) : SticksFrom P k t.stages := by
  cases i with
  | plan => exact absurd rfl (hplan _ _ _ _)
  | plan1 => exact absurd rfl (hplan1 _ _ _)
  | step x =>
    by_cases hstages : s.stages = []
    · cases (exec_step_unplanned hstages x).symm.trans h
      exact hs
    · cases (exec_step_planned hstages x).symm.trans h
      exact hP.cascadeStep_sticks hs _ x
  | nextColored => exact hs.of_stickyMove ((hP.sampleColored_sticky _).exec_nextColored h)
  | fillColored => exact hs.of_stickyMove ((hP.sampleColored_sticky _).exec_fillColored h)
  | _ => exact (exec_effect h).stages_eq hplan hplan1 nofun nofun nofun ▸ hs

/-- STEP and NEXT_COLORED of a poisoned cascade answer a datum in `P`, and it sticks (R179). -/
theorem Absorbing.exec_single_poisoned (hP : Absorbing P) (hs : Poisoned P k s.stages) {d : W64}
    (hi : (∃ x, i = .step x) ∨ i = .nextColored) (h : exec i s = .next t)
    (hrsp : t.rsp = s.rsp ++ [okBeat d]) : P (.ofBits d) ∧ SticksFrom P k t.stages := by
  obtain ⟨x, rfl⟩ | rfl := hi
  · cases (exec_step_planned hs.ne_nil x).symm.trans h
    obtain rfl := State.eq_of_finish_rsp (s := s.stepped x) hrsp
    exact hP.cascadeStep_poisoned hs s.draws x
  · have hdone : Completed s t := ⟨[], d, by rw [List.append_nil]; exact hrsp⟩
    obtain ⟨w, y, c, -, hcall, rfl⟩ := exec_nextColored_of_completed h hdone
    obtain rfl := State.eq_of_finish_rsp (s := s.withSource c) hrsp
    exact hP.sampleColored_poisoned hcall hs

/-- A FILL_COLORED of a poisoned cascade that completes with a sample sticks (R179). -/
theorem Absorbing.exec_fillColored_poisoned (hP : Absorbing P) (hs : Poisoned P k s.stages)
    {n : W64} (hn : n ≠ 0) {bs : List Beat} (h : exec (.fillColored n) s = .next t)
    (hrsp : t.rsp = s.rsp ++ bs ++ [okBeat n]) : SticksFrom P k t.stages := by
  obtain ⟨ys, rfl⟩ := (exec_ends h).data_of_completed hrsp
  obtain ⟨w, c, -, -, hfill, rfl⟩ := Deviate.fill_of_exec_fillOf (D := .colored) h hrsp
  have hcalls : n.toNat ≠ 0 := fun h0 => hn (BitVec.eq_of_toNat_eq h0)
  exact hP.fill_sampleColored_sticks hcalls hs (congrArg Prod.snd hfill)

/-- A STEP on a sample in `P` leaves it in every delay and answers with it (R179). -/
theorem Absorbing.exec_step_sample (hP : Absorbing P) {x : W64} (hx : P (.ofBits x))
    (hstages : s.stages ≠ []) (h : exec (.step x) s = .next t) :
    (∀ st ∈ t.stages, P (.ofBits st.x1) ∧ P (.ofBits st.y1)) ∧
      ∃ d, t.rsp = s.rsp ++ [okBeat d] ∧ P (.ofBits d) := by
  cases (exec_step_planned hstages x).symm.trans h
  obtain ⟨hout, hdelays⟩ := hP.cascadeStep_sample hx s.draws s.stages
  exact ⟨hdelays, _, rfl, hout⟩

end

/-- Settles O44: a NaN, and a NaN or an infinity, are absorbing (`absorbing_nan`, `absorbing_nonFinite`),
and what is absorbing spreads from a poisoned stage and is not cleared. -/
theorem nonFiniteSticks : Obligations.NonFiniteSticks := by
  intro P hkind s t k
  have hP : Absorbing P := by
    obtain rfl | rfl := hkind
    · exact absorbing_nan
    · exact absorbing_nonFinite
  refine ⟨fun st hst hdelay => ?_, fun x hstages hx h => hP.exec_step_sample hx hstages h,
    fun i hplan hplan1 h => hP.exec_sticks h hplan hplan1⟩
  have hs : Poisoned P k s.stages := ⟨st, hst, hdelay⟩
  refine ⟨fun i d hi h hrsp => hP.exec_single_poisoned hs hi h hrsp, fun n h => ⟨?_, ?_⟩⟩
  · intro b hb hdata
    obtain ⟨m, w, hmem⟩ := exec_fillColored_data h hb hdata
    exact hP.fill_sampleColored_samples hs _ hmem
  · exact fun hn bs hrsp => hP.exec_fillColored_poisoned hs hn h hrsp

end Machine

end Sys2Proof
end
